-- ==== Sys2Proof/Word.lean ====
section
/-! DEFINITION. The value types of the block: every value is unsigned (00_scope.md R10, R13). -/

namespace Sys2Proof

/-- An 8-bit unsigned value (00_scope.md R10). -/
abbrev Byte := BitVec 8

/-- A 16-bit Address value, of which 0x0000 to 0x7FFF is the valid range (00_scope.md R10). -/
abbrev Addr := BitVec 16

/-- A 48-bit command word (30_encoding.md R80). -/
abbrev CmdWord := BitVec 48

/-- A pin identifier. Its width PIN_ID_BITS is open (00_scope.md R12, D29), so it is any natural number
(log 8). -/
abbrev PinId := Nat

end Sys2Proof
end

