-- ==== Sys2Proof/Config.lean ====
section
/-! DEFINITION. What an implementation fixes (00_scope.md R11, R12) and the free values: constants with no
body, of which nothing can be proved but that they are what they are. -/

namespace Sys2Proof

/-- The build-time parameters of 00_scope.md R12 that the block's events depend on. They are fields of a
record so that a claim about every state holds for every value of them (D20, D26). -/
structure Params where
  /-- OE_SETTLE_US, the delay after OE is asserted, in µs. -/
  oeSettleUs : Nat
  /-- READ_SETTLE_US, the delay before each sample, in µs. -/
  readSettleUs : Nat
  /-- HEX_UPPER, the letter case of hex digits. -/
  hexUpper : Bool
  /-- EOL_SEQ, the characters of a dump line break. -/
  eolSeq : List Byte
  deriving DecidableEq, Repr

/-- The construction-time configuration of 00_scope.md R11: the Pin Assignment and the Timing Constant. -/
structure PinConfig where
  /-- The pin of address bit k. -/
  addrPin : Vector PinId 15
  /-- The pin of data-line index p, which carries data bit 7 - p (20_memory.md R62). -/
  dataPin : Vector PinId 8
  /-- The write-enable pin, active low. -/
  wePin : PinId
  /-- The output-enable pin, active low. -/
  oePin : PinId
  /-- The Timing Constant in µs (10_state.md R34; TBIT_BITS = 16 by D27). -/
  tBit : BitVec 16
  deriving DecidableEq, Repr

/-- OE_SETTLE_US of the machine after reset: open (D26; log 7). -/
opaque Config.oeSettleUs : Nat

/-- READ_SETTLE_US of the machine after reset: open (D26; log 7). -/
opaque Config.readSettleUs : Nat

/-- The answer of the pin bank to the n-th draw, where no answer is listed in the state (20_memory.md R68;
log 11). -/
opaque Config.freeSample : Nat → Bool

/-- The n-th piece of PROGRAM's ECHO text beyond those listed in the state: some finite text
(41_programmer.md R143; log 17). -/
opaque Config.freeText : Nat → List Byte

/-- The unspecified initial byte of device location a (20_memory.md R74; log 13). -/
opaque Config.initialByte : Nat → Byte

/-- The value a working register holds before the command writes it (10_state.md R48, R49, I17): by draw,
register and width (log 9). -/
opaque Config.unsetRegister : Nat → Nat → (width : Nat) → BitVec width

/-- What the device latches from address lines whose level is UNKNOWN (20_memory.md R72; log 15). -/
opaque Config.floatingAddr : Nat → BitVec 15

/-- What the device latches from data lines that are not all driven (20_memory.md R72; log 15). -/
opaque Config.floatingData : Nat → Byte

end Sys2Proof
end

