-- ==== Sys2Proof/Syntax.lean ====
section
/-! DEFINITION. The command set: one constructor per row of spec/opcode_table.json, with the operands the
command reads (30_encoding.md R82, R83). -/

namespace Sys2Proof

/-- The seven commands of 30_encoding.md R83. -/
inductive Instr where
  /-- SET_ADDRESS addr (40_bus_driver.md R110). -/
  | setAddress (addr : Addr)
  /-- ENTER_WRITE (R115). -/
  | enterWrite
  /-- ENTER_READ (R120). -/
  | enterRead
  /-- WRITE_BYTE value, addr (R125). -/
  | writeByte (value : Byte) (addr : Addr)
  /-- READ_BYTE addr (R130). -/
  | readByte (addr : Addr)
  /-- PROGRAM startAddr, finalAddr (41_programmer.md R140). -/
  | program (startAddr finalAddr : Addr)
  /-- DUMP startAddr, lineCount (R145). -/
  | dump (startAddr : Addr) (lineCount : BitVec 16)
  deriving DecidableEq, Repr

end Sys2Proof
end

