-- ==== Sys2Proof/WellFormed.lean ====
section
/-! DEFINITION. What must hold of an instruction and of a configuration before the rules give it a meaning. -/

namespace Sys2Proof

/-- Every operand at its field's width is a legal command: "No field is checked or clamped at decode"
(30_encoding.md R82). The widths themselves are in the types of Instr. -/
def Instr.wellFormed : Instr → Bool
  | .setAddress _ => true
  | .enterWrite => true
  | .enterRead => true
  | .writeByte _ _ => true
  | .readByte _ => true
  | .program _ _ => true
  | .dump _ _ => true

/-- The 25 pin ids of a configuration, address lines first. -/
def PinConfig.pins (c : PinConfig) : List PinId :=
  c.addrPin.toList ++ (c.dataPin.toList ++ [c.wePin, c.oePin])

/-- "The 25 pin ids of cfg must be pairwise distinct" (10_state.md R33). -/
def PinConfig.wellFormed (c : PinConfig) : Bool := decide c.pins.Nodup

end Sys2Proof
end

