-- ==== Sys2Proof/Decode.lean ====
section
/-! DEFINITION. Decoding a command word (30_encoding.md R81 to R86), total, with the reserved opcodes rejected
by name, and the encoder written from the same field table. -/

namespace Sys2Proof

/-- Why a word is no command. -/
inductive DecodeError where
  /-- OP = 0x00 or 0x08 to 0xFF (30_encoding.md R84). -/
  | reservedOpcode (op : Byte)
  deriving DecidableEq, Repr

/-- OP, bits 7:0 (30_encoding.md R81). -/
def opField (w : CmdWord) : Byte := w.extractLsb' 0 8

/-- DATA, bits 15:8. -/
def dataField (w : CmdWord) : Byte := w.extractLsb' 8 8

/-- ADDR, bits 31:16. -/
def addrField (w : CmdWord) : Addr := w.extractLsb' 16 16

/-- ARG, bits 47:32. -/
def argField (w : CmdWord) : BitVec 16 := w.extractLsb' 32 16

/-- Decoding and dispatch of one accepted word (30_encoding.md R86). Fields a command does not read are
ignored (R85). -/
def decode (w : CmdWord) : Except DecodeError Instr :=
  match (opField w).toNat with
  | 0x01 => .ok (.setAddress (addrField w))
  | 0x02 => .ok .enterWrite
  | 0x03 => .ok .enterRead
  | 0x04 => .ok (.writeByte (dataField w) (addrField w))
  | 0x05 => .ok (.readByte (addrField w))
  | 0x06 => .ok (.program (addrField w) (argField w))
  | 0x07 => .ok (.dump (addrField w) (argField w))
  | _ => .error (.reservedOpcode (opField w))

/-- The word `ARG ADDR DATA OP` (30_encoding.md R81). -/
def cmdWord (arg addr : BitVec 16) (data op : Byte) : CmdWord := arg ++ addr ++ data ++ op

/-- The opcode of a command (30_encoding.md R83). -/
def Instr.opcode : Instr → Byte
  | .setAddress _ => 0x01
  | .enterWrite => 0x02
  | .enterRead => 0x03
  | .writeByte _ _ => 0x04
  | .readByte _ => 0x05
  | .program _ _ => 0x06
  | .dump _ _ => 0x07

/-- The command word of an instruction: its operands in the fields it reads, the others 0
(30_encoding.md R88, "An omitted operand is zero"). -/
def encode (i : Instr) : CmdWord :=
  match i with
  | .setAddress addr => cmdWord 0 addr 0 i.opcode
  | .enterWrite => cmdWord 0 0 0 i.opcode
  | .enterRead => cmdWord 0 0 0 i.opcode
  | .writeByte value addr => cmdWord 0 addr value i.opcode
  | .readByte addr => cmdWord 0 addr 0 i.opcode
  | .program startAddr finalAddr => cmdWord finalAddr startAddr 0 i.opcode
  | .dump startAddr lineCount => cmdWord lineCount startAddr 0 i.opcode

/-- The command word with bits `w` as spec/opcode_table.json numbers them; every bit from nbits up is 0.
A command is one 48-bit word (30_encoding.md R80). -/
def tableWord (nbits w : Nat) : CmdWord := BitVec.ofNat 48 (w % 2 ^ nbits)

/-- The instruction the decoder reads from a word of the opcode table. -/
def decodeTableWord (nbits w : Nat) : Option Instr := (decode (tableWord nbits w)).toOption

end Sys2Proof
end

