-- ==== Sys2Proof/Machine/State.lean ====
section
/-! DEFINITION. Everything the spec gives the machine, as plain data, and the state after reset. -/

namespace Sys2Proof.Machine

open Sys2Proof

/-- The three Bus Modes (10_state.md R35); the code 0b11 is never held, so it is no constructor. -/
inductive BusMode where
  | uninit
  | read
  | write
  deriving DecidableEq, Repr

/-- STATUS.LAST (10_state.md R42, R44). -/
inductive StatusCode where
  | ok
  | illegal
  | noSink
  deriving DecidableEq, Repr

/-- The 25 lines of the Pin Assignment by role (00_scope.md R11, R13). -/
inductive LineId where
  | addr (k : Fin 15)
  | data (p : Fin 8)
  | we
  | oe
  deriving DecidableEq, Repr

/-- The direction a Dir event commands (00_scope.md R14). -/
inductive PinDir where
  | input
  | output
  deriving DecidableEq, Repr

/-- lineDir (10_state.md R40). -/
inductive LineDir where
  | input
  | output
  | unknown
  deriving DecidableEq, Repr

/-- lineOut (10_state.md R40). -/
inductive LineOut where
  | low
  | high
  | unknown
  deriving DecidableEq, Repr

/-- The record of one line: the last direction and level the sequencer commanded (10_state.md R40). -/
structure Line where
  dir : LineDir
  out : LineOut
  deriving DecidableEq, Repr

/-- The record of the 25 configured lines (10_state.md R40). -/
structure Lines where
  addr : Vector Line 15
  data : Vector Line 8
  we : Line
  oe : Line
  deriving DecidableEq, Repr

/-- One event of the trace (00_scope.md R14, R15, R16). A level is a Bool, true for 1. -/
inductive Event where
  | dir (pin : PinId) (d : PinDir)
  | drv (pin : PinId) (level : Bool)
  | smp (pin : PinId) (level : Bool)
  | dly (us : Nat)
  | srcQ (avail : Bool)
  | srcR (v : Byte)
  | out (c : Byte)
  deriving DecidableEq, Repr

/-- The working registers of 10_state.md R48. `endAddr` is the spec's `end`; `echoing` is the model's own:
PROGRAM runs with a sink, so ECHO text may come (41_programmer.md R143). -/
structure Work where
  sink : Bool
  a : BitVec 16
  bound : BitVec 16
  endAddr : BitVec 21
  acc : BitVec 8
  p : BitVec 3
  k : BitVec 4
  j : BitVec 4
  echoing : Bool
  deriving DecidableEq, Repr

/-- What the outside world may do to the block (60_exceptions.md R179). -/
inductive Input where
  /-- A host write of a word to a numbered host register (10_state.md R38). -/
  | write (reg : Nat) (w : CmdWord)
  /-- A host read of a numbered host register (R38). -/
  | read (reg : Nat)
  /-- The host sets the SINK_AVAIL level (R47). -/
  | setSink (avail : Bool)
  /-- The host resets the block with a configuration (70_reset_and_hazards.md R190). -/
  | reset (c : PinConfig)
  /-- The platform never completes the block's next event (93_implementation_defined.md I21, I22). -/
  | stall
  deriving DecidableEq, Repr

/-- An input still to come. With `after = none` it waits until the block is idle; with `after = some k` it
falls at the event boundary after k events of the running command or reset sequence (R192), or as soon as
the block is idle if that ends first (log 4). -/
structure TimedInput where
  after : Option Nat
  act : Input
  deriving DecidableEq, Repr

/-- Why the machine stops with a fault. -/
inductive Fault where
  /-- Raised by a CMD write while STATUS.BUSY = 1: the model has no move for it (10_state.md R39, R203).
  Safe: the hardware discards the write and goes on. -/
  | cmdWriteWhileBusy
  /-- Raised by a change of SINK_AVAIL while STATUS.BUSY = 1 (70_reset_and_hazards.md R191).
  Safe: the hardware goes on with the level sampled at acceptance. -/
  | sinkChangeWhileBusy
  /-- Raised when the platform never completes an event or the source withholds an answer (I21, I22: stuck).
  Safe: no step follows. -/
  | eventNeverCompletes
  deriving DecidableEq, Repr

/-- Why the model gives no meaning. -/
inductive Refusal where
  /-- Raised by exec for an instruction that has no meaning yet. Safe: nothing is claimed of it. -/
  | notModelled (mnemonic : String)
  /-- Raised by a reset whose 25 pin ids are not pairwise distinct (10_state.md R33: refused).
  Safe: no command of that configuration has a meaning. -/
  | duplicatePinIds
  deriving DecidableEq, Repr

/-- What ended the running command or reset sequence at an event boundary. -/
inductive Cut where
  /-- A reset (70_reset_and_hazards.md R192). -/
  | reset (c : PinConfig)
  /-- A fault of the host or the platform. -/
  | fault (f : Fault)
  /-- A reset with a refused configuration. -/
  | refuse (r : Refusal)
  deriving DecidableEq, Repr

/-- The known bytes of the EEPROM address space, as (address, byte) pairs with strictly rising addresses
below 0x8000 (20_memory.md R60). An unlisted address has no known byte (R74). -/
abbrev Memory := List Host.Cell

/-- The reference EEPROM device (20_memory.md R72). -/
structure RefDevice where
  mem : Memory
  latchA : BitVec 15
  latchD : Byte
  deriving DecidableEq, Repr

/-- The byte source: its answers to the queries to come, and the bytes it has to yield (00_scope.md R15,
60_exceptions.md R178). A query uses up one answer and no byte. Where no answer is listed, it answers whether a
byte is left (log 16). -/
structure ByteSource where
  answers : List Bool
  bytes : List Byte
  deriving DecidableEq, Repr

/-- The ECHO text to come: one chunk, which may be empty, before each event of PROGRAM and before its finish
(41_programmer.md R143). Beyond the listed chunks they are free; `drawn` counts those taken (log 17). -/
structure EchoText where
  chunks : List (List Byte)
  drawn : Nat
  deriving DecidableEq, Repr

/-- The machine: the block (10_state.md), the environment it answers to (00_scope.md R8) and the inputs still
to come. -/
structure State where
  /-- The build-time parameters (00_scope.md R12). -/
  params : Params
  /-- The latched configuration (10_state.md R32). -/
  cfg : PinConfig
  /-- The Bus Mode register, also STATUS.MODE (R35, R42). -/
  mode : BusMode
  /-- STATUS.BUSY (R42, R43). -/
  busy : Bool
  /-- STATUS.LAST (R42, R45). -/
  last : StatusCode
  /-- RESULT, {VALID, BYTE} (R46). -/
  result : BitVec 9
  /-- lineDir and lineOut (R40). -/
  lines : Lines
  /-- The SINK_AVAIL input level (R47). -/
  sinkAvail : Bool
  /-- The working registers, which exist only while a command runs (R48). -/
  work : Option Work
  /-- The index of the next event of the running command or reset sequence (R31). -/
  pos : Nat
  /-- What ended the running command, if anything did; none between steps. -/
  cut : Option Cut
  /-- The event trace, newest event first (00_scope.md R9, R18). -/
  log : List Event
  /-- The inputs still to come. -/
  host : List TimedInput
  /-- What the host's register reads returned, newest first: register number and value. -/
  reads : List (Nat × BitVec 48)
  /-- The byte source (00_scope.md R15, 60_exceptions.md R178). -/
  source : ByteSource
  /-- The ECHO text to come (41_programmer.md R143). -/
  echo : EchoText
  /-- The pin bank's answers to come, before the free values begin (20_memory.md R68). -/
  samples : List Bool
  /-- Counts the free values taken. -/
  draws : Nat
  /-- The reference device answers the samples it drives (20_memory.md R73); if not, every sample is a draw. -/
  refDevice : Bool
  /-- The reference device's state (R72). -/
  dev : RefDevice
  deriving DecidableEq, Repr

/-- The parameters of the machine after reset: open settle times, and D20's decided text forms (log 7). -/
def Params.afterReset : Params where
  oeSettleUs := Config.oeSettleUs
  readSettleUs := Config.readSettleUs
  hexUpper := true
  eolSeq := [0x0A]

/-- DESIGN CHOICE (log 6): the configuration latched by the reset that State.reset follows. -/
def PinConfig.afterReset : PinConfig where
  addrPin := #v[0, 1, 2, 3, 4, 5, 6, 7, 8, 9, 10, 11, 12, 13, 14]
  dataPin := #v[15, 16, 17, 18, 19, 20, 21, 22]
  wePin := 23
  oePin := 24
  tBit := 0

/-- The line record after the reset sequence (10_state.md R49). -/
def Lines.afterReset : Lines where
  addr := Vector.replicate 15 ⟨.output, .low⟩
  data := Vector.replicate 8 ⟨.input, .unknown⟩
  we := ⟨.output, .high⟩
  oe := ⟨.output, .high⟩

/-- The machine right after the reset sequence has ended (10_state.md R49; log 5, 6, 7, 12, 14, 16, 17, 23 for
what the spec does not give). -/
def State.reset : State where
  params := Params.afterReset
  cfg := PinConfig.afterReset
  mode := .uninit
  busy := false
  last := .ok
  result := 0
  lines := Lines.afterReset
  sinkAvail := true
  work := none
  pos := 0
  cut := none
  log := []
  host := []
  reads := []
  source := { answers := [], bytes := [] }
  echo := { chunks := [], drawn := 0 }
  samples := []
  draws := 0
  refDevice := false
  dev := { mem := [], latchA := 0, latchD := 0 }

end Sys2Proof.Machine
end

