-- ==== Sys2Proof/Machine/Flags.lean ====
section
/-! DEFINITION. The STATUS and RESULT registers and the values a host read returns (10_state.md R35, R38,
R42, R46). -/

namespace Sys2Proof.Machine

open Sys2Proof

/-- The encoding of the Bus Mode in STATUS.MODE (10_state.md R35). -/
def BusMode.code : BusMode → BitVec 2
  | .uninit => 0b00
  | .read => 0b01
  | .write => 0b10

/-- The encoding of a status code in STATUS.LAST (10_state.md R42). -/
def StatusCode.code : StatusCode → BitVec 3
  | .ok => 0
  | .illegal => 1
  | .noSink => 2

/-- STATUS: bit 0 BUSY, bits 2:1 MODE, bits 5:3 LAST, bits 7:6 reserved and 0 (10_state.md R42). -/
def statusByte (s : State) : BitVec 8 :=
  (0 : BitVec 2) ++ s.last.code ++ s.mode.code ++ BitVec.ofBool s.busy

/-- RESULT with VALID = 1 and BYTE = v (10_state.md R46). -/
def validResult (v : Byte) : BitVec 9 := (1 : BitVec 1) ++ v

/-- What a host read of a numbered register returns: CMD and every number from 3 up return 0
(10_state.md R38). -/
def readRegister (reg : Nat) (s : State) : BitVec 48 :=
  match reg with
  | 1 => (statusByte s).setWidth 48
  | 2 => s.result.setWidth 48
  | _ => 0

end Sys2Proof.Machine
end

