-- ==== Sys2Proof/Machine/Operands.lean ====
section
/-! DEFINITION. What the commands compute from their operands: the bits an address and a byte put on the
lines, the loop bounds of PROGRAM and DUMP, and the hex text (20_memory.md R61, R62; 41_programmer.md R140,
R145, R149). -/

namespace Sys2Proof.Machine

open Sys2Proof

/-- The device location an Address value reaches: bit 15 is dropped (40_bus_driver.md R105). -/
def location (a : Addr) : Nat := (a &&& 0x7FFF).toNat

/-- The level of line A[k] for an address: bit k (20_memory.md R61). -/
def addrLevel (a : Addr) (k : Fin 15) : Bool := a.getLsbD k

/-- The level of line D[p] for a byte: bit 7 - p (20_memory.md R62). -/
def dataLevel (v : Byte) (p : Fin 8) : Bool := v.getLsbD (7 - p)

/-- The running value after one more sample, `((acc << 1) | s)[7:0]` (40_bus_driver.md R104). -/
def accumulate (acc : Byte) (s : Bool) : Byte := (acc <<< 1) ||| (BitVec.ofBool s).setWidth 8

/-- PROGRAM's `bound`, `min(finalAddr, 0x7FFE)` (41_programmer.md R140). -/
def programBound (finalAddr : Addr) : BitVec 16 := BitVec.ofNat 16 (min finalAddr.toNat 0x7FFE)

/-- PROGRAM's `span`: how many addresses the loop may visit (41_programmer.md R142). -/
def programSpan (startAddr finalAddr : Addr) : Nat := min finalAddr.toNat 0x7FFE + 1 - startAddr.toNat

/-- DUMP's `norm`, the row base of the start address (41_programmer.md R145, R146). -/
def dumpBase (startAddr : Addr) : BitVec 16 := startAddr &&& 0xFFF0

/-- DUMP's `end`, `norm + 16 * lineCount` without wrap: it is below 2^21 (41_programmer.md R145). -/
def dumpEnd (startAddr : Addr) (lineCount : BitVec 16) : BitVec 21 :=
  BitVec.ofNat 21 ((dumpBase startAddr).toNat + 16 * lineCount.toNat)

/-- How many bytes DUMP reads (41_programmer.md R147). -/
def dumpCount (startAddr : Addr) (lineCount : BitVec 16) : Nat :=
  min 0x7FFF ((dumpBase startAddr).toNat + 16 * lineCount.toNat) - (dumpBase startAddr).toNat

/-- The ASCII code of a hexadecimal digit (41_programmer.md R149). -/
def hexDigit (upper : Bool) (d : BitVec 4) : Byte :=
  BitVec.ofNat 8 (if d.toNat ≤ 9 then 0x30 + d.toNat else (if upper then 0x41 else 0x61) + d.toNat - 10)

/-- HEX2: the two digits of a byte, most significant first (41_programmer.md R149). -/
def hex2 (upper : Bool) (v : Byte) : List Byte :=
  [hexDigit upper (v.extractLsb' 4 4), hexDigit upper (v.extractLsb' 0 4)]

/-- HEX4: the four digits of a 16-bit value, most significant first (41_programmer.md R149). -/
def hex4 (upper : Bool) (a : BitVec 16) : List Byte :=
  [hexDigit upper (a.extractLsb' 12 4), hexDigit upper (a.extractLsb' 8 4),
    hexDigit upper (a.extractLsb' 4 4), hexDigit upper (a.extractLsb' 0 4)]

/-- `' '` is 0x20 (41_programmer.md R149). -/
def space : Byte := 0x20

/-- The text DUMP emits before the read of address a: the row label at column 0 (41_programmer.md R145). -/
def textBefore (upper : Bool) (a : BitVec 16) : List Byte :=
  if a.extractLsb' 0 4 = 0 then hex4 upper a else []

/-- The text DUMP emits after the read of address a gave v: separator, two digits, the extra space after
column 7 and the line break after column 15 (41_programmer.md R145). -/
def textAfter (upper : Bool) (eol : List Byte) (a : BitVec 16) (v : Byte) : List Byte :=
  (space :: hex2 upper v) ++
    ((if a.extractLsb' 0 4 = 7 then [space] else []) ++ (if a.extractLsb' 0 4 = 15 then eol else []))

end Sys2Proof.Machine
end

