-- ==== Sys2Proof/Machine/Ops.lean ====
section
/-! DEFINITION. The operations every command is built from: memory of the reference device, line records,
event boundaries, the event primitives (00_scope.md R14 to R17), acceptance and finish, and reset. -/

namespace Sys2Proof.Machine

open Sys2Proof

/-! ## Device memory (20_memory.md R60, R72) -/

/-- The known byte of a location, if any. -/
def Memory.read : Memory → Nat → Option Byte
  | [], _ => none
  | (b, v) :: rest, a => if b = a then some v else Memory.read rest a

/-- Store one byte, keeping the addresses strictly rising. -/
def Memory.write : Memory → Nat → Byte → Memory
  | [], a, v => [(a, v)]
  | (b, w) :: rest, a, v =>
    if a < b then (a, v) :: (b, w) :: rest
    else if a = b then (a, v) :: rest
    else (b, w) :: Memory.write rest a v

/-- The canonical form: strictly rising addresses inside 0x0000 to 0x7FFF. An unlisted location reads as
`none`, and no entry can equal that. -/
abbrev Memory.wf (m : Memory) : Prop :=
  m.Pairwise (fun x y => x.1 < y.1) ∧ ∀ c ∈ m, c.1 < 0x8000

/-- DevMem[a]: the known byte, or the location's unspecified initial byte (20_memory.md R74). -/
def deviceByte (m : Memory) (a : Nat) : Byte := (Memory.read m a).getD (Config.initialByte a)

/-! ## Lines (10_state.md R40) -/

/-- The pin id of a line in a configuration. -/
def pinOf (c : PinConfig) : LineId → PinId
  | .addr k => c.addrPin[k]
  | .data p => c.dataPin[p]
  | .we => c.wePin
  | .oe => c.oePin

/-- The record of one line. -/
def getLine (ls : Lines) : LineId → Line
  | .addr k => ls.addr[k]
  | .data p => ls.data[p]
  | .we => ls.we
  | .oe => ls.oe

/-- Replace the record of one line. -/
def putLine (ls : Lines) (l : LineId) (x : Line) : Lines :=
  match l with
  | .addr k => { ls with addr := ls.addr.set k x }
  | .data p => { ls with data := ls.data.set p x }
  | .we => { ls with we := x }
  | .oe => { ls with oe := x }

/-- lineDir after a commanded direction. -/
def dirOf : PinDir → LineDir
  | .input => .input
  | .output => .output

/-- lineOut after a driven level. -/
def outOf : Bool → LineOut
  | false => .low
  | true => .high

/-- The level a lineOut stands for; where it is UNKNOWN, the free value given. -/
def levelOf (free : Bool) : LineOut → Bool
  | .low => false
  | .high => true
  | .unknown => free

/-- `lineDir[l] <- d` (00_scope.md R14). -/
def putDir (l : LineId) (d : PinDir) (ls : Lines) : Lines := putLine ls l { getLine ls l with dir := dirOf d }

/-- `lineOut[l] <- b` (00_scope.md R14). -/
def putOut (l : LineId) (b : Bool) (ls : Lines) : Lines := putLine ls l { getLine ls l with out := outOf b }

/-- `busA`: bit k is lineOut[A[k]] (20_memory.md R72); the free value fills UNKNOWN lines. -/
def busA (free : BitVec 15) (ls : Lines) : BitVec 15 :=
  BitVec.ofFnLE fun k => levelOf (free.getLsbD k) ls.addr[k].out

/-- `busD`: bit 7 - p is lineOut[D[p]]; it is defined when every data line is OUT (20_memory.md R72), and free
otherwise. -/
def busD (free : Byte) (ls : Lines) : Byte :=
  if ∀ p : Fin 8, ls.data[p].dir = .output then
    BitVec.ofFnLE fun i => levelOf (free.getLsbD i) ls.data[i.rev].out
  else free

/-! ## The reference device (20_memory.md R72, R73) -/

/-- What the reference device does on `Drv(WE, b)`: latch on a falling edge, commit on a rising edge, nothing
where WE makes no edge (R72). The line record is the one before the drive. -/
def deviceOnWe (b : Bool) (s : State) : State :=
  match b, s.lines.we.out with
  | false, .high =>
    { s with
      dev := { s.dev with
        latchA := busA (Config.floatingAddr s.draws) s.lines
        latchD := busD (Config.floatingData s.draws) s.lines }
      draws := s.draws + 1 }
  | true, .low => { s with dev := { s.dev with mem := Memory.write s.dev.mem s.dev.latchA.toNat s.dev.latchD } }
  | _, _ => s

/-- What the reference device does on `Drv(l, b)`: it watches WE only. -/
def deviceOnDrive (l : LineId) (b : Bool) (s : State) : State :=
  match l with
  | .we => deviceOnWe b s
  | _ => s

/-- The reference device drives data line p: OE low, the line an input, WE high (20_memory.md R73). -/
def deviceDrives (p : Fin 8) (s : State) : Bool :=
  s.refDevice && s.lines.oe.out = .low && s.lines.data[p].dir = .input && s.lines.we.out = .high

/-- The level `Smp(D[p])` returns: the reference device's bit where it drives the line, else a draw
(20_memory.md R68, R73). -/
def sampleLevel (p : Fin 8) (s : State) : Bool :=
  if deviceDrives p s then
    dataLevel (deviceByte s.dev.mem (busA (Config.floatingAddr s.draws) s.lines).toNat) p
  else s.samples.headD (Config.freeSample s.draws)

/-- The environment after it has answered `Smp(D[p])`: a draw uses up one answer. -/
def afterSample (p : Fin 8) (s : State) : State :=
  if deviceDrives p s then s else { s with samples := s.samples.tail, draws := s.draws + 1 }

/-! ## Event boundaries -/

/-- The running command or reset sequence has not been cut short. -/
def live (s : State) : Bool := s.cut.isNone

/-- The input falls at the boundary before the event with index `pos` (log 4). -/
def isDue (pos : Nat) (i : TimedInput) : Bool :=
  match i.after with
  | none => false
  | some k => decide (k ≤ pos)

/-- Record a host read: it has no side effect on the block (10_state.md R43). -/
def recordRead (reg : Nat) (s : State) : State := { s with reads := (reg, readRegister reg s) :: s.reads }

/-- End the running command with what cut it short; the inputs `rest` are still to come. -/
def cutWith (c : Cut) (rest : List TimedInput) (s : State) : State := { s with cut := some c, host := rest }

/-- What a reset request does at an event boundary: it abandons the command, unless its configuration is
refused (70_reset_and_hazards.md R190, R192). -/
def resetCut (c : PinConfig) : Cut := if c.wellFormed then .reset c else .refuse .duplicatePinIds

/-- Admit the inputs that are due at this event boundary, in order (log 4). While a command runs a CMD write
and a change of SINK_AVAIL have no move (10_state.md R39; 70_reset_and_hazards.md R191); reads and ignored
writes go on (R38). DESIGN CHOICE (log 32): a stall is a fault at the boundary before the finish too. -/
def admitDue : List TimedInput → State → State
  | [], s => { s with host := [] }
  | i :: rest, s =>
    if isDue s.pos i then
      match i.act with
      | .read reg => admitDue rest (recordRead reg s)
      | .write 0 _ => cutWith (.fault .cmdWriteWhileBusy) rest s
      | .write (_ + 1) _ => admitDue rest s
      | .setSink b => if b = s.sinkAvail then admitDue rest s else cutWith (.fault .sinkChangeWhileBusy) rest s
      | .reset c => cutWith (resetCut c) rest s
      | .stall => cutWith (.fault .eventNeverCompletes) rest s
    else { s with host := i :: rest }

/-- An event boundary. -/
def boundary (s : State) : State := if live s then admitDue s.host s else s

/-- Do f at the next event boundary, unless the command is cut short there. -/
def guarded (f : State → State) (s : State) : State :=
  if live (boundary s) then f (boundary s) else boundary s

/-- Append an event to the trace (00_scope.md R18). -/
def record (e : Event) (s : State) : State := { s with log := e :: s.log, pos := s.pos + 1 }

/-- Change the working registers. -/
def setWork (f : Work → Work) (s : State) : State := { s with work := s.work.map f }

/-- The working registers of the running command. -/
def workOf (s : State) : Work :=
  s.work.getD
    { sink := s.sinkAvail, a := 0, bound := 0, endAddr := 0, acc := 0, p := 0, k := 0, j := 0, echoing := false }

/-- Emit characters, one Out event each. -/
def emitText (text : List Byte) (s : State) : State :=
  text.foldl (fun s c => guarded (record (.out c)) s) s

/-- PROGRAM with a sink is running, so ECHO text may come here (41_programmer.md R143). -/
def echoing (s : State) : Bool := live s && (workOf s).echoing

/-- The next chunk of ECHO text: a listed one, else a free one (R143; log 17). -/
def EchoText.next (e : EchoText) : List Byte :=
  match e.chunks with
  | [] => Config.freeText e.drawn
  | chunk :: _ => chunk

/-- The ECHO text after its next chunk. -/
def EchoText.rest (e : EchoText) : EchoText :=
  match e.chunks with
  | [] => { e with drawn := e.drawn + 1 }
  | _ :: chunks => { e with chunks := chunks }

/-- Append the Out events of a text to the trace. -/
def recordText (text : List Byte) (s : State) : State :=
  { s with log := (text.map Event.out).reverse ++ s.log, pos := s.pos + text.length }

/-- Emit a chunk of ECHO text: `emitText` (Laws/Block.lean, emitChunk_eq), written so that a run with no inputs
to come can be evaluated although a free chunk is not known. -/
def emitChunk (text : List Byte) (s : State) : State :=
  match s.host with
  | [] => recordText text s
  | _ :: _ => emitText text s

/-- A place where ECHO text may come: the next chunk of the environment's draw is emitted (R143; log 17). -/
def echoPoint (s : State) : State :=
  if echoing s then emitChunk s.echo.next { s with echo := s.echo.rest } else s

/-- Issue one event with its effect f: ECHO text, if any, then the boundary, then the event. -/
def issue (f : State → State) (s : State) : State := guarded f (echoPoint s)

/-! ## Event primitives (00_scope.md R14, R15, R16) -/

/-- The index registers `k` and `p` hold the line the sequencer is at (10_state.md R48; log 10). -/
def indexWork (l : LineId) (w : Work) : Work :=
  match l with
  | .addr k => { w with k := BitVec.ofNat 4 k }
  | .data p => { w with p := BitVec.ofNat 3 p }
  | .we => w
  | .oe => w

/-- A pin-bank event with no answer. -/
inductive PinOp where
  | dir (l : LineId) (d : PinDir)
  | drv (l : LineId) (b : Bool)
  | dly (us : Nat)
  deriving DecidableEq, Repr

/-- The event of an operation on the configured pins. -/
def PinOp.event (c : PinConfig) : PinOp → Event
  | .dir l d => .dir (pinOf c l) d
  | .drv l b => .drv (pinOf c l) b
  | .dly us => .dly us

/-- `PinDir(l, d)` (00_scope.md R14). -/
def pinDir (l : LineId) (d : PinDir) : State → State :=
  issue fun s => record (.dir (pinOf s.cfg l) d) (setWork (indexWork l) { s with lines := putDir l d s.lines })

/-- `PinDrive(l, b)` (00_scope.md R14); the reference device sees the drive (20_memory.md R72). -/
def pinDrive (l : LineId) (b : Bool) : State → State :=
  issue fun s =>
    record (.drv (pinOf s.cfg l) b)
      (setWork (indexWork l) { deviceOnDrive l b s with lines := putOut l b s.lines })

/-- `Delay(n)`: at least n µs (00_scope.md R14). -/
def delay (us : Nat) : State → State := issue (record (.dly us))

/-- `s <- PinSample(D[p])` followed by the accumulation of s (00_scope.md R14; 40_bus_driver.md R104). -/
def pinSample (p : Fin 8) : State → State :=
  issue fun s =>
    record (.smp (pinOf s.cfg (.data p)) (sampleLevel p s))
      (setWork (fun w => { indexWork (.data p) w with acc := accumulate w.acc (sampleLevel p s) })
        (afterSample p s))

/-- One pin-bank operation. -/
def pinOp : PinOp → State → State
  | .dir l d => pinDir l d
  | .drv l b => pinDrive l b
  | .dly us => delay us

/-- Pin-bank operations in order (20_memory.md R66). -/
def runOps (ops : List PinOp) (s : State) : State := ops.foldl (fun s op => pinOp op s) s

/-- The answer the byte source gives to `SrcAvail()` (R15): it may be false at any query, and is true only where
a byte is left to yield (60_exceptions.md R178). -/
def srcAvail (s : State) : Bool := s.source.answers.headD true && !s.source.bytes.isEmpty

/-- The byte the source yields to `SrcRead()`; read only where `SrcAvail()` answered true, so that one is left. -/
def srcNext (s : State) : Byte := s.source.bytes.headD 0

/-- `SrcAvail()`: event SrcQ. The query has no effect on the bytes to come (D40); it uses up one answer (log 16). -/
def srcQuery : State → State :=
  issue fun s =>
    record (.srcQ (srcAvail s)) { s with source := { s.source with answers := s.source.answers.tail } }

/-- `SrcRead()`: event SrcR; the source advances by one byte. -/
def srcRead : State → State :=
  issue fun s =>
    record (.srcR (srcNext s)) { s with source := { s.source with bytes := s.source.bytes.tail } }

/-! ## Acceptance, finish, raise (00_scope.md R17; 10_state.md R39) -/

/-- The working registers at acceptance: `sink` sampled, the others not yet written (10_state.md R39, R48). -/
def acceptWork (s : State) : Work where
  sink := s.sinkAvail
  a := Config.unsetRegister s.draws 0 16
  bound := Config.unsetRegister s.draws 1 16
  endAddr := Config.unsetRegister s.draws 2 21
  acc := Config.unsetRegister s.draws 3 8
  p := Config.unsetRegister s.draws 4 3
  k := Config.unsetRegister s.draws 5 4
  j := Config.unsetRegister s.draws 6 4
  echoing := false

/-- Acceptance of a command: BUSY is set and SINK_AVAIL sampled (10_state.md R39). -/
def accept (s : State) : State :=
  { s with busy := true, work := some (acceptWork s), pos := 0, cut := none, draws := s.draws + 1 }

/-- The state a command leaves when it finishes with status st and RESULT res (00_scope.md R17;
10_state.md R45, R46). -/
def finished (st : StatusCode) (res : BitVec 9) (s : State) : State :=
  { s with last := st, result := res, busy := false, work := none, pos := 0 }

/-- `finish(st)`, or `finish(OK, v)` with RESULT = {1, v}, at the boundary after the last event. -/
def finish (st : StatusCode) (res : BitVec 9) : State → State := issue (finished st res)

/-- `raise Illegal(op)`: finish(ILLEGAL), the only use of raise (00_scope.md R17; 30_encoding.md R84). -/
def raiseIllegal : State → State := finish .illegal 0

/-! ## Reset (70_reset_and_hazards.md R190, R192) -/

/-- The pin events of the reset sequence, in order (R190). -/
def resetOps : List PinOp :=
  [.dir .we .output, .drv .we true, .dir .oe .output, .drv .oe true] ++
    ((List.finRange 15).flatMap (fun k => [.dir (.addr k) .output, .drv (.addr k) false]) ++
      (List.finRange 8).map (fun p => .dir (.data p) .input))

/-- All 25 lines. -/
def allLines : List LineId :=
  (List.finRange 15).map LineId.addr ++ ((List.finRange 8).map LineId.data ++ [.we, .oe])

/-- The record of a pin id under the configuration before: a pin that was not configured is UNKNOWN
(10_state.md R40; log 18). -/
def lineOfPin (c : PinConfig) (ls : Lines) (pin : PinId) : Line :=
  match allLines.find? (fun l => pinOf c l == pin) with
  | some l => getLine ls l
  | none => ⟨.unknown, .unknown⟩

/-- The line record of a new configuration: each pin keeps the record it had (10_state.md R40), but the level of WE is
that of the WE line before, so that the sequence makes a rising edge exactly where a write pulse is open
(70_reset_and_hazards.md R190, R192 (a); log 18). -/
def carryLines (old new : PinConfig) (ls : Lines) : Lines where
  addr := new.addrPin.map (lineOfPin old ls)
  data := new.dataPin.map (lineOfPin old ls)
  we := { lineOfPin old ls new.wePin with out := ls.we.out }
  oe := lineOfPin old ls new.oePin

/-- The start of the reset sequence: the configuration is latched and BUSY is set (R190). -/
def latchConfig (c : PinConfig) (s : State) : State :=
  { s with cfg := c, lines := carryLines s.cfg c s.lines, busy := true, work := none, pos := 0, cut := none }

/-- The end of the reset sequence (R190); the data lines' lineOut is UNKNOWN (10_state.md R49). -/
def resetDone (s : State) : State :=
  { s with
    lines := { s.lines with data := s.lines.data.map fun x => { x with out := .unknown } }
    mode := .uninit
    last := .ok
    result := 0
    busy := false
    pos := 0 }

/-- RESET(c) for a configuration that is not refused (R190). -/
def resetSequence (c : PinConfig) (s : State) : State :=
  guarded resetDone (runOps resetOps (latchConfig c s))

/-- The outcome of a command or reset sequence that has ended: finished, cut by a fault or a refusal, or
abandoned for a reset, whose sequence then runs (R192) and may itself be abandoned for a later reset. Each
reset has used up one input, so `n` inputs bound the resets. -/
def conclude (n : Nat) (s : State) : Host.Outcome State Fault Refusal :=
  match s.cut with
  | none => .next s
  | some (.fault f) => .fault f
  | some (.refuse r) => .refused r
  | some (.reset c) =>
    match n with
    | 0 => .next (resetSequence c s)
    | n + 1 => conclude n (resetSequence c s)

/-- A reset by the host: refused if two pin ids are equal (10_state.md R33), else its sequence (R190). -/
def resetMachine (c : PinConfig) (s : State) : Host.Outcome State Fault Refusal :=
  if c.wellFormed then conclude s.host.length (resetSequence c s) else .refused .duplicatePinIds

/-- One command: its body from acceptance to `finish`, then the outcome. -/
def command (body : State → State) (s : State) : Host.Outcome State Fault Refusal :=
  conclude s.host.length (body (accept s))

end Sys2Proof.Machine
end

