-- ==== Sys2Proof/Machine/BusDriver.lean ====
section
/-! DEFINITION. The Bus Driver: the procedures of 40_bus_driver.md R100 to R104 and the five commands built on
them. -/

namespace Sys2Proof.Machine

open Sys2Proof

/-- `SetAddr(a)`: the 15 address lines from bit 0 up, no delay (R100). -/
def setAddrOps (a : Addr) : List PinOp := (List.finRange 15).map fun k => .drv (.addr k) (addrLevel a k)

/-- The pin events of `EnterWrite()` (R101). -/
def enterWriteOps : List PinOp :=
  (List.finRange 8).flatMap (fun p => [.dir (.data p) .output, .drv (.data p) false]) ++ [.drv .oe true]

/-- The pin events of `EnterRead()` (R102). -/
def enterReadOps (oeSettleUs : Nat) : List PinOp :=
  (List.finRange 8).map (fun p => .dir (.data p) .input) ++ [.drv .oe false, .dly oeSettleUs]

/-- The pin events of `WriteByteProc(v, a)` in mode WRITE: data lines one at a time, then the address inside
the write pulse (R103). -/
def writeByteOps (tBit : Nat) (v : Byte) (a : Addr) : List PinOp :=
  (List.finRange 8).flatMap (fun p => [.drv (.data p) (dataLevel v p), .dly tBit]) ++
    ([.drv .we true] ++ (setAddrOps a ++ [.drv .we false, .dly tBit, .drv .we true]))

/-- Write `mode` when the procedure's last event has completed (10_state.md R37). -/
def setMode (m : BusMode) (s : State) : State := if live s then { s with mode := m } else s

/-- `EnterWrite()` (R101). -/
def enterWrite (s : State) : State := setMode .write (runOps enterWriteOps s)

/-- `EnterRead()` (R102). -/
def enterRead (s : State) : State := setMode .read (runOps (enterReadOps s.params.oeSettleUs) s)

/-- `if mode != WRITE: EnterWrite()`. -/
def needWrite (s : State) : State := if s.mode = .write then s else enterWrite s

/-- `if mode != READ: EnterRead()`. -/
def needRead (s : State) : State := if s.mode = .read then s else enterRead s

/-- `WriteByteProc(v, a)` (R103). -/
def writeByteProc (v : Byte) (a : Addr) (s : State) : State :=
  runOps (writeByteOps s.cfg.tBit.toNat v a) (needWrite s)

/-- The pin events of a pass of `ReadByteProc(a)` before its sample: the address again, the settle delay
(R104). -/
def readPassOps (readSettleUs : Nat) (a : Addr) : List PinOp := setAddrOps a ++ [.dly readSettleUs]

/-- One of the eight passes of `ReadByteProc(a)` (R104). -/
def readPass (a : Addr) (s : State) (p : Fin 8) : State :=
  pinSample p (runOps (readPassOps s.params.readSettleUs a) s)

/-- `ReadByteProc(a)` (R104); the byte is in `acc`. -/
def readByteProc (a : Addr) (s : State) : State :=
  (List.finRange 8).foldl (readPass a) (setWork (fun w => { w with acc := 0 }) (needRead s))

/-- SET_ADDRESS (R110). -/
def execSetAddress (addr : Addr) (s : State) : Host.Outcome State Fault Refusal :=
  command (fun s => finish .ok 0 (runOps (setAddrOps addr) s)) s

/-- ENTER_WRITE (R115): the full sequence in every mode (R116). -/
def execEnterWrite (s : State) : Host.Outcome State Fault Refusal :=
  command (fun s => finish .ok 0 (enterWrite s)) s

/-- ENTER_READ (R120): the full sequence in every mode. -/
def execEnterRead (s : State) : Host.Outcome State Fault Refusal :=
  command (fun s => finish .ok 0 (enterRead s)) s

/-- WRITE_BYTE (R125). -/
def execWriteByte (value : Byte) (addr : Addr) (s : State) : Host.Outcome State Fault Refusal :=
  command (fun s => finish .ok 0 (writeByteProc value addr s)) s

/-- The body of READ_BYTE with a sink: RESULT is {1, v} (R130). -/
def readByteBody (addr : Addr) (s : State) : State :=
  finish .ok (validResult (workOf (readByteProc addr s)).acc) (readByteProc addr s)

/-- READ_BYTE (R130): without a sink it touches nothing and finishes NO_SINK. -/
def execReadByte (addr : Addr) (s : State) : Host.Outcome State Fault Refusal :=
  command (fun s => if (workOf s).sink then readByteBody addr s else finish .noSink 0 s) s

end Sys2Proof.Machine
end

