-- ==== Sys2Proof/Machine/Programmer.lean ====
section
/-! DEFINITION. The Programmer: PROGRAM and DUMP (41_programmer.md R140, R145). -/

namespace Sys2Proof.Machine

open Sys2Proof

/-- One turn of PROGRAM's loop after `SrcAvail()` answered true: read the byte, write it, step the address
(R140). `a + 1` never wraps: a is at most 0x7FFE here. -/
def programByte (s : State) : State :=
  setWork (fun w => { w with a := w.a + 1 }) (writeByteProc (srcNext s) (workOf s).a (srcRead s))

/-- PROGRAM's loop: the address bound first, then the source (R140, R141 (c)). The number of turns is bounded
by `span` (R142). -/
def programLoop : Nat → State → State
  | 0, s => s
  | n + 1, s =>
    if live s && decide ((workOf s).a ≤ (workOf s).bound) then
      if srcAvail s then programLoop n (programByte (srcQuery s)) else srcQuery s
    else s

/-- The working registers PROGRAM starts its loop with (R140). -/
def programStart (startAddr finalAddr : Addr) (s : State) : State :=
  setWork (fun w => { w with bound := programBound finalAddr, a := startAddr }) s

/-- With a sink PROGRAM may emit ECHO text (R143). -/
def allowEcho (s : State) : State := setWork (fun w => { w with echoing := w.sink }) s

/-- The body of PROGRAM (R140). -/
def programBody (startAddr finalAddr : Addr) (s : State) : State :=
  finish .ok 0
    (programLoop (programSpan startAddr finalAddr)
      (programStart startAddr finalAddr (needWrite (allowEcho s))))

/-- PROGRAM (R140). -/
def execProgram (startAddr finalAddr : Addr) (s : State) : Host.Outcome State Fault Refusal :=
  command (programBody startAddr finalAddr) s

/-- One turn of DUMP's loop at address a: the column, the row label at column 0, the read, then the byte's
text (R145). -/
def dumpByteAt (upper : Bool) (eol : List Byte) (a : BitVec 16) (s : State) : State :=
  let s := readByteProc a (emitText (textBefore upper a) (setWork (fun w => { w with j := a.extractLsb' 0 4 }) s))
  setWork (fun w => { w with a := w.a + 1 }) (emitText (textAfter upper eol a (workOf s).acc) s)

/-- One turn of DUMP's loop (R145). -/
def dumpByte (s : State) : State := dumpByteAt s.params.hexUpper s.params.eolSeq (workOf s).a s

/-- DUMP's loop: both limits are checked before every byte (R145). The number of turns is bounded by the read
count (R147). -/
def dumpLoop : Nat → State → State
  | 0, s => s
  | n + 1, s =>
    if live s && decide ((workOf s).a.toNat < 0x7FFF ∧ (workOf s).a.toNat < (workOf s).endAddr.toNat) then
      dumpLoop n (dumpByte s)
    else s

/-- The working registers DUMP starts its loop with (R145). -/
def dumpStart (startAddr : Addr) (lineCount : BitVec 16) (s : State) : State :=
  setWork (fun w => { w with endAddr := dumpEnd startAddr lineCount, a := dumpBase startAddr }) s

/-- The body of DUMP with a sink (R145); it leaves RESULT = 0 (R148). -/
def dumpBody (startAddr : Addr) (lineCount : BitVec 16) (s : State) : State :=
  finish .ok 0
    (dumpLoop (dumpCount startAddr lineCount) (dumpStart startAddr lineCount (needRead s)))

/-- DUMP (R145): without a sink it touches nothing and finishes NO_SINK. -/
def execDump (startAddr : Addr) (lineCount : BitVec 16) (s : State) : Host.Outcome State Fault Refusal :=
  command (fun s => if (workOf s).sink then dumpBody startAddr lineCount s else finish .noSink 0 s) s

end Sys2Proof.Machine
end

