-- ==== Sys2Proof/Machine/Dispatch.lean ====
section
/-! DEFINITION. One arm per constructor of Instr (30_encoding.md R86). -/

namespace Sys2Proof.Machine

open Sys2Proof

/-- The meaning of an accepted command. -/
def exec (i : Instr) (s : State) : Host.Outcome State Fault Refusal :=
  match i with
  | .setAddress addr => Sys2Proof.Machine.execSetAddress addr s
  | .enterWrite => Sys2Proof.Machine.execEnterWrite s
  | .enterRead => Sys2Proof.Machine.execEnterRead s
  | .writeByte value addr => Sys2Proof.Machine.execWriteByte value addr s
  | .readByte addr => Sys2Proof.Machine.execReadByte addr s
  | .program startAddr finalAddr => Sys2Proof.Machine.execProgram startAddr finalAddr s
  | .dump startAddr lineCount => Sys2Proof.Machine.execDump startAddr lineCount s

end Sys2Proof.Machine
end

