-- ==== Sys2Proof/Machine/HostPort.lean ====
section
/-! DEFINITION. What an input does to the idle block (60_exceptions.md R179), and how a command word is issued
(30_encoding.md R86). -/

namespace Sys2Proof.Machine

open Sys2Proof

/-- An accepted word with a reserved opcode: no event, finish(ILLEGAL) (30_encoding.md R84). -/
def execReserved (s : State) : Host.Outcome State Fault Refusal := command raiseIllegal s

/-- Decode and dispatch one accepted command word (30_encoding.md R86). -/
def issueWord (w : CmdWord) (s : State) : Host.Outcome State Fault Refusal :=
  match decode w with
  | .ok i => exec i s
  | .error _ => execReserved s

/-- One input to the block. A CMD write or a change of SINK_AVAIL while BUSY is a host fault (10_state.md R39;
70_reset_and_hazards.md R191); a write to any other register is ignored (R38); a platform that stops answering
stops nothing while no event is issued (I21). -/
def admitInput (i : Input) (s : State) : Host.Outcome State Fault Refusal :=
  match i with
  | .write 0 w => if s.busy then .fault .cmdWriteWhileBusy else issueWord w s
  | .write (_ + 1) _ => .next s
  | .read reg => .next (recordRead reg s)
  | .setSink b => if s.busy && b != s.sinkAvail then .fault .sinkChangeWhileBusy else .next { s with sinkAvail := b }
  | .reset c => resetMachine c s
  | .stall => .next s

/-- The next input, if any; with none the block stays as it is: "All state survives idleness"
(60_exceptions.md R182; log 2). -/
def admitNext (s : State) : Host.Outcome State Fault Refusal :=
  match s.host with
  | [] => .next s
  | i :: rest => admitInput i.act { s with host := rest }

/-- The host's next move is a write of word w to CMD (10_state.md R39). -/
def offerWord (w : CmdWord) (s : State) : State :=
  { s with host := { after := none, act := .write 0 w } :: s.host }

end Sys2Proof.Machine
end

