-- ==== Sys2Proof/Machine/Step.lean ====
section
/-! DEFINITION. One step: one input to the block, a command running from acceptance to its end (log 1). -/

namespace Sys2Proof.Machine

open Sys2Proof

/-- One step of the machine. -/
def step (s : State) : Host.Outcome State Fault Refusal := admitNext s

/-- s with the instruction word of the opcode table as the next command the host writes to CMD (log 3). -/
def State.withFetchWord (s : State) (nbits w : Nat) : State := offerWord (tableWord nbits w) s

end Sys2Proof.Machine
end

