-- ==== Sys2Proof/Safety.lean ====
section
/-! DEFINITION. The terms claims use: traces and the event lists the rules give, a run that no input disturbs,
and the invariant of the bus. -/

namespace Sys2Proof.Safety

open Sys2Proof Sys2Proof.Machine

/-! ## Traces -/

/-- The event trace, oldest event first (00_scope.md R18). -/
def traceOf (s : State) : List Event := s.log.reverse

/-- The character of an Out event. -/
def outChar : Event → Option Byte
  | .out c => some c
  | _ => none

/-- The text the sink has received (00_scope.md R16). -/
def textOf (s : State) : List Byte := (traceOf s).filterMap outChar

/-- An event of the text sink. -/
def isText (e : Event) : Bool := (outChar e).isSome

/-- The trace without the sink's text. -/
def nonTextTrace (s : State) : List Event := (traceOf s).filter fun e => !isText e

/-- An event of the pin bank. -/
def isPin : Event → Bool
  | .dir _ _ => true
  | .drv _ _ => true
  | .smp _ _ => true
  | .dly _ => true
  | .srcQ _ => false
  | .srcR _ => false
  | .out _ => false

/-- The pin trace: the pin-bank events alone (30_encoding.md R89). -/
def pinTrace (s : State) : List Event := (traceOf s).filter isPin

/-- An event with the environment's answer left out. -/
def unanswered : Event → Event
  | .smp pin _ => .smp pin false
  | e => e

/-- The delay an event asks for, in µs (70_reset_and_hazards.md R210). -/
def delayOf : Event → Nat
  | .dly us => us
  | _ => 0

/-- The sum of the delays of a list of events (R210). -/
def delaySum (es : List Event) : Nat := (es.map delayOf).sum

/-! ## The event lists of the rules -/

/-- The 15 events of SetAddr(a) (40_bus_driver.md R100). -/
def setAddrTrace (c : PinConfig) (a : Addr) : List Event :=
  (List.finRange 15).map fun k : Fin 15 => .drv c.addrPin[k] (a.getLsbD k)

/-- The 17 events of EnterWrite (R101). -/
def enterWriteTrace (c : PinConfig) : List Event :=
  (List.finRange 8).flatMap (fun p : Fin 8 => [.dir c.dataPin[p] .output, .drv c.dataPin[p] false]) ++ [.drv c.oePin true]

/-- The 10 events of EnterRead (R102). -/
def enterReadTrace (oeSettleUs : Nat) (c : PinConfig) : List Event :=
  (List.finRange 8).map (fun p : Fin 8 => .dir c.dataPin[p] .input) ++ [.drv c.oePin false, .dly oeSettleUs]

/-- The 35 events of WriteByteProc(v, a) in mode WRITE (R103). -/
def writeByteTrace (c : PinConfig) (v : Byte) (a : Addr) : List Event :=
  (List.finRange 8).flatMap (fun p : Fin 8 => [.drv c.dataPin[p] (v.getLsbD (7 - p)), .dly c.tBit.toNat]) ++
    [.drv c.wePin true] ++ setAddrTrace c a ++ [.drv c.wePin false, .dly c.tBit.toNat, .drv c.wePin true]

/-- The 136 events of ReadByteProc(a) in mode READ whose samples spell v, most significant bit first (R104). -/
def readByteTrace (readSettleUs : Nat) (c : PinConfig) (a : Addr) (v : Byte) : List Event :=
  (List.finRange 8).flatMap fun p : Fin 8 =>
    setAddrTrace c a ++ [.dly readSettleUs, .smp c.dataPin[p] (v.getLsbD (7 - p))]

/-- The 42 events of the reset sequence (70_reset_and_hazards.md R190). -/
def resetTrace (c : PinConfig) : List Event :=
  [.dir c.wePin .output, .drv c.wePin true, .dir c.oePin .output, .drv c.oePin true] ++
    (List.finRange 15).flatMap (fun k : Fin 15 => [.dir c.addrPin[k] .output, .drv c.addrPin[k] false]) ++
    (List.finRange 8).map (fun p : Fin 8 => .dir c.dataPin[p] .input)

/-- EnterWrite's events where the mode is not WRITE yet (R103, R140). -/
def needWriteTrace (s : State) : List Event := if s.mode = .write then [] else enterWriteTrace s.cfg

/-- EnterRead's events where the mode is not READ yet (R104, R145). -/
def needReadTrace (s : State) : List Event :=
  if s.mode = .read then [] else enterReadTrace s.params.oeSettleUs s.cfg

/-- The bytes a source with these answers and bytes to come yields before its first "false" (41_programmer.md
R142). -/
def bytesBefore : List Bool → List Byte → List Byte
  | _, [] => []
  | [], v :: vs => v :: vs
  | true :: answers, v :: vs => v :: bytesBefore answers vs
  | false :: _, _ => []

/-- The bytes the source yields before its first "false" (R142). -/
def sourceBytes (b : ByteSource) : List Byte := bytesBefore b.answers b.bytes

/-- PROGRAM's events for the writes of bytes vs from address a up (41_programmer.md R140). -/
def programTrace (c : PinConfig) : Nat → List Byte → List Event
  | _, [] => []
  | a, v :: vs =>
    [.srcQ true, .srcR v] ++ writeByteTrace c v (BitVec.ofNat 16 a) ++ programTrace c (a + 1) vs

/-- DUMP's events for reads that give the bytes vs from address a up (41_programmer.md R145). -/
def dumpTrace (q : Params) (c : PinConfig) : Nat → List Byte → List Event
  | _, [] => []
  | a, v :: vs =>
    (textBefore q.hexUpper (BitVec.ofNat 16 a)).map .out ++
      readByteTrace q.readSettleUs c (BitVec.ofNat 16 a) v ++
      (textAfter q.hexUpper q.eolSeq (BitVec.ofNat 16 a) v).map .out ++
      dumpTrace q c (a + 1) vs

/-- The bits of the command word that a command reads: OP and the fields of the opcode map (30_encoding.md R83,
R85). -/
def readMask : Instr → CmdWord
  | .setAddress _ => 0x0000FFFF00FF
  | .enterWrite => 0x0000000000FF
  | .enterRead => 0x0000000000FF
  | .writeByte _ _ => 0x0000FFFFFFFF
  | .readByte _ => 0x0000FFFF00FF
  | .program _ _ => 0xFFFFFFFF00FF
  | .dump _ _ => 0xFFFFFFFF00FF

/-! ## Runs -/

/-- No input falls inside the next command: the first input still to come, if any, waits for the idle block. -/
def quiet (s : State) : Bool :=
  match s.host with
  | [] => true
  | i :: _ => i.after.isNone

/-- Commands one after the other, each from the idle block to its finish. -/
def execAll : List Instr → State → Host.Outcome State Fault Refusal
  | [], s => .next s
  | i :: rest, s =>
    match exec i s with
    | .next t => execAll rest t
    | .fault f => .fault f
    | .refused r => .refused r

/-- Between s and t no reset was used up: none is among the inputs of s that are not still to come in t. -/
def noResetUsed (s t : State) : Prop := ∃ used, s.host = used ++ t.host ∧ ∀ i ∈ used, ∀ c, i.act ≠ .reset c

/-- Between s and t a reset was used up. -/
def resetUsed (s t : State) : Prop := ∃ used, s.host = used ++ t.host ∧ ∃ i ∈ used, ∃ c, i.act = .reset c

/-- The mode a command leaves when it finishes: the table of 10_state.md R36. -/
def modeAfter (i : Instr) (s : State) : BusMode :=
  match i with
  | .setAddress _ => s.mode
  | .enterWrite => .write
  | .enterRead => .read
  | .writeByte _ _ => .write
  | .readByte _ => if s.sinkAvail then .read else s.mode
  | .program _ _ => .write
  | .dump _ _ => if s.sinkAvail then .read else s.mode

/-- The mode a step leaves where no reset falls in it (10_state.md R36). -/
def modeAfterStep (s : State) : BusMode :=
  match s.host with
  | ⟨_, .write 0 w⟩ :: _ =>
    match decode w with
    | .ok i => modeAfter i s
    | .error _ => s.mode
  | _ => s.mode

/-- A line with its level driven to b and its direction as it was (00_scope.md R14). -/
def driven (x : Line) (b : Bool) : Line := { x with out := if b then .high else .low }

/-- What every command that runs to its `finish` leaves alone: the parameters, the configuration, the host's
side, and the choice of the device. -/
structure Kept (s t : State) : Prop where
  params : t.params = s.params
  cfg : t.cfg = s.cfg
  sinkAvail : t.sinkAvail = s.sinkAvail
  host : t.host = s.host
  reads : t.reads = s.reads
  refDevice : t.refDevice = s.refDevice

/-- The block after `finish` with status st and RESULT res (00_scope.md R17). -/
structure FinishedWith (st : StatusCode) (res : BitVec 9) (t : State) : Prop where
  last : t.last = st
  result : t.result = res
  busy : t.busy = false
  work : t.work = none
  cut : t.cut = none

/-- The block right after the reset sequence of configuration c (10_state.md R49). -/
structure AfterReset (c : PinConfig) (t : State) : Prop where
  cfg : t.cfg = c
  mode : t.mode = .uninit
  busy : t.busy = false
  last : t.last = .ok
  result : t.result = 0
  we : t.lines.we = ⟨.output, .high⟩
  oe : t.lines.oe = ⟨.output, .high⟩
  addr : ∀ k : Fin 15, t.lines.addr[k] = ⟨.output, .low⟩
  data : ∀ p : Fin 8, t.lines.data[p] = ⟨.input, .unknown⟩
  work : t.work = none
  cut : t.cut = none

/-- A line whose level is commanded: 0 or 1 (10_state.md R40). -/
def known (x : Line) : Prop := x.out ≠ .unknown

/-- The invariant of the block between commands: WE is left at 1, OE at the level of the last mode procedure,
the data lines face the way of the mode (10_state.md R36, R41, R49), RESULT presents no stale byte (R46), and
the device's memory keeps its canonical form. -/
structure BusInv (s : State) : Prop where
  pins : s.cfg.wellFormed = true
  idle : s.busy = false ∧ s.work = none ∧ s.cut = none ∧ s.pos = 0
  we : s.lines.we = ⟨.output, .high⟩
  oeDir : s.lines.oe.dir = .output
  addr : ∀ k : Fin 15, s.lines.addr[k].dir = .output ∧ known s.lines.addr[k]
  uninit : s.mode = .uninit → s.lines.oe.out = .high ∧ ∀ p : Fin 8, s.lines.data[p].dir = .input
  read : s.mode = .read → s.lines.oe.out = .low ∧ ∀ p : Fin 8, s.lines.data[p].dir = .input
  write : s.mode = .write → s.lines.oe.out = .high ∧
    ∀ p : Fin 8, s.lines.data[p].dir = .output ∧ known s.lines.data[p]
  result : s.result.getLsbD 8 = false → s.result = 0
  valid : s.result.getLsbD 8 = true → s.last = .ok
  mem : Memory.wf s.dev.mem

end Sys2Proof.Safety
end

