-- ==== Sys2Proof/Certificates/Slice0/Obligations.lean ====
section
/-! DEFINITION. The statements for the provers. -/

open Sys2Proof Sys2Proof.Machine Sys2Proof.Safety

/-! ## Encoding -/

/-- 30_encoding.md R81, R82: decoding the encoded command gives it back, at every value of every operand. -/
def Obligations.DecodeOfEncodeIsTheCommand : Prop :=
  ∀ i : Instr, i.wellFormed = true → decode (encode i) = .ok i

/-- 30_encoding.md R85: a word decodes to a command exactly when the bits that command reads are those of its
encoding; any value in the other fields selects the same command. -/
def Obligations.WordDecodesByTheBitsRead : Prop :=
  ∀ (w : CmdWord) (i : Instr), decode w = .ok i ↔ w &&& readMask i = encode i

/-- 30_encoding.md R84: OP = 0x00 and 0x08 to 0xFF are the reserved opcodes, rejected by name. -/
def Obligations.ReservedOpcodesAreRejected : Prop :=
  ∀ w : CmdWord, decode w = .error (.reservedOpcode (opField w)) ↔ opField w = 0 ∨ 0x08 ≤ (opField w).toNat

/-- 30_encoding.md R81, R83: words written out from the field table decode to their commands
(95_test_vectors.md V8). -/
def Obligations.WrittenWordsDecode : Prop :=
  decode 0xFFFFFFFFFF01 = .ok (.setAddress 0xFFFF) ∧ decode 0xABCD00000002 = .ok .enterWrite ∧
    decode 0x123456789A03 = .ok .enterRead ∧ decode 0x123456789A04 = .ok (.writeByte 0x9A 0x5678) ∧
    decode 0x000080050005 = .ok (.readByte 0x8005) ∧ decode 0x000300000006 = .ok (.program 0x0000 0x0003) ∧
    decode 0x000100070007 = .ok (.dump 0x0007 1)

/-! ## Steps and the host registers -/

/-- 30_encoding.md R86, 10_state.md R39: a command word written to CMD while BUSY = 0 runs the command it
decodes to; the input is used up. -/
def Obligations.StepRunsTheDecodedCommand : Prop :=
  (∀ (s : State) (i : Instr) (w : CmdWord) (after : Option Nat) (rest : List TimedInput),
    s.busy = false → s.host = ⟨after, .write 0 w⟩ :: rest → decode w = .ok i →
      step s = exec i { s with host := rest }) ∧
  ∀ (s : State) (i : Instr) (n : Nat), s.busy = false → decodeTableWord 48 n = some i →
    step (s.withFetchWord 48 n) = exec i s

/-- 30_encoding.md R84, 60_exceptions.md R174: a word with a reserved OP issues no event and changes nothing but
STATUS and RESULT: LAST = ILLEGAL, RESULT = 0. (`draws` is the model's own counter of free values, log 31.) -/
def Obligations.ReservedOpcodeFinishesIllegal : Prop :=
  ∀ (s : State) (w : CmdWord) (after : Option Nat) (rest : List TimedInput),
    s.busy = false → s.host = ⟨after, .write 0 w⟩ :: rest → quiet { s with host := rest } = true →
    (opField w = 0 ∨ 0x08 ≤ (opField w).toNat) →
      ∃ t, step s = .next t ∧ FinishedWith .illegal 0 t ∧ { t with draws := s.draws } = { s with
        host := rest, last := .illegal, result := 0, busy := false, work := none, pos := 0, cut := none }

/-- 60_exceptions.md R182: an idle block with no input keeps all its state. -/
def Obligations.IdleBlockKeepsItsState : Prop := ∀ s : State, s.host = [] → step s = .next s

/-- 10_state.md R38, R42, R46: what a host read returns, with no side effect: STATUS is BUSY + 2·MODE + 8·LAST
with bits 7:6 zero, RESULT is its 9 bits, CMD and every number from 3 up read as 0; a host write to STATUS, RESULT
or any number from 3 up changes no state. -/
def Obligations.HostRegistersReadAndIgnoreWrites : Prop :=
  ∀ (s : State) (reg : Nat) (after : Option Nat) (rest : List TimedInput),
    (s.host = ⟨after, .read reg⟩ :: rest →
      ∃ v : BitVec 48, step s = .next { s with host := rest, reads := (reg, v) :: s.reads } ∧
        (reg = 1 → v.toNat = (if s.busy then 1 else 0) +
          2 * (match s.mode with | .uninit => 0 | .read => 1 | .write => 2) +
          8 * (match s.last with | .ok => 0 | .illegal => 1 | .noSink => 2)) ∧
        (reg = 2 → v.toNat = s.result.toNat) ∧ (reg ≠ 1 → reg ≠ 2 → v = 0)) ∧
    ∀ w : CmdWord, reg ≠ 0 → s.host = ⟨after, .write reg w⟩ :: rest → step s = .next { s with host := rest }

/-- 10_state.md R39, 70_reset_and_hazards.md R203: a CMD write while BUSY = 1 is a host fault: as the next input
of a busy block (a state between steps that no run reaches, log 24), and at index k of a command (the model's timed
input, log 4); it has not fallen only where the command finishes with fewer than k events. -/
def Obligations.CmdWriteWhileBusyIsAHostFault : Prop :=
  (∀ (s : State) (w : CmdWord) (after : Option Nat) (rest : List TimedInput),
    s.busy = true → s.host = ⟨after, .write 0 w⟩ :: rest → step s = .fault .cmdWriteWhileBusy) ∧
  ∀ (i : Instr) (s : State) (k : Nat) (w : CmdWord) (rest : List TimedInput),
    s.host = ⟨some k, .write 0 w⟩ :: rest →
      exec i s = .fault .cmdWriteWhileBusy ∨
        ∃ t, exec i s = .next t ∧ t.busy = false ∧ t.host = s.host ∧ t.log.length < s.log.length + k

/-- 70_reset_and_hazards.md R191: a change of SINK_AVAIL while BUSY = 1 is a host fault: as the next input of a
busy block (a state between steps that no run reaches, log 24), and at index k of a command (the model's timed input,
log 4); it has not fallen only where the command finishes with fewer than k events. -/
def Obligations.SinkChangeWhileBusyIsAHostFault : Prop :=
  (∀ (s : State) (b : Bool) (after : Option Nat) (rest : List TimedInput),
    s.busy = true → b ≠ s.sinkAvail → s.host = ⟨after, .setSink b⟩ :: rest →
      step s = .fault .sinkChangeWhileBusy) ∧
  ∀ (i : Instr) (s : State) (k : Nat) (b : Bool) (rest : List TimedInput),
    b ≠ s.sinkAvail → s.host = ⟨some k, .setSink b⟩ :: rest →
      exec i s = .fault .sinkChangeWhileBusy ∨
        ∃ t, exec i s = .next t ∧ t.busy = false ∧ t.host = s.host ∧ t.log.length < s.log.length + k

/-- 60_exceptions.md R179: between commands the host sets SINK_AVAIL, and nothing else changes. -/
def Obligations.HostSetsTheSinkBetweenCommands : Prop :=
  ∀ (s : State) (b : Bool) (after : Option Nat) (rest : List TimedInput),
    s.busy = false → s.host = ⟨after, .setSink b⟩ :: rest →
      step s = .next { s with host := rest, sinkAvail := b }

/-- 10_state.md R43: every host read of STATUS that falls inside a command, or inside the sequence of a reset that
abandons it, returns BUSY = 1. -/
def Obligations.StatusReadsInsideACommandShowBusy : Prop :=
  ∀ (i : Instr) (s t : State), exec i s = .next t →
    ∃ new, t.reads = new ++ s.reads ∧ ∀ r ∈ new, r.1 = 1 → r.2.getLsbD 0 = true

/-! ## Reset -/

/-- 10_state.md R33, 70_reset_and_hazards.md R190: a configuration with two equal pin ids is refused, between
commands and at index k of a command (the model's timed input, log 4); the reset has not fallen only where the
command finishes with fewer than k events. -/
def Obligations.DuplicatePinIdsAreRefused : Prop :=
  (∀ (s : State) (c : PinConfig) (after : Option Nat) (rest : List TimedInput),
    ¬ c.pins.Nodup → s.host = ⟨after, .reset c⟩ :: rest → step s = .refused .duplicatePinIds) ∧
  ∀ (i : Instr) (s : State) (k : Nat) (c : PinConfig) (rest : List TimedInput),
    ¬ c.pins.Nodup → s.host = ⟨some k, .reset c⟩ :: rest →
      exec i s = .refused .duplicatePinIds ∨
        ∃ t, exec i s = .next t ∧ t.busy = false ∧ t.host = s.host ∧ t.log.length < s.log.length + k

/-- 70_reset_and_hazards.md R190, 10_state.md R49: at any time a reset issues its 42 events and leaves the table of
R49, or refuses a configuration with two equal pin ids. The parameters, the sink level, the source and the samples to
come are not its business, and with WE left at 1 it does not write the device, whatever pins it configures. -/
def Obligations.ResetRunsItsSequence : Prop :=
  ∀ (s : State) (c : PinConfig) (after : Option Nat) (rest : List TimedInput),
    s.host = ⟨after, .reset c⟩ :: rest → quiet { s with host := rest } = true →
      (¬ c.pins.Nodup → step s = .refused .duplicatePinIds) ∧
      (c.pins.Nodup → ∃ t, step s = .next t ∧ AfterReset c t ∧ traceOf t = traceOf s ++ resetTrace c ∧
        (resetTrace c).length = 42 ∧ t.host = rest ∧ t.reads = s.reads ∧ t.params = s.params ∧
        t.sinkAvail = s.sinkAvail ∧ t.source = s.source ∧ t.samples = s.samples ∧
        (s.lines.we.out = .high → t.dev = s.dev))

/-- 10_state.md R49: the state after reset is the table of R49. -/
def Obligations.ResetStateIsTheTable : Prop := AfterReset State.reset.cfg State.reset

/-- 70_reset_and_hazards.md R192: a reset at index k of a command (the model's timed input, log 4) abandons it after k
events: these are the first events of the command's run without the reset, the command does not finish, the reset's
events follow, and the block is as after the reset sequence. ECHO text is left out of the comparison of the two runs.
The reset has not fallen only where the command finishes with fewer than k events, and then as without it. -/
def Obligations.ResetInsideACommandAbandonsIt : Prop :=
  ∀ (i : Instr) (s : State) (k : Nat) (c : PinConfig) (rest : List TimedInput),
    c.pins.Nodup → s.host = ⟨some k, .reset c⟩ :: rest → quiet { s with host := rest } = true →
      ∃ t u, exec i s = .next t ∧ exec i { s with host := [] } = .next u ∧
        (t.host = rest ∧ AfterReset c t ∧
            (∃ es, traceOf t = traceOf s ++ es ++ resetTrace c ∧ es.length = k ∧
              nonTextTrace s ++ es.filter (fun e => !isText e) <+: nonTextTrace u ∧
              ((s.sinkAvail = false ∨ ∀ a f, i ≠ .program a f) → traceOf s ++ es <+: traceOf u)) ∨
          t.host = s.host ∧ t.cfg = s.cfg ∧ t.busy = false ∧ t.log.length < s.log.length + k ∧
            nonTextTrace t = nonTextTrace u)

/-- 70_reset_and_hazards.md R192 (a), (b): a reset at index k of WRITE_BYTE (the model's timed input, log 4), which
has 35 events in mode WRITE and 52 in the others. Before `Drv(WE,0)`, the 33rd or 50th event, the byte is not
written; from there on the reset's own rising edge, or the command's, commits it. No other location changes. -/
def Obligations.ResetInsideWriteByteCommitsAfterTheFallingEdge : Prop :=
  ∀ (s : State) (v : Byte) (a : Addr) (k : Nat) (c : PinConfig) (rest : List TimedInput),
    BusInv s → c.pins.Nodup → s.host = ⟨some k, .reset c⟩ :: rest →
    quiet { s with host := rest } = true →
      ∃ t, exec (.writeByte v a) s = .next t ∧
        (if k ≤ (if s.mode = .write then 35 else 52) then t.host = rest ∧ AfterReset c t
          else t.host = s.host ∧ t.cfg = s.cfg) ∧
        ∀ x, Memory.read t.dev.mem x =
          if (if s.mode = .write then 33 else 50) ≤ k ∧ x = location a then some v else Memory.read s.dev.mem x

/-- 70_reset_and_hazards.md R192 (c): a reset at index k of PROGRAM (the model's timed input, log 4) that falls after
n of PROGRAM's own events and k - n of ECHO text. After EnterWrite's events each byte has 37: the second reads it from
the source, and the 35th is the falling edge of WE. Every byte whose falling edge came is in the device, no other
location has changed, and the source is advanced by the bytes read. The reset has not fallen only where PROGRAM
finishes with fewer than k events. -/
def Obligations.ResetInsideProgramKeepsWhatItWrote : Prop :=
  ∀ (s : State) (startAddr finalAddr : Addr) (span : Nat) (vs : List Byte) (full : List Event) (k : Nat)
    (c : PinConfig) (rest : List TimedInput),
    BusInv s → c.pins.Nodup → s.host = ⟨some k, .reset c⟩ :: rest →
    quiet { s with host := rest } = true → span = min finalAddr.toNat 0x7FFE + 1 - startAddr.toNat →
    vs = (sourceBytes s.source).take span →
    full = needWriteTrace s ++ (programTrace s.cfg startAddr.toNat vs ++
      if vs.length < span then [.srcQ false] else []) →
      ∃ t, exec (.program startAddr finalAddr) s = .next t ∧
        (t.host = s.host ∧ t.cfg = s.cfg ∧ t.busy = false ∧ t.log.length < s.log.length + k ∨
          t.host = rest ∧ AfterReset c t ∧ ∃ n, n ≤ k ∧ n ≤ full.length ∧ (s.sinkAvail = false → n = k) ∧
            nonTextTrace t = nonTextTrace s ++ full.take n ++ resetTrace c ∧
            t.source.bytes = s.source.bytes.drop ((n - (needWriteTrace s).length + 35) / 37) ∧
            ∀ x, Memory.read t.dev.mem x =
              if startAddr.toNat ≤ x then
                match (vs.take ((n - (needWriteTrace s).length + 2) / 37))[x - startAddr.toNat]? with
                | some v => some v
                | none => Memory.read s.dev.mem x
              else Memory.read s.dev.mem x)

/-! ## Bus Driver commands -/

/-- 40_bus_driver.md R100, R110: SET_ADDRESS drives line A[k] to bit k of its operand, k = 0 to 14 in order, and
does nothing else: no mode, no other line, no source, no device. -/
def Obligations.SetAddressDrivesTheAddressLines : Prop :=
  ∀ (s : State) (a : Addr), quiet s = true →
    ∃ t, exec (.setAddress a) s = .next t ∧ FinishedWith .ok 0 t ∧ Kept s t ∧
      traceOf t = traceOf s ++ setAddrTrace s.cfg a ∧
      (∀ k : Fin 15, t.lines.addr[k] = driven s.lines.addr[k] (a.getLsbD k)) ∧
      t.lines.data = s.lines.data ∧ t.lines.we = s.lines.we ∧ t.lines.oe = s.lines.oe ∧ t.mode = s.mode ∧
      t.source = s.source ∧ t.samples = s.samples ∧ t.dev = s.dev

/-- 40_bus_driver.md R105: the procedures SetAddr, WriteByteProc and ReadByteProc, and with them the commands
SET_ADDRESS, WRITE_BYTE and READ_BYTE, behave on a exactly as on `a & 0x7FFF`, whatever inputs fall around their
events. (PROGRAM and DUMP bound their addresses instead: 41_programmer.md R144 (b), R152 (b).) -/
def Obligations.AddressesAreTruncated : Prop :=
  ∀ (s : State) (a : Addr) (v : Byte),
    runOps (setAddrOps a) s = runOps (setAddrOps (a &&& 0x7FFF)) s ∧
    writeByteProc v a s = writeByteProc v (a &&& 0x7FFF) s ∧ readByteProc a s = readByteProc (a &&& 0x7FFF) s ∧
    exec (.setAddress a) s = exec (.setAddress (a &&& 0x7FFF)) s ∧
    exec (.writeByte v a) s = exec (.writeByte v (a &&& 0x7FFF)) s ∧
    exec (.readByte a) s = exec (.readByte (a &&& 0x7FFF)) s

/-- 40_bus_driver.md R101, R115: ENTER_WRITE turns the data lines into driven-low outputs, deasserts OE and leaves
mode WRITE; WE, the address lines, the source and the device are untouched. -/
def Obligations.EnterWriteConfiguresTheBus : Prop :=
  ∀ s : State, quiet s = true →
    ∃ t, exec .enterWrite s = .next t ∧ FinishedWith .ok 0 t ∧ Kept s t ∧
      traceOf t = traceOf s ++ enterWriteTrace s.cfg ∧ t.mode = .write ∧
      (∀ p : Fin 8, t.lines.data[p] = ⟨.output, .low⟩) ∧ t.lines.oe = driven s.lines.oe true ∧
      t.lines.we = s.lines.we ∧ t.lines.addr = s.lines.addr ∧
      t.source = s.source ∧ t.samples = s.samples ∧ t.dev = s.dev

/-- 40_bus_driver.md R116: two ENTER_WRITE in a row issue the 17 events each and leave the state that one leaves,
with the data lines driven low whatever was written before. -/
def Obligations.EnterWriteTwiceIsEnterWriteOnce : Prop :=
  ∀ s : State, quiet s = true →
    ∃ t u, exec .enterWrite s = .next t ∧ exec .enterWrite t = .next u ∧ t.mode = .write ∧
      FinishedWith .ok 0 t ∧ FinishedWith .ok 0 u ∧ Kept t u ∧
      u.lines = t.lines ∧ (∀ p : Fin 8, t.lines.data[p] = ⟨.output, .low⟩) ∧ u.mode = t.mode ∧ u.dev = t.dev ∧
      u.source = t.source ∧ u.samples = t.samples ∧
      traceOf u = traceOf s ++ enterWriteTrace s.cfg ++ enterWriteTrace s.cfg ∧
      (enterWriteTrace s.cfg).length = 17

/-- 40_bus_driver.md R102, R120: ENTER_READ releases the data lines, asserts OE, waits OE_SETTLE_US and leaves mode
READ; the data lines keep their output latch, WE and the address lines are untouched. -/
def Obligations.EnterReadConfiguresTheBus : Prop :=
  ∀ s : State, quiet s = true →
    ∃ t, exec .enterRead s = .next t ∧ FinishedWith .ok 0 t ∧ Kept s t ∧
      traceOf t = traceOf s ++ enterReadTrace s.params.oeSettleUs s.cfg ∧ t.mode = .read ∧
      (∀ p : Fin 8, t.lines.data[p] = ⟨.input, s.lines.data[p].out⟩) ∧ t.lines.oe = driven s.lines.oe false ∧
      t.lines.we = s.lines.we ∧ t.lines.addr = s.lines.addr ∧
      t.source = s.source ∧ t.samples = s.samples ∧ t.dev = s.dev

/-- 40_bus_driver.md R103, R125: WRITE_BYTE's events and the lines it leaves, from every mode; where the bus was in
order, the data lines are outputs and OE and WE are at 1. -/
def Obligations.WriteByteDrivesByteAndAddress : Prop :=
  ∀ (s : State) (v : Byte) (a : Addr), quiet s = true →
    ∃ t, exec (.writeByte v a) s = .next t ∧ FinishedWith .ok 0 t ∧ Kept s t ∧
      traceOf t = traceOf s ++ (needWriteTrace s ++ writeByteTrace s.cfg v a) ∧ t.mode = .write ∧
      (∀ k : Fin 15, t.lines.addr[k] = driven s.lines.addr[k] (a.getLsbD k)) ∧
      (∀ p : Fin 8, t.lines.data[p].out = (if v.getLsbD (7 - p) then .high else .low) ∧
        t.lines.data[p].dir = if s.mode = .write then s.lines.data[p].dir else .output) ∧
      t.lines.we = driven s.lines.we true ∧
      t.lines.oe = (if s.mode = .write then s.lines.oe else driven s.lines.oe true) ∧
      t.source = s.source ∧ t.samples = s.samples ∧
      (BusInv s → t.lines.oe = ⟨.output, .high⟩ ∧ t.lines.we = ⟨.output, .high⟩ ∧
        ∀ p : Fin 8, t.lines.data[p].dir = .output)

/-- 40_bus_driver.md R126, R127, 20_memory.md R72: with WE left at 1, WRITE_BYTE makes one falling edge and one
rising edge: the device latches `addr & 0x7FFF` and, where the data lines are outputs, the value, and commits it;
every other location reads as before. -/
def Obligations.WriteByteStoresAtItsLocation : Prop :=
  ∀ (s : State) (v : Byte) (a : Addr), quiet s = true → s.lines.we.out = .high →
    ∃ t, exec (.writeByte v a) s = .next t ∧ t.dev.latchA = a.setWidth 15 ∧
      (∀ x, x ≠ location a → Memory.read t.dev.mem x = Memory.read s.dev.mem x) ∧
      ((s.mode = .write → ∀ p : Fin 8, s.lines.data[p].dir = .output) →
        t.dev.latchD = v ∧ Memory.read t.dev.mem (location a) = some v)

/-- 40_bus_driver.md R130, R133 (e): without a sink READ_BYTE issues no event and changes nothing but STATUS and
RESULT: LAST = NO_SINK, RESULT = 0. (`draws` is the model's own counter of free values, log 31.) -/
def Obligations.ReadByteWithoutSinkTouchesNothing : Prop :=
  ∀ (s : State) (a : Addr), quiet s = true → s.sinkAvail = false →
    ∃ t, exec (.readByte a) s = .next t ∧ FinishedWith .noSink 0 t ∧ { t with draws := s.draws } = { s with
      last := .noSink, result := 0, busy := false, work := none, pos := 0, cut := none }

/-- 40_bus_driver.md R104, R130, R131: with a sink READ_BYTE runs EnterRead where needed and eight passes; RESULT is
VALID with the byte its eight samples spell, most significant bit first; the device and the source are untouched. -/
def Obligations.ReadByteReturnsItsSamples : Prop :=
  ∀ (s : State) (a : Addr), quiet s = true → s.sinkAvail = true →
    ∃ t v, exec (.readByte a) s = .next t ∧ FinishedWith .ok (0x100#9 ||| BitVec.setWidth 9 v) t ∧ Kept s t ∧
      traceOf t = traceOf s ++ (needReadTrace s ++ readByteTrace s.params.readSettleUs s.cfg a v) ∧
      t.mode = .read ∧
      (∀ k : Fin 15, t.lines.addr[k] = driven s.lines.addr[k] (a.getLsbD k)) ∧
      (∀ p : Fin 8, t.lines.data[p] =
        if s.mode = .read then s.lines.data[p] else ⟨.input, s.lines.data[p].out⟩) ∧
      t.lines.we = s.lines.we ∧
      t.lines.oe = (if s.mode = .read then s.lines.oe else driven s.lines.oe false) ∧
      t.source = s.source ∧ t.dev = s.dev

/-- 20_memory.md R68: with no reference device, the eight samples of READ_BYTE are the next eight answers of the pin
bank, each used once; any eight answers are possible. -/
def Obligations.ReadByteSamplesAreTheBanksAnswers : Prop :=
  ∀ (s : State) (a : Addr) (v : Byte) (later : List Bool), quiet s = true → s.sinkAvail = true →
    s.refDevice = false →
    s.samples = [v.getLsbD 7, v.getLsbD 6, v.getLsbD 5, v.getLsbD 4, v.getLsbD 3, v.getLsbD 2, v.getLsbD 1,
      v.getLsbD 0] ++ later →
    ∃ t, exec (.readByte a) s = .next t ∧ t.result = 0x100#9 ||| BitVec.setWidth 9 v ∧ t.samples = later

/-- 40_bus_driver.md R131, 20_memory.md R73: with the reference device, READ_BYTE returns DevMem[addr & 0x7FFF], uses
no draw, and changes no device contents. -/
def Obligations.ReadByteReadsTheDevice : Prop :=
  ∀ (s : State) (a : Addr), BusInv s → quiet s = true → s.sinkAvail = true → s.refDevice = true →
    ∃ t, exec (.readByte a) s = .next t ∧
      t.result = 0x100#9 ||| BitVec.setWidth 9 (deviceByte s.dev.mem (location a)) ∧
      t.dev = s.dev ∧ t.samples = s.samples

/-- 20_memory.md R75: with the reference device, one WRITE_BYTE(v, a) changes one location, and a following READ_BYTE
at a, or at `a ^ 0x8000`, returns v. -/
def Obligations.WrittenByteReadsBack : Prop :=
  ∀ (s : State) (v : Byte) (a b : Addr), BusInv s → quiet s = true → s.sinkAvail = true → s.refDevice = true →
    (b = a ∨ b = a ^^^ 0x8000) →
    ∃ t u, exec (.writeByte v a) s = .next t ∧ exec (.readByte b) t = .next u ∧
      u.result = 0x100#9 ||| BitVec.setWidth 9 v ∧ u.dev = t.dev ∧ deviceByte t.dev.mem (location a) = v ∧
      ∀ x, x ≠ location a → deviceByte t.dev.mem x = deviceByte s.dev.mem x

/-! ## PROGRAM -/

/-- 41_programmer.md R140, R141, R142: PROGRAM writes c = min(n, span) bytes of the source, the i-th at
startAddr + i, with one query and one read each, and one last query that answers false if the source ends first;
status OK, RESULT 0, mode WRITE; the source is advanced by c bytes. That each query uses up one listed answer is the
model's choice (log 16). The trace is seen without ECHO text. -/
def Obligations.ProgramWritesTheSourceInOrder : Prop :=
  ∀ (s : State) (startAddr finalAddr : Addr) (span : Nat) (vs : List Byte), quiet s = true →
    span = min finalAddr.toNat 0x7FFE + 1 - startAddr.toNat → vs = (sourceBytes s.source).take span →
    ∃ t, exec (.program startAddr finalAddr) s = .next t ∧ FinishedWith .ok 0 t ∧ Kept s t ∧ t.mode = .write ∧
      nonTextTrace t = nonTextTrace s ++ (needWriteTrace s ++ (programTrace s.cfg startAddr.toNat vs ++
        if vs.length < span then [.srcQ false] else [])) ∧
      t.source.bytes = s.source.bytes.drop vs.length ∧
      t.source.answers = s.source.answers.drop (vs.length + if vs.length < span then 1 else 0) ∧
      t.samples = s.samples

/-- 41_programmer.md R140, R141: the lines PROGRAM leaves are those of its last WriteByteProc, or of EnterWrite if no
byte was written. -/
def Obligations.ProgramLeavesTheLinesOfItsLastWrite : Prop :=
  ∀ (s : State) (startAddr finalAddr : Addr) (span : Nat) (vs : List Byte), quiet s = true →
    span = min finalAddr.toNat 0x7FFE + 1 - startAddr.toNat → vs = (sourceBytes s.source).take span →
    ∃ t, exec (.program startAddr finalAddr) s = .next t ∧
      t.lines.oe = (if s.mode = .write then s.lines.oe else driven s.lines.oe true) ∧
      (∀ p : Fin 8, t.lines.data[p].dir = if s.mode = .write then s.lines.data[p].dir else .output) ∧
      (vs = [] → t.lines.addr = s.lines.addr ∧ t.lines.we = s.lines.we ∧
        ∀ p : Fin 8, t.lines.data[p].out = if s.mode = .write then s.lines.data[p].out else .low) ∧
      ∀ us v, vs = us ++ [v] → t.lines.we = driven s.lines.we true ∧
        (∀ k : Fin 15, t.lines.addr[k] = driven s.lines.addr[k] ((startAddr.toNat + us.length).testBit k)) ∧
        ∀ p : Fin 8, t.lines.data[p].out = if v.getLsbD (7 - p) then .high else .low

/-- 41_programmer.md R141 (a), (b), (e): with the bus in order, PROGRAM stores the i-th byte at startAddr + i, and
every location outside the written range, 0x7FFF among them, reads as before. -/
def Obligations.ProgramStoresItsBytes : Prop :=
  ∀ (s : State) (startAddr finalAddr : Addr) (vs : List Byte), BusInv s → quiet s = true →
    vs = (sourceBytes s.source).take (min finalAddr.toNat 0x7FFE + 1 - startAddr.toNat) →
    ∃ t, exec (.program startAddr finalAddr) s = .next t ∧
      ∀ x, Memory.read t.dev.mem x =
        if startAddr.toNat ≤ x then
          match vs[x - startAddr.toNat]? with
          | some v => some v
          | none => Memory.read s.dev.mem x
        else Memory.read s.dev.mem x

/-- 41_programmer.md R141 (a): whatever inputs other than a reset fall inside PROGRAM, no location outside
[startAddr, min(finalAddr, 0x7FFE)] is written; 0x7FFF never is. -/
def Obligations.ProgramStaysInsideItsBounds : Prop :=
  ∀ (s t : State) (startAddr finalAddr : Addr), BusInv s →
    exec (.program startAddr finalAddr) s = .next t → noResetUsed s t →
    ∀ x, x < startAddr.toNat ∨ min finalAddr.toNat 0x7FFE < x → Memory.read t.dev.mem x = Memory.read s.dev.mem x

/-- 41_programmer.md R143: without a sink PROGRAM emits no Out event. -/
def Obligations.ProgramWithoutSinkEmitsNoText : Prop :=
  ∀ (s : State) (startAddr finalAddr : Addr), quiet s = true → s.sinkAvail = false →
    ∃ t, exec (.program startAddr finalAddr) s = .next t ∧ textOf t = textOf s

/-- 41_programmer.md R143: the ECHO text never changes the pin, source, mode or register effects: two runs that
differ in the text to come differ in the text alone. -/
def Obligations.EchoTextChangesNothingElse : Prop :=
  ∀ (s : State) (startAddr finalAddr : Addr) (text : EchoText), quiet s = true →
    ∃ t u, exec (.program startAddr finalAddr) s = .next t ∧
      exec (.program startAddr finalAddr) { s with echo := text } = .next u ∧
      nonTextTrace u = nonTextTrace t ∧ { u with echo := s.echo, log := [] } = { t with echo := s.echo, log := [] }

/-! ## DUMP -/

/-- 41_programmer.md R145, R152 (f): without a sink DUMP issues no event and changes nothing but STATUS and RESULT:
LAST = NO_SINK, RESULT = 0. (`draws` is the model's own counter of free values, log 31.) -/
def Obligations.DumpWithoutSinkTouchesNothing : Prop :=
  ∀ (s : State) (startAddr : Addr) (lineCount : BitVec 16), quiet s = true → s.sinkAvail = false →
    ∃ t, exec (.dump startAddr lineCount) s = .next t ∧ FinishedWith .noSink 0 t ∧
      { t with draws := s.draws } = { s with
        last := .noSink, result := 0, busy := false, work := none, pos := 0, cut := none }

/-- 41_programmer.md R145, R146, R147, R148: with a sink DUMP reads each address from the row base up to, but not
including, min(0x7FFF, end), in increasing order and no other, with each row's label before its first read and each
byte's text after its read; status OK, RESULT 0, mode READ; the device and the source are untouched. -/
def Obligations.DumpReadsRowsInOrder : Prop :=
  ∀ (s : State) (startAddr : Addr) (lineCount : BitVec 16) (norm : Nat), quiet s = true → s.sinkAvail = true →
    norm = startAddr.toNat / 16 * 16 →
    ∃ t vs, exec (.dump startAddr lineCount) s = .next t ∧ FinishedWith .ok 0 t ∧ Kept s t ∧ t.mode = .read ∧
      vs.length = min 0x7FFF (norm + 16 * lineCount.toNat) - norm ∧
      traceOf t = traceOf s ++ (needReadTrace s ++ dumpTrace s.params s.cfg norm vs) ∧
      t.lines.we = s.lines.we ∧
      t.lines.oe = (if s.mode = .read then s.lines.oe else driven s.lines.oe false) ∧
      (∀ p : Fin 8, t.lines.data[p] =
        if s.mode = .read then s.lines.data[p] else ⟨.input, s.lines.data[p].out⟩) ∧
      (∀ k : Fin 15, t.lines.addr[k] =
        if vs = [] then s.lines.addr[k] else driven s.lines.addr[k] ((norm + vs.length - 1).testBit k)) ∧
      t.source = s.source ∧ t.dev = s.dev

/-- 41_programmer.md R145, 20_memory.md R73: with the reference device DUMP prints DevMem[a] for each address a it
reads. -/
def Obligations.DumpPrintsTheDevice : Prop :=
  ∀ (s : State) (startAddr : Addr) (lineCount : BitVec 16) (norm : Nat), BusInv s → quiet s = true →
    s.sinkAvail = true → s.refDevice = true → norm = startAddr.toNat / 16 * 16 →
    ∃ t, exec (.dump startAddr lineCount) s = .next t ∧
      traceOf t = traceOf s ++ (needReadTrace s ++ dumpTrace s.params s.cfg norm
        ((List.range' norm (min 0x7FFF (norm + 16 * lineCount.toNat) - norm)).map (deviceByte s.dev.mem)))

/-- 41_programmer.md R149: a digit is '0' + d up to 9 and 'A' + d - 10 or 'a' + d - 10 above, most significant digit
first; this machine prints upper case and ends a line with the byte 0x0A. -/
def Obligations.HexDigitsAreAscii : Prop :=
  State.reset.params.hexUpper = true ∧ State.reset.params.eolSeq = [0x0A] ∧ space = 0x20 ∧
  ∀ (upper : Bool) (v : Byte) (a : BitVec 16),
    hex2 upper v = [v.toNat / 16, v.toNat % 16].map (fun d =>
      BitVec.ofNat 8 (if d ≤ 9 then 0x30 + d else if upper then 0x41 + (d - 10) else 0x61 + (d - 10))) ∧
    hex4 upper a = [a.toNat / 4096, a.toNat / 256 % 16, a.toNat / 16 % 16, a.toNat % 16].map (fun d =>
      BitVec.ofNat 8 (if d ≤ 9 then 0x30 + d else if upper then 0x41 + (d - 10) else 0x61 + (d - 10)))

/-- 41_programmer.md R150: the text of a complete row at base r, a multiple of 16: the label, then a space and two
digits for each byte, one more space after the 8th, the line break after the 16th; 54 characters with a one-byte
line break. -/
def Obligations.CompleteRowText : Prop :=
  ∀ (q : Params) (c : PinConfig) (r : Nat) (bs ds : List Byte), r % 16 = 0 → r < 0x7FF0 → bs.length = 8 →
    ds.length = 8 →
    (dumpTrace q c r (bs ++ ds)).filterMap outChar =
      hex4 q.hexUpper (BitVec.ofNat 16 r) ++ (bs.flatMap fun b => 0x20 :: hex2 q.hexUpper b) ++ [0x20] ++
        (ds.flatMap fun b => 0x20 :: hex2 q.hexUpper b) ++ q.eolSeq ∧
    (q.eolSeq = [0x0A] → ((dumpTrace q c r (bs ++ ds)).filterMap outChar).length = 54)

/-- 41_programmer.md R151: the row at 0x7FF0 is cut after 15 bytes and has no line break: 50 characters. -/
def Obligations.CutRowText : Prop :=
  ∀ (q : Params) (c : PinConfig) (bs ds : List Byte), bs.length = 8 → ds.length = 7 →
    (dumpTrace q c 0x7FF0 (bs ++ ds)).filterMap outChar =
      hex4 q.hexUpper 0x7FF0 ++ (bs.flatMap fun b => 0x20 :: hex2 q.hexUpper b) ++ [0x20] ++
        (ds.flatMap fun b => 0x20 :: hex2 q.hexUpper b) ∧
    ((dumpTrace q c 0x7FF0 (bs ++ ds)).filterMap outChar).length = 50

/-! ## Commands together -/

/-- 41_programmer.md R153: with the reference device and a sink, PROGRAM of a list B of 1 to 0x7FFF bytes from 0x0000
followed by DUMP of ceil(len(B)/16) rows prints B[a] as the byte of every address a < len(B). -/
def Obligations.ProgramThenDumpRoundTrip : Prop :=
  ∀ (s : State) (B later : List Byte), BusInv s → quiet s = true → s.sinkAvail = true →
    s.refDevice = true → s.source.bytes = B ++ later → (∀ b ∈ s.source.answers.take B.length, b = true) →
    1 ≤ B.length → B.length ≤ 0x7FFF →
    ∃ t u vs, exec (.program 0 (BitVec.ofNat 16 (B.length - 1))) s = .next t ∧
      exec (.dump 0 (BitVec.ofNat 16 ((B.length + 15) / 16))) t = .next u ∧
      traceOf u = traceOf t ++ (enterReadTrace s.params.oeSettleUs s.cfg ++ dumpTrace s.params s.cfg 0 vs) ∧
      B.length ≤ vs.length ∧ ∀ a, a < B.length → vs[a]? = B[a]?

/-- 30_encoding.md R89 (a): PROGRAM has the pin trace, the lines and the device of ENTER_WRITE where needed followed
by one WRITE_BYTE per byte. -/
def Obligations.ProgramIsItsWriteBytes : Prop :=
  ∀ (s : State) (startAddr finalAddr : Addr) (vs : List Byte), BusInv s → quiet s = true →
    vs = (sourceBytes s.source).take (min finalAddr.toNat 0x7FFE + 1 - startAddr.toNat) →
    ∃ t u, exec (.program startAddr finalAddr) s = .next t ∧
      execAll ((if s.mode = .write then [] else [.enterWrite]) ++
        vs.mapIdx fun i v => .writeByte v (BitVec.ofNat 16 (startAddr.toNat + i))) s = .next u ∧
      pinTrace u = pinTrace t ∧ u.lines = t.lines ∧ u.mode = t.mode ∧ u.dev = t.dev

/-- 30_encoding.md R89 (b): with a sink DUMP has the pin trace, but for the environment's answers, and the lines of
ENTER_READ where needed followed by one READ_BYTE per address. -/
def Obligations.DumpIsItsReadBytes : Prop :=
  ∀ (s : State) (startAddr : Addr) (lineCount : BitVec 16) (norm : Nat), quiet s = true → s.sinkAvail = true →
    norm = startAddr.toNat / 16 * 16 →
    ∃ t u, exec (.dump startAddr lineCount) s = .next t ∧
      execAll ((if s.mode = .read then [] else [.enterRead]) ++
        (List.range' norm (min 0x7FFF (norm + 16 * lineCount.toNat) - norm)).map fun a =>
          .readByte (BitVec.ofNat 16 a)) s = .next u ∧
      (pinTrace u).map unanswered = (pinTrace t).map unanswered ∧ u.lines = t.lines ∧ u.mode = t.mode

/-! ## Counts and delays -/

/-- 40_bus_driver.md R135: the event counts of the Bus Driver's commands. -/
def Obligations.BusDriverEventCounts : Prop :=
  ∀ (s : State) (a : Addr) (v : Byte), quiet s = true →
    ∃ t1 t2 t3 t4 t5, exec (.setAddress a) s = .next t1 ∧ t1.log.length = s.log.length + 15 ∧
      exec .enterWrite s = .next t2 ∧ t2.log.length = s.log.length + 17 ∧
      exec .enterRead s = .next t3 ∧ t3.log.length = s.log.length + 10 ∧
      exec (.writeByte v a) s = .next t4 ∧
      t4.log.length = s.log.length + (if s.mode = .write then 35 else 52) ∧
      exec (.readByte a) s = .next t5 ∧
      t5.log.length = s.log.length +
        (if s.sinkAvail = true then (if s.mode = .read then 136 else 146) else 0)

/-- 70_reset_and_hazards.md R212: every command ends after a bounded number of events: PROGRAM at most 1,212,396
besides ECHO text, DUMP at most 4,456,322 pin events and 2047 full rows and the cut one of text, which are 110,588 Out
events with a one-byte line break, WRITE_BYTE 52, READ_BYTE 146. -/
def Obligations.EveryCommandEndsWithinItsBound : Prop :=
  ∀ (s : State) (i : Instr), quiet s = true →
    ∃ t, exec i s = .next t ∧
      match i with
      | .program _ _ => (nonTextTrace t).length ≤ (nonTextTrace s).length + 1212396
      | .dump _ _ => (pinTrace t).length ≤ (pinTrace s).length + 4456322 ∧
          (textOf t).length ≤ (textOf s).length + (2047 * (53 + s.params.eolSeq.length) + 50)
      | .writeByte _ _ => t.log.length ≤ s.log.length + 52
      | .readByte _ => t.log.length ≤ s.log.length + 146
      | .setAddress _ => t.log.length ≤ s.log.length + 15
      | .enterWrite => t.log.length ≤ s.log.length + 17
      | .enterRead => t.log.length ≤ s.log.length + 10

/-- 70_reset_and_hazards.md R210: the delay sum of each command, of a reserved opcode, of a command without its
sink, and of the reset sequence. -/
def Obligations.DelaySums : Prop :=
  ∀ (s : State) (a f : Addr) (v : Byte) (n : BitVec 16) (c : PinConfig), quiet s = true →
    (∃ t, exec (.setAddress a) s = .next t ∧ delaySum (traceOf t) = delaySum (traceOf s)) ∧
    (∃ t, exec .enterWrite s = .next t ∧ delaySum (traceOf t) = delaySum (traceOf s)) ∧
    (∃ t, exec .enterRead s = .next t ∧ delaySum (traceOf t) = delaySum (traceOf s) + s.params.oeSettleUs) ∧
    (∃ t, exec (.writeByte v a) s = .next t ∧
      delaySum (traceOf t) = delaySum (traceOf s) + 9 * s.cfg.tBit.toNat) ∧
    (∃ t, exec (.readByte a) s = .next t ∧ delaySum (traceOf t) = delaySum (traceOf s) +
      if s.sinkAvail then 8 * s.params.readSettleUs + (if s.mode = .read then 0 else s.params.oeSettleUs) else 0) ∧
    (∃ t, exec (.program a f) s = .next t ∧ delaySum (traceOf t) = delaySum (traceOf s) +
      9 * s.cfg.tBit.toNat * ((sourceBytes s.source).take (min f.toNat 0x7FFE + 1 - a.toNat)).length) ∧
    (∃ t, exec (.dump a n) s = .next t ∧ delaySum (traceOf t) = delaySum (traceOf s) +
      if s.sinkAvail then 8 * s.params.readSettleUs *
        (min 0x7FFF (a.toNat / 16 * 16 + 16 * n.toNat) - a.toNat / 16 * 16) +
        (if s.mode = .read then 0 else s.params.oeSettleUs) else 0) ∧
    (∃ t, execReserved s = .next t ∧ delaySum (traceOf t) = delaySum (traceOf s)) ∧ delaySum (resetTrace c) = 0

/-! ## The whole machine -/

/-- 10_state.md R36, R41, R46, R49: every step, whatever inputs fall inside it, keeps the invariant of the bus. -/
def Obligations.StepKeepsTheBusInvariant : Prop :=
  ∀ s t : State, BusInv s → step s = .next t → BusInv t

/-- 10_state.md R49: the invariant of the bus holds after reset. -/
def Obligations.BusInvariantAtReset : Prop := BusInv State.reset

/-- 10_state.md R36: the Bus Mode state machine. A step leaves the mode that the accepted command's row of the table
gives, every other step leaves the mode alone, and only a reset leads to UNINIT again. -/
def Obligations.ModeFollowsItsStateMachine : Prop :=
  (∀ s t : State, step s = .next t →
    t.mode = modeAfterStep s ∨ resetUsed s t ∧ t.mode = .uninit) ∧
  (∀ (s t : State) (c : PinConfig) (after : Option Nat) (rest : List TimedInput),
    s.host = ⟨after, .reset c⟩ :: rest → step s = .next t → t.mode = .uninit) ∧
  ∀ s t : State, step s = .next t → noResetUsed s t → t.mode = .uninit → s.mode = .uninit

/-- 60_exceptions.md R173, 10_state.md R45, R46: an accepted word that no reset abandons finishes with exactly one
status, tested in the order of R173, and RESULT is VALID only after a READ_BYTE that finishes OK. -/
def Obligations.EveryCommandFinishesWithItsStatus : Prop :=
  ∀ (s t : State) (w : CmdWord) (after : Option Nat) (rest : List TimedInput),
    s.host = ⟨after, .write 0 w⟩ :: rest → step s = .next t → noResetUsed s t →
      t.busy = false ∧ t.work = none ∧
      t.last = (match decode w with
        | .error _ => .illegal
        | .ok (.readByte _) => if s.sinkAvail then .ok else .noSink
        | .ok (.dump _ _) => if s.sinkAvail then .ok else .noSink
        | .ok _ => .ok) ∧
      (t.result.getLsbD 8 = true ↔ s.sinkAvail = true ∧ ∃ a, decode w = .ok (.readByte a)) ∧
      (t.result.getLsbD 8 = false → t.result = 0)

/-- 10_state.md R32: no command writes the configuration. 00_scope.md R12 and log 7: the build-time parameters, which
the model holds in its state, never change, by reset either. -/
def Obligations.ConfigurationIsImmutable : Prop :=
  ∀ s t : State, step s = .next t → t.params = s.params ∧ (noResetUsed s t → t.cfg = s.cfg)

/-- 92_eei_decisions.md D14, 40_bus_driver.md R115, R120, R125: SET_ADDRESS, ENTER_WRITE, ENTER_READ and WRITE_BYTE
run the same with and without a sink. -/
def Obligations.SinkDoesNotGateTheOtherCommands : Prop :=
  ∀ (s : State) (b : Bool) (i : Instr), quiet s = true →
    ((∃ a, i = .setAddress a) ∨ i = .enterWrite ∨ i = .enterRead ∨ ∃ v a, i = .writeByte v a) →
    ∃ t, exec i s = .next t ∧ exec i { s with sinkAvail := b } = .next { t with sinkAvail := b }

/-- 20_memory.md R69: no command's control flow depends on a byte read from the device: with other device contents
and other samples every command issues the same non-text events, but for the answers, and leaves the same lines, mode
and status. -/
def Obligations.ControlFlowIgnoresDeviceData : Prop :=
  ∀ (s : State) (i : Instr) (d : RefDevice) (ref : Bool) (answers : List Bool), quiet s = true →
    ∃ t u, exec i s = .next t ∧ exec i { s with dev := d, refDevice := ref, samples := answers } = .next u ∧
      (nonTextTrace u).map unanswered = (nonTextTrace t).map unanswered ∧ u.lines = t.lines ∧ u.mode = t.mode ∧
      u.last = t.last ∧ u.source = t.source
end

