-- ==== Sys2Proof/Laws/State.lean ====
section
/-! SUPPORT. One lemma per field per update of the state, so that no proof unfolds a record update. -/

namespace Sys2Proof.Laws

open Sys2Proof Sys2Proof.Machine

/-! ### record -/

@[simp] theorem record_params (e : Event) (s : State) : (record e s).params = s.params := rfl
@[simp] theorem record_cfg (e : Event) (s : State) : (record e s).cfg = s.cfg := rfl
@[simp] theorem record_mode (e : Event) (s : State) : (record e s).mode = s.mode := rfl
@[simp] theorem record_busy (e : Event) (s : State) : (record e s).busy = s.busy := rfl
@[simp] theorem record_last (e : Event) (s : State) : (record e s).last = s.last := rfl
@[simp] theorem record_result (e : Event) (s : State) : (record e s).result = s.result := rfl
@[simp] theorem record_lines (e : Event) (s : State) : (record e s).lines = s.lines := rfl
@[simp] theorem record_sinkAvail (e : Event) (s : State) : (record e s).sinkAvail = s.sinkAvail := rfl
@[simp] theorem record_work (e : Event) (s : State) : (record e s).work = s.work := rfl
@[simp] theorem record_pos (e : Event) (s : State) : (record e s).pos = s.pos + 1 := rfl
@[simp] theorem record_cut (e : Event) (s : State) : (record e s).cut = s.cut := rfl
@[simp] theorem record_log (e : Event) (s : State) : (record e s).log = e :: s.log := rfl
@[simp] theorem record_host (e : Event) (s : State) : (record e s).host = s.host := rfl
@[simp] theorem record_reads (e : Event) (s : State) : (record e s).reads = s.reads := rfl
@[simp] theorem record_source (e : Event) (s : State) : (record e s).source = s.source := rfl
@[simp] theorem record_echo (e : Event) (s : State) : (record e s).echo = s.echo := rfl
@[simp] theorem record_samples (e : Event) (s : State) : (record e s).samples = s.samples := rfl
@[simp] theorem record_draws (e : Event) (s : State) : (record e s).draws = s.draws := rfl
@[simp] theorem record_refDevice (e : Event) (s : State) : (record e s).refDevice = s.refDevice := rfl
@[simp] theorem record_dev (e : Event) (s : State) : (record e s).dev = s.dev := rfl

/-! ### setWork -/

@[simp] theorem setWork_params (f : Work → Work) (s : State) : (setWork f s).params = s.params := rfl
@[simp] theorem setWork_cfg (f : Work → Work) (s : State) : (setWork f s).cfg = s.cfg := rfl
@[simp] theorem setWork_mode (f : Work → Work) (s : State) : (setWork f s).mode = s.mode := rfl
@[simp] theorem setWork_busy (f : Work → Work) (s : State) : (setWork f s).busy = s.busy := rfl
@[simp] theorem setWork_last (f : Work → Work) (s : State) : (setWork f s).last = s.last := rfl
@[simp] theorem setWork_result (f : Work → Work) (s : State) : (setWork f s).result = s.result := rfl
@[simp] theorem setWork_lines (f : Work → Work) (s : State) : (setWork f s).lines = s.lines := rfl
@[simp] theorem setWork_sinkAvail (f : Work → Work) (s : State) : (setWork f s).sinkAvail = s.sinkAvail := rfl
@[simp] theorem setWork_work (f : Work → Work) (s : State) : (setWork f s).work = s.work.map f := rfl
@[simp] theorem setWork_pos (f : Work → Work) (s : State) : (setWork f s).pos = s.pos := rfl
@[simp] theorem setWork_cut (f : Work → Work) (s : State) : (setWork f s).cut = s.cut := rfl
@[simp] theorem setWork_log (f : Work → Work) (s : State) : (setWork f s).log = s.log := rfl
@[simp] theorem setWork_host (f : Work → Work) (s : State) : (setWork f s).host = s.host := rfl
@[simp] theorem setWork_reads (f : Work → Work) (s : State) : (setWork f s).reads = s.reads := rfl
@[simp] theorem setWork_source (f : Work → Work) (s : State) : (setWork f s).source = s.source := rfl
@[simp] theorem setWork_echo (f : Work → Work) (s : State) : (setWork f s).echo = s.echo := rfl
@[simp] theorem setWork_samples (f : Work → Work) (s : State) : (setWork f s).samples = s.samples := rfl
@[simp] theorem setWork_draws (f : Work → Work) (s : State) : (setWork f s).draws = s.draws := rfl
@[simp] theorem setWork_refDevice (f : Work → Work) (s : State) : (setWork f s).refDevice = s.refDevice := rfl
@[simp] theorem setWork_dev (f : Work → Work) (s : State) : (setWork f s).dev = s.dev := rfl

/-! ### recordRead -/

@[simp] theorem recordRead_params (n : Nat) (s : State) : (recordRead n s).params = s.params := rfl
@[simp] theorem recordRead_cfg (n : Nat) (s : State) : (recordRead n s).cfg = s.cfg := rfl
@[simp] theorem recordRead_mode (n : Nat) (s : State) : (recordRead n s).mode = s.mode := rfl
@[simp] theorem recordRead_busy (n : Nat) (s : State) : (recordRead n s).busy = s.busy := rfl
@[simp] theorem recordRead_last (n : Nat) (s : State) : (recordRead n s).last = s.last := rfl
@[simp] theorem recordRead_result (n : Nat) (s : State) : (recordRead n s).result = s.result := rfl
@[simp] theorem recordRead_lines (n : Nat) (s : State) : (recordRead n s).lines = s.lines := rfl
@[simp] theorem recordRead_sinkAvail (n : Nat) (s : State) : (recordRead n s).sinkAvail = s.sinkAvail := rfl
@[simp] theorem recordRead_work (n : Nat) (s : State) : (recordRead n s).work = s.work := rfl
@[simp] theorem recordRead_pos (n : Nat) (s : State) : (recordRead n s).pos = s.pos := rfl
@[simp] theorem recordRead_cut (n : Nat) (s : State) : (recordRead n s).cut = s.cut := rfl
@[simp] theorem recordRead_log (n : Nat) (s : State) : (recordRead n s).log = s.log := rfl
@[simp] theorem recordRead_host (n : Nat) (s : State) : (recordRead n s).host = s.host := rfl
@[simp] theorem recordRead_reads (n : Nat) (s : State) : (recordRead n s).reads = (n, readRegister n s) :: s.reads := rfl
@[simp] theorem recordRead_source (n : Nat) (s : State) : (recordRead n s).source = s.source := rfl
@[simp] theorem recordRead_echo (n : Nat) (s : State) : (recordRead n s).echo = s.echo := rfl
@[simp] theorem recordRead_samples (n : Nat) (s : State) : (recordRead n s).samples = s.samples := rfl
@[simp] theorem recordRead_draws (n : Nat) (s : State) : (recordRead n s).draws = s.draws := rfl
@[simp] theorem recordRead_refDevice (n : Nat) (s : State) : (recordRead n s).refDevice = s.refDevice := rfl
@[simp] theorem recordRead_dev (n : Nat) (s : State) : (recordRead n s).dev = s.dev := rfl

/-! ### cutWith -/

@[simp] theorem cutWith_params (c : Cut) (rest : List TimedInput) (s : State) : (cutWith c rest s).params = s.params := rfl
@[simp] theorem cutWith_cfg (c : Cut) (rest : List TimedInput) (s : State) : (cutWith c rest s).cfg = s.cfg := rfl
@[simp] theorem cutWith_mode (c : Cut) (rest : List TimedInput) (s : State) : (cutWith c rest s).mode = s.mode := rfl
@[simp] theorem cutWith_busy (c : Cut) (rest : List TimedInput) (s : State) : (cutWith c rest s).busy = s.busy := rfl
@[simp] theorem cutWith_last (c : Cut) (rest : List TimedInput) (s : State) : (cutWith c rest s).last = s.last := rfl
@[simp] theorem cutWith_result (c : Cut) (rest : List TimedInput) (s : State) : (cutWith c rest s).result = s.result := rfl
@[simp] theorem cutWith_lines (c : Cut) (rest : List TimedInput) (s : State) : (cutWith c rest s).lines = s.lines := rfl
@[simp] theorem cutWith_sinkAvail (c : Cut) (rest : List TimedInput) (s : State) : (cutWith c rest s).sinkAvail = s.sinkAvail := rfl
@[simp] theorem cutWith_work (c : Cut) (rest : List TimedInput) (s : State) : (cutWith c rest s).work = s.work := rfl
@[simp] theorem cutWith_pos (c : Cut) (rest : List TimedInput) (s : State) : (cutWith c rest s).pos = s.pos := rfl
@[simp] theorem cutWith_cut (c : Cut) (rest : List TimedInput) (s : State) : (cutWith c rest s).cut = some c := rfl
@[simp] theorem cutWith_log (c : Cut) (rest : List TimedInput) (s : State) : (cutWith c rest s).log = s.log := rfl
@[simp] theorem cutWith_host (c : Cut) (rest : List TimedInput) (s : State) : (cutWith c rest s).host = rest := rfl
@[simp] theorem cutWith_reads (c : Cut) (rest : List TimedInput) (s : State) : (cutWith c rest s).reads = s.reads := rfl
@[simp] theorem cutWith_source (c : Cut) (rest : List TimedInput) (s : State) : (cutWith c rest s).source = s.source := rfl
@[simp] theorem cutWith_echo (c : Cut) (rest : List TimedInput) (s : State) : (cutWith c rest s).echo = s.echo := rfl
@[simp] theorem cutWith_samples (c : Cut) (rest : List TimedInput) (s : State) : (cutWith c rest s).samples = s.samples := rfl
@[simp] theorem cutWith_draws (c : Cut) (rest : List TimedInput) (s : State) : (cutWith c rest s).draws = s.draws := rfl
@[simp] theorem cutWith_refDevice (c : Cut) (rest : List TimedInput) (s : State) : (cutWith c rest s).refDevice = s.refDevice := rfl
@[simp] theorem cutWith_dev (c : Cut) (rest : List TimedInput) (s : State) : (cutWith c rest s).dev = s.dev := rfl

/-! ### finished -/

@[simp] theorem finished_params (st : StatusCode) (res : BitVec 9) (s : State) : (finished st res s).params = s.params := rfl
@[simp] theorem finished_cfg (st : StatusCode) (res : BitVec 9) (s : State) : (finished st res s).cfg = s.cfg := rfl
@[simp] theorem finished_mode (st : StatusCode) (res : BitVec 9) (s : State) : (finished st res s).mode = s.mode := rfl
@[simp] theorem finished_busy (st : StatusCode) (res : BitVec 9) (s : State) : (finished st res s).busy = false := rfl
@[simp] theorem finished_last (st : StatusCode) (res : BitVec 9) (s : State) : (finished st res s).last = st := rfl
@[simp] theorem finished_result (st : StatusCode) (res : BitVec 9) (s : State) : (finished st res s).result = res := rfl
@[simp] theorem finished_lines (st : StatusCode) (res : BitVec 9) (s : State) : (finished st res s).lines = s.lines := rfl
@[simp] theorem finished_sinkAvail (st : StatusCode) (res : BitVec 9) (s : State) : (finished st res s).sinkAvail = s.sinkAvail := rfl
@[simp] theorem finished_work (st : StatusCode) (res : BitVec 9) (s : State) : (finished st res s).work = none := rfl
@[simp] theorem finished_pos (st : StatusCode) (res : BitVec 9) (s : State) : (finished st res s).pos = 0 := rfl
@[simp] theorem finished_cut (st : StatusCode) (res : BitVec 9) (s : State) : (finished st res s).cut = s.cut := rfl
@[simp] theorem finished_log (st : StatusCode) (res : BitVec 9) (s : State) : (finished st res s).log = s.log := rfl
@[simp] theorem finished_host (st : StatusCode) (res : BitVec 9) (s : State) : (finished st res s).host = s.host := rfl
@[simp] theorem finished_reads (st : StatusCode) (res : BitVec 9) (s : State) : (finished st res s).reads = s.reads := rfl
@[simp] theorem finished_source (st : StatusCode) (res : BitVec 9) (s : State) : (finished st res s).source = s.source := rfl
@[simp] theorem finished_echo (st : StatusCode) (res : BitVec 9) (s : State) : (finished st res s).echo = s.echo := rfl
@[simp] theorem finished_samples (st : StatusCode) (res : BitVec 9) (s : State) : (finished st res s).samples = s.samples := rfl
@[simp] theorem finished_draws (st : StatusCode) (res : BitVec 9) (s : State) : (finished st res s).draws = s.draws := rfl
@[simp] theorem finished_refDevice (st : StatusCode) (res : BitVec 9) (s : State) : (finished st res s).refDevice = s.refDevice := rfl
@[simp] theorem finished_dev (st : StatusCode) (res : BitVec 9) (s : State) : (finished st res s).dev = s.dev := rfl

/-! ### accept -/

@[simp] theorem accept_params (s : State) : (accept s).params = s.params := rfl
@[simp] theorem accept_cfg (s : State) : (accept s).cfg = s.cfg := rfl
@[simp] theorem accept_mode (s : State) : (accept s).mode = s.mode := rfl
@[simp] theorem accept_busy (s : State) : (accept s).busy = true := rfl
@[simp] theorem accept_last (s : State) : (accept s).last = s.last := rfl
@[simp] theorem accept_result (s : State) : (accept s).result = s.result := rfl
@[simp] theorem accept_lines (s : State) : (accept s).lines = s.lines := rfl
@[simp] theorem accept_sinkAvail (s : State) : (accept s).sinkAvail = s.sinkAvail := rfl
@[simp] theorem accept_work (s : State) : (accept s).work = some (acceptWork s) := rfl
@[simp] theorem accept_pos (s : State) : (accept s).pos = 0 := rfl
@[simp] theorem accept_cut (s : State) : (accept s).cut = none := rfl
@[simp] theorem accept_log (s : State) : (accept s).log = s.log := rfl
@[simp] theorem accept_host (s : State) : (accept s).host = s.host := rfl
@[simp] theorem accept_reads (s : State) : (accept s).reads = s.reads := rfl
@[simp] theorem accept_source (s : State) : (accept s).source = s.source := rfl
@[simp] theorem accept_echo (s : State) : (accept s).echo = s.echo := rfl
@[simp] theorem accept_samples (s : State) : (accept s).samples = s.samples := rfl
@[simp] theorem accept_draws (s : State) : (accept s).draws = s.draws + 1 := rfl
@[simp] theorem accept_refDevice (s : State) : (accept s).refDevice = s.refDevice := rfl
@[simp] theorem accept_dev (s : State) : (accept s).dev = s.dev := rfl

/-! ### latchConfig -/

@[simp] theorem latchConfig_params (c : PinConfig) (s : State) : (latchConfig c s).params = s.params := rfl
@[simp] theorem latchConfig_cfg (c : PinConfig) (s : State) : (latchConfig c s).cfg = c := rfl
@[simp] theorem latchConfig_mode (c : PinConfig) (s : State) : (latchConfig c s).mode = s.mode := rfl
@[simp] theorem latchConfig_busy (c : PinConfig) (s : State) : (latchConfig c s).busy = true := rfl
@[simp] theorem latchConfig_last (c : PinConfig) (s : State) : (latchConfig c s).last = s.last := rfl
@[simp] theorem latchConfig_result (c : PinConfig) (s : State) : (latchConfig c s).result = s.result := rfl
@[simp] theorem latchConfig_lines (c : PinConfig) (s : State) : (latchConfig c s).lines = carryLines s.cfg c s.lines := rfl
@[simp] theorem latchConfig_sinkAvail (c : PinConfig) (s : State) : (latchConfig c s).sinkAvail = s.sinkAvail := rfl
@[simp] theorem latchConfig_work (c : PinConfig) (s : State) : (latchConfig c s).work = none := rfl
@[simp] theorem latchConfig_pos (c : PinConfig) (s : State) : (latchConfig c s).pos = 0 := rfl
@[simp] theorem latchConfig_cut (c : PinConfig) (s : State) : (latchConfig c s).cut = none := rfl
@[simp] theorem latchConfig_log (c : PinConfig) (s : State) : (latchConfig c s).log = s.log := rfl
@[simp] theorem latchConfig_host (c : PinConfig) (s : State) : (latchConfig c s).host = s.host := rfl
@[simp] theorem latchConfig_reads (c : PinConfig) (s : State) : (latchConfig c s).reads = s.reads := rfl
@[simp] theorem latchConfig_source (c : PinConfig) (s : State) : (latchConfig c s).source = s.source := rfl
@[simp] theorem latchConfig_echo (c : PinConfig) (s : State) : (latchConfig c s).echo = s.echo := rfl
@[simp] theorem latchConfig_samples (c : PinConfig) (s : State) : (latchConfig c s).samples = s.samples := rfl
@[simp] theorem latchConfig_draws (c : PinConfig) (s : State) : (latchConfig c s).draws = s.draws := rfl
@[simp] theorem latchConfig_refDevice (c : PinConfig) (s : State) : (latchConfig c s).refDevice = s.refDevice := rfl
@[simp] theorem latchConfig_dev (c : PinConfig) (s : State) : (latchConfig c s).dev = s.dev := rfl

/-! ### resetDone -/

@[simp] theorem resetDone_params (s : State) : (resetDone s).params = s.params := rfl
@[simp] theorem resetDone_cfg (s : State) : (resetDone s).cfg = s.cfg := rfl
@[simp] theorem resetDone_mode (s : State) : (resetDone s).mode = .uninit := rfl
@[simp] theorem resetDone_busy (s : State) : (resetDone s).busy = false := rfl
@[simp] theorem resetDone_last (s : State) : (resetDone s).last = .ok := rfl
@[simp] theorem resetDone_result (s : State) : (resetDone s).result = 0 := rfl
@[simp] theorem resetDone_lines (s : State) : (resetDone s).lines = { s.lines with data := s.lines.data.map fun x => { x with out := .unknown } } := rfl
@[simp] theorem resetDone_sinkAvail (s : State) : (resetDone s).sinkAvail = s.sinkAvail := rfl
@[simp] theorem resetDone_work (s : State) : (resetDone s).work = s.work := rfl
@[simp] theorem resetDone_pos (s : State) : (resetDone s).pos = 0 := rfl
@[simp] theorem resetDone_cut (s : State) : (resetDone s).cut = s.cut := rfl
@[simp] theorem resetDone_log (s : State) : (resetDone s).log = s.log := rfl
@[simp] theorem resetDone_host (s : State) : (resetDone s).host = s.host := rfl
@[simp] theorem resetDone_reads (s : State) : (resetDone s).reads = s.reads := rfl
@[simp] theorem resetDone_source (s : State) : (resetDone s).source = s.source := rfl
@[simp] theorem resetDone_echo (s : State) : (resetDone s).echo = s.echo := rfl
@[simp] theorem resetDone_samples (s : State) : (resetDone s).samples = s.samples := rfl
@[simp] theorem resetDone_draws (s : State) : (resetDone s).draws = s.draws := rfl
@[simp] theorem resetDone_refDevice (s : State) : (resetDone s).refDevice = s.refDevice := rfl
@[simp] theorem resetDone_dev (s : State) : (resetDone s).dev = s.dev := rfl

/-! ### offerWord -/

@[simp] theorem offerWord_params (w : CmdWord) (s : State) : (offerWord w s).params = s.params := rfl
@[simp] theorem offerWord_cfg (w : CmdWord) (s : State) : (offerWord w s).cfg = s.cfg := rfl
@[simp] theorem offerWord_mode (w : CmdWord) (s : State) : (offerWord w s).mode = s.mode := rfl
@[simp] theorem offerWord_busy (w : CmdWord) (s : State) : (offerWord w s).busy = s.busy := rfl
@[simp] theorem offerWord_last (w : CmdWord) (s : State) : (offerWord w s).last = s.last := rfl
@[simp] theorem offerWord_result (w : CmdWord) (s : State) : (offerWord w s).result = s.result := rfl
@[simp] theorem offerWord_lines (w : CmdWord) (s : State) : (offerWord w s).lines = s.lines := rfl
@[simp] theorem offerWord_sinkAvail (w : CmdWord) (s : State) : (offerWord w s).sinkAvail = s.sinkAvail := rfl
@[simp] theorem offerWord_work (w : CmdWord) (s : State) : (offerWord w s).work = s.work := rfl
@[simp] theorem offerWord_pos (w : CmdWord) (s : State) : (offerWord w s).pos = s.pos := rfl
@[simp] theorem offerWord_cut (w : CmdWord) (s : State) : (offerWord w s).cut = s.cut := rfl
@[simp] theorem offerWord_log (w : CmdWord) (s : State) : (offerWord w s).log = s.log := rfl
@[simp] theorem offerWord_host (w : CmdWord) (s : State) : (offerWord w s).host = { after := none, act := .write 0 w } :: s.host := rfl
@[simp] theorem offerWord_reads (w : CmdWord) (s : State) : (offerWord w s).reads = s.reads := rfl
@[simp] theorem offerWord_source (w : CmdWord) (s : State) : (offerWord w s).source = s.source := rfl
@[simp] theorem offerWord_echo (w : CmdWord) (s : State) : (offerWord w s).echo = s.echo := rfl
@[simp] theorem offerWord_samples (w : CmdWord) (s : State) : (offerWord w s).samples = s.samples := rfl
@[simp] theorem offerWord_draws (w : CmdWord) (s : State) : (offerWord w s).draws = s.draws := rfl
@[simp] theorem offerWord_refDevice (w : CmdWord) (s : State) : (offerWord w s).refDevice = s.refDevice := rfl
@[simp] theorem offerWord_dev (w : CmdWord) (s : State) : (offerWord w s).dev = s.dev := rfl

/-! ### setMode -/

@[simp] theorem setMode_params (m : BusMode) (s : State) : (setMode m s).params = s.params := by unfold setMode; split <;> rfl
@[simp] theorem setMode_cfg (m : BusMode) (s : State) : (setMode m s).cfg = s.cfg := by unfold setMode; split <;> rfl
@[simp] theorem setMode_mode (m : BusMode) (s : State) : (setMode m s).mode = if live s then m else s.mode := by unfold setMode; split <;> rfl
@[simp] theorem setMode_busy (m : BusMode) (s : State) : (setMode m s).busy = s.busy := by unfold setMode; split <;> rfl
@[simp] theorem setMode_last (m : BusMode) (s : State) : (setMode m s).last = s.last := by unfold setMode; split <;> rfl
@[simp] theorem setMode_result (m : BusMode) (s : State) : (setMode m s).result = s.result := by unfold setMode; split <;> rfl
@[simp] theorem setMode_lines (m : BusMode) (s : State) : (setMode m s).lines = s.lines := by unfold setMode; split <;> rfl
@[simp] theorem setMode_sinkAvail (m : BusMode) (s : State) : (setMode m s).sinkAvail = s.sinkAvail := by unfold setMode; split <;> rfl
@[simp] theorem setMode_work (m : BusMode) (s : State) : (setMode m s).work = s.work := by unfold setMode; split <;> rfl
@[simp] theorem setMode_pos (m : BusMode) (s : State) : (setMode m s).pos = s.pos := by unfold setMode; split <;> rfl
@[simp] theorem setMode_cut (m : BusMode) (s : State) : (setMode m s).cut = s.cut := by unfold setMode; split <;> rfl
@[simp] theorem setMode_log (m : BusMode) (s : State) : (setMode m s).log = s.log := by unfold setMode; split <;> rfl
@[simp] theorem setMode_host (m : BusMode) (s : State) : (setMode m s).host = s.host := by unfold setMode; split <;> rfl
@[simp] theorem setMode_reads (m : BusMode) (s : State) : (setMode m s).reads = s.reads := by unfold setMode; split <;> rfl
@[simp] theorem setMode_source (m : BusMode) (s : State) : (setMode m s).source = s.source := by unfold setMode; split <;> rfl
@[simp] theorem setMode_echo (m : BusMode) (s : State) : (setMode m s).echo = s.echo := by unfold setMode; split <;> rfl
@[simp] theorem setMode_samples (m : BusMode) (s : State) : (setMode m s).samples = s.samples := by unfold setMode; split <;> rfl
@[simp] theorem setMode_draws (m : BusMode) (s : State) : (setMode m s).draws = s.draws := by unfold setMode; split <;> rfl
@[simp] theorem setMode_refDevice (m : BusMode) (s : State) : (setMode m s).refDevice = s.refDevice := by unfold setMode; split <;> rfl
@[simp] theorem setMode_dev (m : BusMode) (s : State) : (setMode m s).dev = s.dev := by unfold setMode; split <;> rfl

/-! ### deviceOnWe -/

@[simp] theorem deviceOnWe_params (b : Bool) (s : State) : (deviceOnWe b s).params = s.params := by unfold deviceOnWe; split <;> rfl
@[simp] theorem deviceOnWe_cfg (b : Bool) (s : State) : (deviceOnWe b s).cfg = s.cfg := by unfold deviceOnWe; split <;> rfl
@[simp] theorem deviceOnWe_mode (b : Bool) (s : State) : (deviceOnWe b s).mode = s.mode := by unfold deviceOnWe; split <;> rfl
@[simp] theorem deviceOnWe_busy (b : Bool) (s : State) : (deviceOnWe b s).busy = s.busy := by unfold deviceOnWe; split <;> rfl
@[simp] theorem deviceOnWe_last (b : Bool) (s : State) : (deviceOnWe b s).last = s.last := by unfold deviceOnWe; split <;> rfl
@[simp] theorem deviceOnWe_result (b : Bool) (s : State) : (deviceOnWe b s).result = s.result := by unfold deviceOnWe; split <;> rfl
@[simp] theorem deviceOnWe_lines (b : Bool) (s : State) : (deviceOnWe b s).lines = s.lines := by unfold deviceOnWe; split <;> rfl
@[simp] theorem deviceOnWe_sinkAvail (b : Bool) (s : State) : (deviceOnWe b s).sinkAvail = s.sinkAvail := by unfold deviceOnWe; split <;> rfl
@[simp] theorem deviceOnWe_work (b : Bool) (s : State) : (deviceOnWe b s).work = s.work := by unfold deviceOnWe; split <;> rfl
@[simp] theorem deviceOnWe_pos (b : Bool) (s : State) : (deviceOnWe b s).pos = s.pos := by unfold deviceOnWe; split <;> rfl
@[simp] theorem deviceOnWe_cut (b : Bool) (s : State) : (deviceOnWe b s).cut = s.cut := by unfold deviceOnWe; split <;> rfl
@[simp] theorem deviceOnWe_log (b : Bool) (s : State) : (deviceOnWe b s).log = s.log := by unfold deviceOnWe; split <;> rfl
@[simp] theorem deviceOnWe_host (b : Bool) (s : State) : (deviceOnWe b s).host = s.host := by unfold deviceOnWe; split <;> rfl
@[simp] theorem deviceOnWe_reads (b : Bool) (s : State) : (deviceOnWe b s).reads = s.reads := by unfold deviceOnWe; split <;> rfl
@[simp] theorem deviceOnWe_source (b : Bool) (s : State) : (deviceOnWe b s).source = s.source := by unfold deviceOnWe; split <;> rfl
@[simp] theorem deviceOnWe_echo (b : Bool) (s : State) : (deviceOnWe b s).echo = s.echo := by unfold deviceOnWe; split <;> rfl
@[simp] theorem deviceOnWe_samples (b : Bool) (s : State) : (deviceOnWe b s).samples = s.samples := by unfold deviceOnWe; split <;> rfl
@[simp] theorem deviceOnWe_refDevice (b : Bool) (s : State) : (deviceOnWe b s).refDevice = s.refDevice := by unfold deviceOnWe; split <;> rfl

/-! ### deviceOnDrive -/

@[simp] theorem deviceOnDrive_params (l : LineId) (b : Bool) (s : State) : (deviceOnDrive l b s).params = s.params := by unfold deviceOnDrive; split <;> first | rfl | simp
@[simp] theorem deviceOnDrive_cfg (l : LineId) (b : Bool) (s : State) : (deviceOnDrive l b s).cfg = s.cfg := by unfold deviceOnDrive; split <;> first | rfl | simp
@[simp] theorem deviceOnDrive_mode (l : LineId) (b : Bool) (s : State) : (deviceOnDrive l b s).mode = s.mode := by unfold deviceOnDrive; split <;> first | rfl | simp
@[simp] theorem deviceOnDrive_busy (l : LineId) (b : Bool) (s : State) : (deviceOnDrive l b s).busy = s.busy := by unfold deviceOnDrive; split <;> first | rfl | simp
@[simp] theorem deviceOnDrive_last (l : LineId) (b : Bool) (s : State) : (deviceOnDrive l b s).last = s.last := by unfold deviceOnDrive; split <;> first | rfl | simp
@[simp] theorem deviceOnDrive_result (l : LineId) (b : Bool) (s : State) : (deviceOnDrive l b s).result = s.result := by unfold deviceOnDrive; split <;> first | rfl | simp
@[simp] theorem deviceOnDrive_lines (l : LineId) (b : Bool) (s : State) : (deviceOnDrive l b s).lines = s.lines := by unfold deviceOnDrive; split <;> first | rfl | simp
@[simp] theorem deviceOnDrive_sinkAvail (l : LineId) (b : Bool) (s : State) : (deviceOnDrive l b s).sinkAvail = s.sinkAvail := by unfold deviceOnDrive; split <;> first | rfl | simp
@[simp] theorem deviceOnDrive_work (l : LineId) (b : Bool) (s : State) : (deviceOnDrive l b s).work = s.work := by unfold deviceOnDrive; split <;> first | rfl | simp
@[simp] theorem deviceOnDrive_pos (l : LineId) (b : Bool) (s : State) : (deviceOnDrive l b s).pos = s.pos := by unfold deviceOnDrive; split <;> first | rfl | simp
@[simp] theorem deviceOnDrive_cut (l : LineId) (b : Bool) (s : State) : (deviceOnDrive l b s).cut = s.cut := by unfold deviceOnDrive; split <;> first | rfl | simp
@[simp] theorem deviceOnDrive_log (l : LineId) (b : Bool) (s : State) : (deviceOnDrive l b s).log = s.log := by unfold deviceOnDrive; split <;> first | rfl | simp
@[simp] theorem deviceOnDrive_host (l : LineId) (b : Bool) (s : State) : (deviceOnDrive l b s).host = s.host := by unfold deviceOnDrive; split <;> first | rfl | simp
@[simp] theorem deviceOnDrive_reads (l : LineId) (b : Bool) (s : State) : (deviceOnDrive l b s).reads = s.reads := by unfold deviceOnDrive; split <;> first | rfl | simp
@[simp] theorem deviceOnDrive_source (l : LineId) (b : Bool) (s : State) : (deviceOnDrive l b s).source = s.source := by unfold deviceOnDrive; split <;> first | rfl | simp
@[simp] theorem deviceOnDrive_echo (l : LineId) (b : Bool) (s : State) : (deviceOnDrive l b s).echo = s.echo := by unfold deviceOnDrive; split <;> first | rfl | simp
@[simp] theorem deviceOnDrive_samples (l : LineId) (b : Bool) (s : State) : (deviceOnDrive l b s).samples = s.samples := by unfold deviceOnDrive; split <;> first | rfl | simp
@[simp] theorem deviceOnDrive_refDevice (l : LineId) (b : Bool) (s : State) : (deviceOnDrive l b s).refDevice = s.refDevice := by unfold deviceOnDrive; split <;> first | rfl | simp

/-! ### afterSample -/

@[simp] theorem afterSample_params (p : Fin 8) (s : State) : (afterSample p s).params = s.params := by unfold afterSample; split <;> rfl
@[simp] theorem afterSample_cfg (p : Fin 8) (s : State) : (afterSample p s).cfg = s.cfg := by unfold afterSample; split <;> rfl
@[simp] theorem afterSample_mode (p : Fin 8) (s : State) : (afterSample p s).mode = s.mode := by unfold afterSample; split <;> rfl
@[simp] theorem afterSample_busy (p : Fin 8) (s : State) : (afterSample p s).busy = s.busy := by unfold afterSample; split <;> rfl
@[simp] theorem afterSample_last (p : Fin 8) (s : State) : (afterSample p s).last = s.last := by unfold afterSample; split <;> rfl
@[simp] theorem afterSample_result (p : Fin 8) (s : State) : (afterSample p s).result = s.result := by unfold afterSample; split <;> rfl
@[simp] theorem afterSample_lines (p : Fin 8) (s : State) : (afterSample p s).lines = s.lines := by unfold afterSample; split <;> rfl
@[simp] theorem afterSample_sinkAvail (p : Fin 8) (s : State) : (afterSample p s).sinkAvail = s.sinkAvail := by unfold afterSample; split <;> rfl
@[simp] theorem afterSample_work (p : Fin 8) (s : State) : (afterSample p s).work = s.work := by unfold afterSample; split <;> rfl
@[simp] theorem afterSample_pos (p : Fin 8) (s : State) : (afterSample p s).pos = s.pos := by unfold afterSample; split <;> rfl
@[simp] theorem afterSample_cut (p : Fin 8) (s : State) : (afterSample p s).cut = s.cut := by unfold afterSample; split <;> rfl
@[simp] theorem afterSample_log (p : Fin 8) (s : State) : (afterSample p s).log = s.log := by unfold afterSample; split <;> rfl
@[simp] theorem afterSample_host (p : Fin 8) (s : State) : (afterSample p s).host = s.host := by unfold afterSample; split <;> rfl
@[simp] theorem afterSample_reads (p : Fin 8) (s : State) : (afterSample p s).reads = s.reads := by unfold afterSample; split <;> rfl
@[simp] theorem afterSample_source (p : Fin 8) (s : State) : (afterSample p s).source = s.source := by unfold afterSample; split <;> rfl
@[simp] theorem afterSample_echo (p : Fin 8) (s : State) : (afterSample p s).echo = s.echo := by unfold afterSample; split <;> rfl
@[simp] theorem afterSample_samples (p : Fin 8) (s : State) : (afterSample p s).samples = if deviceDrives p s then s.samples else s.samples.tail := by unfold afterSample; split <;> rfl
@[simp] theorem afterSample_draws (p : Fin 8) (s : State) : (afterSample p s).draws = if deviceDrives p s then s.draws else s.draws + 1 := by unfold afterSample; split <;> rfl
@[simp] theorem afterSample_refDevice (p : Fin 8) (s : State) : (afterSample p s).refDevice = s.refDevice := by unfold afterSample; split <;> rfl
@[simp] theorem afterSample_dev (p : Fin 8) (s : State) : (afterSample p s).dev = s.dev := by unfold afterSample; split <;> rfl

end Sys2Proof.Laws
end

