-- ==== Sys2Proof/Laws/Lines.lean ====
section
/-! SUPPORT. The line record: reading a line after a line was written, and what the bus carries. -/

namespace Sys2Proof.Laws

open Sys2Proof Sys2Proof.Machine

theorem getLine_putLine (ls : Lines) (l m : LineId) (x : Line) :
    getLine (putLine ls l x) m = if m = l then x else getLine ls m := by
  cases l <;> cases m <;> simp [getLine, putLine, Vector.getElem_set, Fin.ext_iff, eq_comm]

theorem getLine_putDir (ls : Lines) (l m : LineId) (d : PinDir) :
    getLine (putDir l d ls) m = if m = l then { getLine ls l with dir := dirOf d } else getLine ls m :=
  getLine_putLine ..

theorem getLine_putOut (ls : Lines) (l m : LineId) (b : Bool) :
    getLine (putOut l b ls) m = if m = l then { getLine ls l with out := outOf b } else getLine ls m :=
  getLine_putLine ..

theorem addr_eq_getLine (ls : Lines) (k : Fin 15) : ls.addr[k] = getLine ls (.addr k) := rfl
theorem data_eq_getLine (ls : Lines) (p : Fin 8) : ls.data[p] = getLine ls (.data p) := rfl
theorem we_eq_getLine (ls : Lines) : ls.we = getLine ls .we := rfl
theorem oe_eq_getLine (ls : Lines) : ls.oe = getLine ls .oe := rfl

/-- Two line records with the same lines are the same record. -/
theorem lines_ext {a b : Lines} (h : ∀ l, getLine a l = getLine b l) : a = b := by
  obtain ⟨aa, ad, aw, ao⟩ := a
  obtain ⟨ba, bd, bw, bo⟩ := b
  have h1 : aa = ba := Vector.ext fun i hi => h (.addr ⟨i, hi⟩)
  have h2 : ad = bd := Vector.ext fun i hi => h (.data ⟨i, hi⟩)
  have h3 : aw = bw := h .we
  have h4 : ao = bo := h .oe
  subst h1 h2 h3 h4
  rfl

@[simp] theorem levelOf_outOf (f b : Bool) : levelOf f (outOf b) = b := by cases b <;> rfl

@[simp] theorem outOf_ne_unknown (b : Bool) : outOf b ≠ .unknown := by cases b <;> simp [outOf]

/-- The address bus carries a where line A[k] holds bit k of a (20_memory.md R61). -/
theorem busA_of_driven {free : BitVec 15} {ls : Lines} {a : Addr}
    (h : ∀ k : Fin 15, ls.addr[k].out = outOf (a.getLsbD k)) : busA free ls = a.setWidth 15 := by
  apply BitVec.eq_of_getLsbD_eq
  intro i hi
  simp only [busA, BitVec.getLsbD_setWidth, hi, decide_true, Bool.true_and]
  rw [BitVec.getLsbD_eq_getElem hi]
  have e : ls.addr[i].out = outOf (a.getLsbD i) := h ⟨i, hi⟩
  simp [e]

/-- The data bus carries v where line D[p] is an output and holds bit 7 - p of v (20_memory.md R62). -/
theorem busD_of_driven {free : Byte} {ls : Lines} {v : Byte} (hd : ∀ p : Fin 8, ls.data[p].dir = .output)
    (h : ∀ p : Fin 8, ls.data[p].out = outOf (v.getLsbD (7 - p))) : busD free ls = v := by
  apply BitVec.eq_of_getLsbD_eq
  intro i hi
  rw [busD, if_pos hd, BitVec.getLsbD_eq_getElem hi]
  have e : ls.data[7 - i].out = outOf (v.getLsbD (7 - (7 - i))) := h ⟨7 - i, by omega⟩
  rw [show 7 - (7 - i) = i by omega] at e
  simp [e]

theorem location_eq (a : Addr) : location a = (a.setWidth 15).toNat := by
  simp only [location, BitVec.toNat_and, BitVec.toNat_setWidth]
  exact Nat.and_two_pow_sub_one_eq_mod a.toNat 15

theorem location_lt (a : Addr) : location a < 0x8000 := by
  rw [location_eq]; exact (a.setWidth 15).isLt

end Sys2Proof.Laws
end

