-- ==== Sys2Proof/Laws/Memory.lean ====
section
/-! SUPPORT. The device memory: read after write, and the canonical form kept by every write. -/

namespace Sys2Proof.Laws

open Sys2Proof Sys2Proof.Machine

theorem memory_read_write (m : Memory) (a : Nat) (v : Byte) (b : Nat) :
    Memory.read (Memory.write m a v) b = if b = a then some v else Memory.read m b := by
  induction m with
  | nil =>
    simp only [Memory.write, Memory.read, eq_comm]
  | cons c rest ih =>
    obtain ⟨x, w⟩ := c
    simp only [Memory.write]
    split
    · simp only [Memory.read, eq_comm]
    · split
      · subst a
        simp only [Memory.read]
        by_cases h : x = b
        · simp [h]
        · simp [h, Ne.symm h]
      · simp only [Memory.read, ih]
        by_cases h : x = b
        · subst h; simp; omega
        · simp [h]

@[simp] theorem memory_read_write_same (m : Memory) (a : Nat) (v : Byte) :
    Memory.read (Memory.write m a v) a = some v := by simp [memory_read_write]

theorem memory_read_write_other (m : Memory) (a : Nat) (v : Byte) (b : Nat) (h : b ≠ a) :
    Memory.read (Memory.write m a v) b = Memory.read m b := by simp [memory_read_write, h]

@[simp] theorem deviceByte_write_same (m : Memory) (a : Nat) (v : Byte) :
    deviceByte (Memory.write m a v) a = v := by simp [deviceByte]

theorem deviceByte_write_other (m : Memory) (a : Nat) (v : Byte) (b : Nat) (h : b ≠ a) :
    deviceByte (Memory.write m a v) b = deviceByte m b := by
  simp [deviceByte, memory_read_write_other _ _ _ _ h]

/-- A cell of the memory after a write is the written one or was there before. -/
theorem mem_memory_write {m : Memory} {a : Nat} {v : Byte} {c : Host.Cell} (h : c ∈ Memory.write m a v) :
    c = (a, v) ∨ c ∈ m := by
  induction m with
  | nil => simpa [Memory.write] using h
  | cons d rest ih =>
    obtain ⟨x, w⟩ := d
    simp only [Memory.write] at h
    split at h
    · simpa using h
    · split at h
      · rcases List.mem_cons.1 h with h | h
        · exact .inl h
        · exact .inr (List.mem_cons_of_mem _ h)
      · rcases List.mem_cons.1 h with h | h
        · exact .inr (by simp [h])
        · exact (ih h).imp_right (List.mem_cons_of_mem _)

/-- Every write keeps the canonical form. -/
theorem memory_write_wf {m : Memory} (h : Memory.wf m) {a : Nat} (ha : a < 0x8000) (v : Byte) :
    Memory.wf (Memory.write m a v) := by
  refine ⟨?_, fun c hc => ?_⟩
  · have hp := h.1
    clear h
    induction m with
    | nil => simp [Memory.write]
    | cons d rest ih =>
      obtain ⟨x, w⟩ := d
      have hr := List.pairwise_cons.1 hp
      simp only [Memory.write]
      split
      · rename_i hlt
        refine List.pairwise_cons.2 ⟨fun y hy => ?_, hp⟩
        rcases List.mem_cons.1 hy with rfl | hy
        · exact hlt
        · exact Nat.lt_trans hlt (hr.1 y hy)
      · split
        · rename_i heq
          subst heq
          exact List.pairwise_cons.2 ⟨hr.1, hr.2⟩
        · refine List.pairwise_cons.2 ⟨fun y hy => ?_, ih hr.2⟩
          rcases mem_memory_write hy with rfl | hy
          · show x < a
            omega
          · exact hr.1 y hy
  · rcases mem_memory_write hc with rfl | hc
    · exact ha
    · exact h.2 c hc

end Sys2Proof.Laws
end

