-- ==== Sys2Proof/Laws/Block.lean ====
section
/-! SUPPORT. What one event does, whatever inputs fall around it: the part of the state a command computes with
(`blockOf`), the trace it leaves, and how it can be cut short. Every procedure of the sequencer is a `Proc`, and
procedures compose. -/

namespace Sys2Proof.Laws

open Sys2Proof Sys2Proof.Machine Sys2Proof.Safety

/-- The state without what inputs and ECHO text may change between two events. -/
def blockOf (s : State) : State :=
  { s with cut := none, log := [], pos := 0, host := [], reads := [], echo := ⟨[], 0⟩ }

@[simp] theorem blockOf_params (s : State) : (blockOf s).params = s.params := rfl
@[simp] theorem blockOf_cfg (s : State) : (blockOf s).cfg = s.cfg := rfl
@[simp] theorem blockOf_mode (s : State) : (blockOf s).mode = s.mode := rfl
@[simp] theorem blockOf_busy (s : State) : (blockOf s).busy = s.busy := rfl
@[simp] theorem blockOf_last (s : State) : (blockOf s).last = s.last := rfl
@[simp] theorem blockOf_result (s : State) : (blockOf s).result = s.result := rfl
@[simp] theorem blockOf_lines (s : State) : (blockOf s).lines = s.lines := rfl
@[simp] theorem blockOf_sinkAvail (s : State) : (blockOf s).sinkAvail = s.sinkAvail := rfl
@[simp] theorem blockOf_work (s : State) : (blockOf s).work = s.work := rfl
@[simp] theorem blockOf_source (s : State) : (blockOf s).source = s.source := rfl
@[simp] theorem blockOf_samples (s : State) : (blockOf s).samples = s.samples := rfl
@[simp] theorem blockOf_draws (s : State) : (blockOf s).draws = s.draws := rfl
@[simp] theorem blockOf_refDevice (s : State) : (blockOf s).refDevice = s.refDevice := rfl
@[simp] theorem blockOf_dev (s : State) : (blockOf s).dev = s.dev := rfl
@[simp] theorem blockOf_workOf (s : State) : workOf (blockOf s) = workOf s := rfl
@[simp] theorem blockOf_idem (s : State) : blockOf (blockOf s) = blockOf s := rfl

theorem live_iff {s : State} : live s = true ↔ s.cut = none := by simp [live, Option.isNone_iff_eq_none]

theorem not_live_iff {s : State} : live s = false ↔ s.cut ≠ none := by
  rw [Ne, ← live_iff]; simp

/-- The trace seen through a filter. -/
def view (q : Event → Bool) (s : State) : List Event := (traceOf s).filter q

/-- The filter sees no ECHO text: there is none, or it hides text. -/
def Silent (q : Event → Bool) (s : State) : Prop := (workOf s).echoing = false ∨ ∀ c, q (.out c) = false

/-- A cut never carries a refused configuration. -/
def cutOk : Cut → Prop
  | .reset c => c.wellFormed = true
  | _ => True

theorem resetCut_ok (c : PinConfig) : cutOk (resetCut c) := by
  unfold resetCut; split <;> simp_all [cutOk]

/-- The reads added between two states, each made while the block was as in s. -/
def ReadsFrom (s t : State) : Prop :=
  ∃ rs, t.reads = rs ++ s.reads ∧ ∀ r ∈ rs, r.2 = readRegister r.1 s

/-- The inputs of s that are not still to come in t were used up, and a reset that cut t short was one of them. -/
structure From (s t : State) : Prop where
  host : t.host <:+ s.host
  reset : ∀ c, t.cut = some (.reset c) → resetUsed s t

theorem From.refl {s : State} (h : live s = true) : From s s :=
  ⟨List.suffix_rfl, fun c hc => by rw [live_iff.1 h] at hc; cases hc⟩

/-- A reset used up on the way was used up. -/
theorem resetUsed_trans {s t u : State} (h : t.host <:+ s.host) (k : resetUsed t u) : resetUsed s u := by
  obtain ⟨used, e⟩ := h
  obtain ⟨used', e', i, hi, hc⟩ := k
  exact ⟨used ++ used', by rw [← e, e', List.append_assoc], i, List.mem_append_right _ hi, hc⟩

theorem resetUsed_mono {s t u : State} (h : resetUsed s t) (k : u.host <:+ t.host) : resetUsed s u := by
  obtain ⟨used, e, i, hi, hc⟩ := h
  obtain ⟨used', e'⟩ := k
  exact ⟨used ++ used', by rw [e, ← e', List.append_assoc], i, List.mem_append_left _ hi, hc⟩

/-- What was used up is one list, so the two exclude each other. -/
theorem noResetUsed_not {s t : State} (h : noResetUsed s t) : ¬ resetUsed s t := by
  rintro ⟨used, e, i, hi, c, hc⟩
  obtain ⟨used', e', hno⟩ := h
  rw [List.append_cancel_right (e.symm.trans e')] at hi
  exact hno i hi c hc

theorem From.congr {s t u : State} (h : From s t) (hh : u.host = t.host) (hc : u.cut = t.cut) : From s u :=
  ⟨by rw [hh]; exact h.host, fun c e => by unfold resetUsed; rw [hh]; exact h.reset c (hc ▸ e)⟩

theorem From.trans {s t u : State} (h : From s t) (k : From t u) : From s u :=
  ⟨k.host.trans h.host, fun c hc => resetUsed_trans h.host (k.reset c hc)⟩

/-- A state reached without any event of the command: inputs were admitted, ECHO text was emitted. -/
structure Between (s t : State) : Prop where
  origin : From s t
  block : blockOf t = blockOf s
  reads : ReadsFrom s t
  cut : t.cut = none ∧ t.host.length ≤ s.host.length ∨
    ∃ c, t.cut = some c ∧ cutOk c ∧ t.host.length < s.host.length
  trace : ∀ q, Silent q s → view q t = view q s
  quiet : quiet s = true → t.cut = none ∧ t.host = s.host ∧ t.reads = s.reads

theorem readRegister_block {s t : State} (h : blockOf t = blockOf s) (n : Nat) :
    readRegister n t = readRegister n s := by
  have h1 : t.last = s.last := by simpa using congrArg State.last h
  have h2 : t.mode = s.mode := by simpa using congrArg State.mode h
  have h3 : t.busy = s.busy := by simpa using congrArg State.busy h
  have h4 : t.result = s.result := by simpa using congrArg State.result h
  unfold readRegister statusByte
  rw [h1, h2, h3, h4]

theorem workOf_block {s t : State} (h : blockOf t = blockOf s) : workOf t = workOf s := by
  have h1 : t.work = s.work := by simpa using congrArg State.work h
  have h2 : t.sinkAvail = s.sinkAvail := by simpa using congrArg State.sinkAvail h
  unfold workOf
  rw [h1, h2]

theorem Between.refl {s : State} (h : live s = true) : Between s s where
  origin := From.refl h
  block := rfl
  reads := ⟨[], rfl, by simp⟩
  cut := .inl ⟨live_iff.1 h, le_rfl⟩
  trace := fun _ _ => rfl
  quiet := fun _ => ⟨live_iff.1 h, rfl, rfl⟩

theorem quiet_of_host {s t : State} (h : t.host = s.host) (hq : quiet s = true) : quiet t = true := by
  unfold quiet at *; rw [h]; exact hq

theorem Between.trans {s t u : State} (h1 : Between s t) (hl : live t = true) (h2 : Between t u) :
    Between s u where
  origin := h1.origin.trans h2.origin
  block := h2.block.trans h1.block
  reads := by
    obtain ⟨r1, e1, k1⟩ := h1.reads
    obtain ⟨r2, e2, k2⟩ := h2.reads
    refine ⟨r2 ++ r1, by rw [e2, e1, List.append_assoc], fun r hr => ?_⟩
    rcases List.mem_append.1 hr with hr | hr
    · rw [k2 r hr, readRegister_block h1.block]
    · exact k1 r hr
  cut := by
    have hle : t.host.length ≤ s.host.length := by
      rcases h1.cut with h | ⟨c, hc, _⟩
      · exact h.2
      · rw [live_iff.1 hl] at hc; cases hc
    rcases h2.cut with h | ⟨c, hc, ho, hlt⟩
    · exact .inl ⟨h.1, h.2.trans hle⟩
    · exact .inr ⟨c, hc, ho, by omega⟩
  trace := fun q hq => by
    have hq' : Silent q t := by unfold Silent at *; rw [workOf_block h1.block]; exact hq
    rw [h2.trace q hq', h1.trace q hq]
  quiet := fun hq => by
    obtain ⟨_, a, b⟩ := h1.quiet hq
    obtain ⟨c, d, e⟩ := h2.quiet (quiet_of_host a hq)
    exact ⟨c, d.trans a, e.trans b⟩

/-- Inputs admitted at a boundary: the block is as before, and a cut uses up an input. -/
theorem admit_between (q : List TimedInput) (s : State) (hl : live s = true) :
    blockOf (admitDue q s) = blockOf s ∧ ReadsFrom s (admitDue q s) ∧ (admitDue q s).log = s.log ∧
      (admitDue q s).echo = s.echo ∧
      ((admitDue q s).cut = none ∧ (admitDue q s).host.length ≤ q.length ∨
        ∃ c, (admitDue q s).cut = some c ∧ cutOk c ∧ (admitDue q s).host.length < q.length) := by
  induction q generalizing s with
  | nil => exact ⟨rfl, ⟨[], rfl, by simp⟩, rfl, rfl, .inl ⟨live_iff.1 hl, le_rfl⟩⟩
  | cons i rest ih =>
    have weaken : ∀ {t : State}, (t.cut = none ∧ t.host.length ≤ rest.length ∨
        ∃ c, t.cut = some c ∧ cutOk c ∧ t.host.length < rest.length) →
        (t.cut = none ∧ t.host.length ≤ (i :: rest).length ∨
          ∃ c, t.cut = some c ∧ cutOk c ∧ t.host.length < (i :: rest).length) := by
      intro t h
      rcases h with h | ⟨c, h1, h2, h3⟩
      · exact .inl ⟨h.1, by simp; omega⟩
      · exact .inr ⟨c, h1, h2, by simp; omega⟩
    have stop : ∀ c, cutOk c → blockOf (cutWith c rest s) = blockOf s ∧ ReadsFrom s (cutWith c rest s) ∧
        (cutWith c rest s).log = s.log ∧ (cutWith c rest s).echo = s.echo ∧
        ((cutWith c rest s).cut = none ∧ (cutWith c rest s).host.length ≤ (i :: rest).length ∨
          ∃ d, (cutWith c rest s).cut = some d ∧ cutOk d ∧
            (cutWith c rest s).host.length < (i :: rest).length) :=
      fun c hc => ⟨rfl, ⟨[], rfl, by simp⟩, rfl, rfl, .inr ⟨c, rfl, hc, by simp⟩⟩
    have pass : blockOf (admitDue rest s) = blockOf s ∧ ReadsFrom s (admitDue rest s) ∧ (admitDue rest s).log = s.log ∧
        (admitDue rest s).echo = s.echo ∧
        ((admitDue rest s).cut = none ∧ (admitDue rest s).host.length ≤ (i :: rest).length ∨
          ∃ d, (admitDue rest s).cut = some d ∧ cutOk d ∧ (admitDue rest s).host.length < (i :: rest).length) := by
      obtain ⟨a, b, c, d, e⟩ := ih s hl
      exact ⟨a, b, c, d, weaken e⟩
    unfold admitDue
    split
    · split
      · rename_i n _
        obtain ⟨a, ⟨rs, b, b'⟩, c, d, e⟩ := ih (recordRead n s) hl
        refine ⟨a, ⟨rs ++ [(n, readRegister n s)], by simpa using b, fun r hr => ?_⟩, c, d, weaken e⟩
        rcases List.mem_append.1 hr with hr | hr
        · exact b' r hr
        · simp only [List.mem_singleton] at hr; subst hr; rfl
      · exact stop _ trivial
      · exact pass
      · split
        · exact pass
        · exact stop _ trivial
      · exact stop _ (resetCut_ok _)
      · exact stop _ trivial
    · exact ⟨rfl, ⟨[], rfl, by simp⟩, rfl, rfl, .inl ⟨live_iff.1 hl, le_rfl⟩⟩

/-- The inputs left after a boundary are the last of those before it, and a reset that fell there was used up. -/
theorem admit_origin (q : List TimedInput) (s : State) (hl : live s = true) :
    (admitDue q s).host <:+ q ∧
      ∀ c, (admitDue q s).cut = some (.reset c) → resetUsed { s with host := q } (admitDue q s) := by
  induction q generalizing s with
  | nil =>
    refine ⟨List.suffix_rfl, fun c hc => ?_⟩
    have h1 : s.cut = some (.reset c) := hc
    rw [live_iff.1 hl] at h1; cases h1
  | cons i rest ih =>
    have pass : ∀ x, live x = true → (admitDue rest x).host <:+ i :: rest ∧
        ∀ c, (admitDue rest x).cut = some (.reset c) →
          resetUsed { s with host := i :: rest } (admitDue rest x) := fun x hl => by
      obtain ⟨a, b⟩ := ih x hl
      exact ⟨a.trans (List.suffix_cons _ _), fun c hc =>
        resetUsed_trans (t := { x with host := rest }) (List.suffix_cons _ _) (b c hc)⟩
    have stop : ∀ c, (∀ d, c = .reset d → i.act = .reset d) → (cutWith c rest s).host <:+ i :: rest ∧
        ∀ d, (cutWith c rest s).cut = some (.reset d) →
          resetUsed { s with host := i :: rest } (cutWith c rest s) := fun c hc =>
      ⟨List.suffix_cons _ _, fun d hd => ⟨[i], rfl, i, by simp, d, hc d (by injection hd)⟩⟩
    unfold admitDue
    split
    · split
      · exact pass _ hl
      · exact stop _ (fun d h => by cases h)
      · exact pass _ hl
      · split
        · exact pass _ hl
        · exact stop _ (fun d h => by cases h)
      · rename_i c h
        refine stop _ (fun d hd => ?_)
        unfold resetCut at hd
        split at hd
        · injection hd with hd; rw [h, hd]
        · cases hd
      · exact stop _ (fun d h => by cases h)
    · exact ⟨List.suffix_rfl, fun c hc => by
        have h1 : s.cut = some (.reset c) := hc
        rw [live_iff.1 hl] at h1; cases h1⟩

theorem admit_quiet (s : State) (hq : quiet s = true) : admitDue s.host s = s := by
  obtain ⟨⟩ := s
  rename_i host _ _ _ _ _ _ _
  cases host with
  | nil => rfl
  | cons i rest =>
    obtain ⟨after, act⟩ := i
    cases after with
    | none => rfl
    | some k => simp [quiet] at hq

theorem view_of_log {q : Event → Bool} {s t : State} (h : t.log = s.log) : view q t = view q s := by
  simp [view, traceOf, h]

theorem boundary_between (s : State) (hl : live s = true) : Between s (boundary s) := by
  rw [boundary, if_pos hl]
  obtain ⟨a, b, c, _, e⟩ := admit_between s.host s hl
  exact ⟨⟨(admit_origin s.host s hl).1, (admit_origin s.host s hl).2⟩, a, b, e, fun q _ => view_of_log c, fun hq => by
    rw [admit_quiet s hq]; exact ⟨live_iff.1 hl, rfl, rfl⟩⟩

theorem boundary_echo (s : State) (hl : live s = true) : (boundary s).echo = s.echo := by
  rw [boundary, if_pos hl]
  exact (admit_between s.host s hl).2.2.2.1

@[simp] theorem boundary_quiet {s : State} (hq : quiet s = true) : boundary s = s := by
  unfold boundary; split
  · exact admit_quiet s hq
  · rfl

theorem boundary_dead {s : State} (h : live s = false) : boundary s = s := by
  simp [boundary, h]

theorem guarded_dead {f : State → State} {s : State} (h : live s = false) : guarded f s = s := by
  simp [guarded, boundary_dead h, h]

theorem guarded_quiet {f : State → State} {s : State} (hq : quiet s = true) (hl : live s = true) :
    guarded f s = f s := by
  simp [guarded, hq, hl]

/-- A guarded action runs at a state the inputs of one boundary lead to, or is cut short there. -/
theorem guarded_cases (f : State → State) (s : State) (hl : live s = true) :
    ∃ t, Between s t ∧ t.echo = s.echo ∧ (live t = true ∧ guarded f s = f t ∨ live t = false ∧ guarded f s = t) := by
  refine ⟨boundary s, boundary_between s hl, boundary_echo s hl, ?_⟩
  unfold guarded
  cases h : live (boundary s)
  · exact .inr ⟨rfl, by simp⟩
  · exact .inl ⟨rfl, by simp⟩

theorem view_record {q : Event → Bool} {e : Event} {s : State} :
    view q (record e s) = view q s ++ [e].filter q := by
  simp [view, traceOf]

/-- One character of text is no event of the command. -/
theorem record_out_between {s t : State} (c : Byte) (h : Between s t)
    (he : (workOf s).echoing = true) : Between s (record (.out c) t) where
  origin := ⟨h.origin.host, h.origin.reset⟩
  block := h.block
  reads := h.reads
  cut := h.cut
  trace := fun q hq => by
    rcases hq with hq | hq
    · rw [he] at hq; cases hq
    · rw [view_record, h.trace q (.inr hq)]
      simp [hq]
  quiet := h.quiet

theorem emitText_dead {text : List Byte} {s : State} (h : live s = false) : emitText text s = s := by
  induction text with
  | nil => rfl
  | cons c text ih => rw [emitText, List.foldl_cons, guarded_dead h]; exact ih

theorem emitText_between {s : State} (text : List Byte) (hl : live s = true)
    (he : (workOf s).echoing = true) : Between s (emitText text s) := by
  induction text generalizing s with
  | nil => exact Between.refl hl
  | cons c text ih =>
    rw [emitText, List.foldl_cons, ← emitText]
    obtain ⟨t, hb, _, ⟨ht, e⟩ | ⟨ht, e⟩⟩ := guarded_cases (record (.out c)) s hl
    · have h1 := record_out_between c hb he
      rw [e]
      have hlive : live (record (.out c) t) = true := ht
      exact h1.trans hlive (ih hlive (by rw [workOf_block h1.block]; exact he))
    · rw [e, emitText_dead ht]; exact hb

/-- A chunk of ECHO text is emitted character by character. -/
theorem emitChunk_eq (text : List Byte) {s : State} (hl : live s = true) : emitChunk text s = emitText text s := by
  unfold emitChunk
  split
  · rename_i hh
    induction text generalizing s with
    | nil => simp [recordText, emitText]
    | cons c text ih =>
      have hq : quiet s = true := by simp [quiet, hh]
      have h1 : emitText (c :: text) s = emitText text (record (.out c) s) := by
        rw [emitText, List.foldl_cons, guarded_quiet hq hl]; rfl
      rw [h1, ← ih (s := record (.out c) s) hl hh]
      simp [recordText, record, Nat.add_comm, ← Nat.add_assoc]
  · rfl

theorem echoPoint_between (s : State) (hl : live s = true) : Between s (echoPoint s) := by
  unfold echoPoint
  split
  · rename_i h
    have he : (workOf s).echoing = true := by simp [echoing] at h; exact h.2
    have h1 : Between s { s with echo := s.echo.rest } :=
      ⟨⟨(From.refl hl).host, (From.refl hl).reset⟩, rfl, ⟨[], rfl, by simp⟩, .inl ⟨live_iff.1 hl, le_rfl⟩,
        fun _ _ => rfl, fun _ => ⟨live_iff.1 hl, rfl, rfl⟩⟩
    rw [emitChunk_eq _ (show live { s with echo := s.echo.rest } = true from hl)]
    exact h1.trans hl (emitText_between _ hl he)
  · exact Between.refl hl

theorem echoPoint_dead {s : State} (h : live s = false) : echoPoint s = s := by
  simp [echoPoint, echoing, h]

theorem issue_dead {f : State → State} {s : State} (h : live s = false) : issue f s = s := by
  rw [issue, echoPoint_dead h, guarded_dead h]

/-- One event runs at a state reached without any event of the command, or is cut short there. -/
theorem issue_cases (f : State → State) (s : State) (hl : live s = true) :
    ∃ t, Between s t ∧ (live t = true ∧ issue f s = f t ∨ live t = false ∧ issue f s = t) := by
  have h1 := echoPoint_between s hl
  cases h : live (echoPoint s)
  · exact ⟨echoPoint s, h1, .inr ⟨h, by rw [issue, guarded_dead h]⟩⟩
  · obtain ⟨t, h2, _, h3⟩ := guarded_cases f (echoPoint s) h
    exact ⟨t, h1.trans h h2, h3⟩

/-- With no ECHO text and no input the event just happens. -/
theorem issue_quiet {f : State → State} {s : State} (hq : quiet s = true) (hl : live s = true)
    (he : (workOf s).echoing = false) : issue f s = f s := by
  have : echoPoint s = s := by simp [echoPoint, echoing, he]
  rw [issue, this, guarded_quiet hq hl]

end Sys2Proof.Laws
end

