-- ==== Sys2Proof/Laws/Proc.lean ====
section
/-! SUPPORT. `Proc P g ev`: the one spec of a sequencer procedure P. If P is not cut short, it does g to the
block and leaves the events ev; a quiet host never cuts it short; a cut uses up an input. -/

namespace Sys2Proof.Laws

open Sys2Proof Sys2Proof.Machine Sys2Proof.Safety

/-- What no procedure of a command changes, cut short or not. -/
structure Core (s t : State) : Prop where
  cfg : t.cfg = s.cfg
  params : t.params = s.params
  sinkAvail : t.sinkAvail = s.sinkAvail
  refDevice : t.refDevice = s.refDevice
  busy : t.busy = s.busy
  last : t.last = s.last
  result : t.result = s.result
  mem : Memory.wf s.dev.mem → Memory.wf t.dev.mem

theorem Core.refl (s : State) : Core s s := ⟨rfl, rfl, rfl, rfl, rfl, rfl, rfl, id⟩

theorem Core.trans {s t u : State} (h : Core s t) (k : Core t u) : Core s u :=
  ⟨k.cfg.trans h.cfg, k.params.trans h.params, k.sinkAvail.trans h.sinkAvail, k.refDevice.trans h.refDevice,
    k.busy.trans h.busy, k.last.trans h.last, k.result.trans h.result, k.mem ∘ h.mem⟩

theorem Core.of_block {s t : State} (h : blockOf t = blockOf s) : Core s t where
  cfg := by simpa using congrArg State.cfg h
  params := by simpa using congrArg State.params h
  sinkAvail := by simpa using congrArg State.sinkAvail h
  refDevice := by simpa using congrArg State.refDevice h
  busy := by simpa using congrArg State.busy h
  last := by simpa using congrArg State.last h
  result := by simpa using congrArg State.result h
  mem := by
    have : t.dev = s.dev := by simpa using congrArg State.dev h
    rw [this]; exact id

/-- The reads added while BUSY shows it (10_state.md R43). -/
def BusyReads (s t : State) : Prop :=
  ∃ rs, t.reads = rs ++ s.reads ∧ ∀ r ∈ rs, r.1 = 1 → r.2.getLsbD 0 = s.busy

theorem BusyReads.refl (s : State) : BusyReads s s := ⟨[], rfl, by simp⟩

theorem BusyReads.trans {s t u : State} (h : BusyReads s t) (hb : t.busy = s.busy) (k : BusyReads t u) :
    BusyReads s u := by
  obtain ⟨r1, e1, k1⟩ := h
  obtain ⟨r2, e2, k2⟩ := k
  refine ⟨r2 ++ r1, by rw [e2, e1, List.append_assoc], fun r hr h1 => ?_⟩
  rcases List.mem_append.1 hr with hr | hr
  · rw [k2 r hr h1, hb]
  · exact k1 r hr h1

theorem statusByte_bit0 (s : State) : (statusByte s).getLsbD 0 = s.busy := by
  simp only [statusByte, BitVec.getLsbD_append]
  cases s.busy <;> simp

theorem ReadsFrom.busy {s t : State} (h : ReadsFrom s t) : BusyReads s t := by
  obtain ⟨rs, e, k⟩ := h
  refine ⟨rs, e, fun r hr h1 => ?_⟩
  rw [k r hr, h1]
  simp only [readRegister, BitVec.getLsbD_setWidth]
  rw [statusByte_bit0]
  rfl

/-- How a procedure may end: not cut, or cut with an input used up. -/
def Ends (s t : State) : Prop :=
  t.cut = none ∧ t.host.length ≤ s.host.length ∨ ∃ c, t.cut = some c ∧ cutOk c ∧ t.host.length < s.host.length

structure Proc (P g : State → State) (ev : State → List Event) : Prop where
  dead : ∀ s, live s = false → ∃ w, P s = { s with work := w }
  block : ∀ s, live s = true → live (P s) = true → blockOf (P s) = g (blockOf s)
  trace : ∀ q s, Silent q s → live s = true → live (P s) = true →
    view q (P s) = view q s ++ (ev (blockOf s)).filter q
  echoing : ∀ s, live s = true → live (P s) = true → (workOf (P s)).echoing = (workOf s).echoing
  quiet : ∀ s, quiet s = true → live s = true →
    live (P s) = true ∧ (P s).host = s.host ∧ (P s).reads = s.reads
  ends : ∀ s, live s = true → Ends s (P s)
  core : ∀ s, live s = true → Core s (P s)
  origin : ∀ s, live s = true → From s (P s)
  reads : ∀ s, live s = true → BusyReads s (P s)

theorem Proc.id : Proc (fun s => s) (fun b => b) (fun _ => []) where
  dead := fun s _ => ⟨s.work, rfl⟩
  block := fun _ _ _ => rfl
  trace := fun _ _ _ _ _ => by simp
  echoing := fun _ _ _ => rfl
  quiet := fun _ _ h => ⟨h, rfl, rfl⟩
  ends := fun _ h => .inl ⟨live_iff.1 h, le_rfl⟩
  core := fun s _ => Core.refl s
  origin := fun _ h => From.refl h
  reads := fun s _ => BusyReads.refl s

theorem Proc.comp {P g Q h : State → State} {ev ev' : State → List Event} (p : Proc P g ev)
    (q : Proc Q h ev') : Proc (fun s => Q (P s)) (fun b => h (g b)) (fun b => ev b ++ ev' (g b)) := by
  have back : ∀ s, live (Q (P s)) = true → live (P s) = true := by
    intro s hl
    cases hp : live (P s)
    · obtain ⟨w, hw⟩ := q.dead _ hp
      rw [hw] at hl
      have h2 : live (P s) = true := hl
      exact absurd h2 (by simp [hp])
    · rfl
  refine ⟨?_, ?_, ?_, ?_, ?_, ?_, ?_, ?_, ?_⟩
  · intro s hs
    obtain ⟨w, hw⟩ := p.dead s hs
    obtain ⟨w', hw'⟩ := q.dead (P s) (by rw [hw]; exact hs)
    exact ⟨w', by rw [hw', hw]⟩
  · intro s hs hl
    rw [q.block _ (back s hl) hl, p.block s hs (back s hl)]
  · intro f s hf hs hl
    have hb := back s hl
    have hf' : Silent f (P s) := by
      rcases hf with hf | hf
      · exact .inl ((p.echoing s hs hb).trans hf)
      · exact .inr hf
    rw [q.trace f _ hf' hb hl, p.trace f s hf hs hb, p.block s hs hb, List.filter_append, List.append_assoc]
  · intro s hs hl
    rw [q.echoing _ (back s hl) hl, p.echoing s hs (back s hl)]
  · intro s hq hs
    obtain ⟨a, b, c⟩ := p.quiet s hq hs
    obtain ⟨a', b', c'⟩ := q.quiet (P s) (quiet_of_host b hq) a
    exact ⟨a', b'.trans b, c'.trans c⟩
  · intro s hs
    cases hp : live (P s)
    · obtain ⟨w, hw⟩ := q.dead _ hp
      show Ends s (Q (P s))
      rw [hw]
      exact p.ends s hs
    · have h1 : (P s).host.length ≤ s.host.length := by
        rcases p.ends s hs with h | ⟨c, hc, _, hlt⟩
        · exact h.2
        · exact hlt.le
      rcases q.ends _ hp with h | ⟨c, hc, ho, hlt⟩
      · exact .inl ⟨h.1, h.2.trans h1⟩
      · exact .inr ⟨c, hc, ho, hlt.trans_le h1⟩
  · intro s hs
    cases hp : live (P s)
    · obtain ⟨w, hw⟩ := q.dead _ hp
      show Core s (Q (P s))
      rw [hw]
      have := p.core s hs
      exact ⟨this.cfg, this.params, this.sinkAvail, this.refDevice, this.busy, this.last, this.result, this.mem⟩
    · exact (p.core s hs).trans (q.core _ hp)
  · intro s hs
    cases hp : live (P s)
    · obtain ⟨w, hw⟩ := q.dead _ hp
      show From s (Q (P s))
      rw [hw]
      exact ⟨(p.origin s hs).host, (p.origin s hs).reset⟩
    · exact (p.origin s hs).trans (q.origin _ hp)
  · intro s hs
    cases hp : live (P s)
    · obtain ⟨w, hw⟩ := q.dead _ hp
      show BusyReads s (Q (P s))
      rw [hw]
      exact p.reads s hs
    · exact (p.reads s hs).trans (p.core s hs).busy (q.reads _ hp)

/-- A procedure that takes an argument from the block. -/
theorem Proc.arg {α : Type} {P g : α → State → State} {ev : α → State → List Event} (x : State → α)
    (hx : ∀ s, x (blockOf s) = x s) (p : ∀ a, Proc (P a) (g a) (ev a)) :
    Proc (fun s => P (x s) s) (fun b => g (x b) b) (fun b => ev (x b) b) where
  dead := fun s => (p (x s)).dead s
  block := fun s hs hl => by rw [(p (x s)).block s hs hl, hx]
  trace := fun q s hq hs hl => by rw [(p (x s)).trace q s hq hs hl, hx]
  echoing := fun s => (p (x s)).echoing s
  quiet := fun s => (p (x s)).quiet s
  ends := fun s => (p (x s)).ends s
  core := fun s => (p (x s)).core s
  origin := fun s => (p (x s)).origin s
  reads := fun s => (p (x s)).reads s

/-- A procedure chosen by a test on the block. -/
theorem Proc.ite {P g Q h : State → State} {ev ev' : State → List Event} (c : State → Prop) [DecidablePred c]
    (hc : ∀ s, c (blockOf s) ↔ c s) (p : Proc P g ev) (q : Proc Q h ev') :
    Proc (fun s => if c s then P s else Q s) (fun b => if c b then g b else h b)
      (fun b => if c b then ev b else ev' b) := by
  have := Proc.arg (P := fun a s => if a = true then P s else Q s) (g := fun a b => if a = true then g b else h b)
    (ev := fun a b => if a = true then ev b else ev' b) (fun s => decide (c s))
    (fun s => by simp [hc]) (fun a => by cases a <;> simpa)
  simpa using this

/-- Two procedures that agree while the command runs. -/
theorem Proc.congr {P P' g : State → State} {ev : State → List Event} (p : Proc P g ev)
    (h : ∀ s, live s = true → P' s = P s) (hd : ∀ s, live s = false → ∃ w, P' s = { s with work := w }) :
    Proc P' g ev where
  dead := hd
  block := fun s hs => by rw [h s hs]; exact p.block s hs
  trace := fun q s hq hs => by rw [h s hs]; exact p.trace q s hq hs
  echoing := fun s hs => by rw [h s hs]; exact p.echoing s hs
  quiet := fun s hq hs => by rw [h s hs]; exact p.quiet s hq hs
  ends := fun s hs => by rw [h s hs]; exact p.ends s hs
  core := fun s hs => by rw [h s hs]; exact p.core s hs
  origin := fun s hs => by rw [h s hs]; exact p.origin s hs
  reads := fun s hs => by rw [h s hs]; exact p.reads s hs

theorem Proc.eq {P g g' : State → State} {ev ev' : State → List Event} (p : Proc P g ev)
    (hg : ∀ b, g' b = g b) (he : ∀ b, ev' b = ev b) : Proc P g' ev' := by
  have h1 : g' = g := funext hg
  have h2 : ev' = ev := funext he
  rw [h1, h2]; exact p

/-- What an effect must be like to be the effect of one event. -/
structure Effect (eff : State → State) : Prop where
  block : ∀ s, blockOf (eff s) = eff (blockOf s)
  cut : ∀ s, (eff s).cut = s.cut
  host : ∀ s, (eff s).host = s.host
  reads : ∀ s, (eff s).reads = s.reads
  log : ∀ s, (eff s).log = s.log
  core : ∀ s, Core s (eff s)
  echoing : ∀ s, (workOf (eff s)).echoing = (workOf s).echoing

/-- A procedure that does one event where its inputs have led, or is cut short there. -/
theorem proc_of_run {P : State → State} {e : State → Event} {eff : State → State}
    (he : ∀ s, e (blockOf s) = e s) (h : Effect eff) (hd : ∀ s, live s = false → P s = s)
    (run : ∀ s, live s = true → ∃ t, Between s t ∧
      (live t = true ∧ P s = record (e t) (eff t) ∨ live t = false ∧ P s = t)) :
    Proc P eff (fun b => [e b]) := by
  have hlive : ∀ s, live (record (e s) (eff s)) = live s := fun s => by simp [live, h.cut]
  refine ⟨fun s hs => ⟨s.work, hd s hs⟩, ?_, ?_, ?_, ?_, ?_, ?_, ?_, ?_⟩
  · intro s hs hl
    obtain ⟨t, hb, ⟨ht, e'⟩ | ⟨ht, e'⟩⟩ := run s hs
    · rw [e']
      show blockOf (eff t) = _
      rw [h.block, hb.block]
    · rw [e', ht] at hl; cases hl
  · intro q s hq hs hl
    obtain ⟨t, hb, ⟨ht, e'⟩ | ⟨ht, e'⟩⟩ := run s hs
    · have h1 : e t = e (blockOf s) := by rw [← he t, hb.block]
      rw [e', view_record, view_of_log (h.log t), hb.trace q hq, h1]
    · rw [e', ht] at hl; cases hl
  · intro s hs hl
    obtain ⟨t, hb, ⟨ht, e'⟩ | ⟨ht, e'⟩⟩ := run s hs
    · rw [e']
      show (workOf (eff t)).echoing = _
      rw [h.echoing, workOf_block hb.block]
    · rw [e', ht] at hl; cases hl
  · intro s hq hs
    obtain ⟨t, hb, ⟨ht, e'⟩ | ⟨ht, e'⟩⟩ := run s hs
    · obtain ⟨_, a, b⟩ := hb.quiet hq
      rw [e', hlive]
      exact ⟨ht, by simpa [h.host] using a, by simpa [h.reads] using b⟩
    · have := (hb.quiet hq).1
      rw [live_iff.2 this] at ht; cases ht
  · intro s hs
    obtain ⟨t, hb, ⟨ht, e'⟩ | ⟨ht, e'⟩⟩ := run s hs
    · rw [e']
      rcases hb.cut with hc | ⟨c, hc, _⟩
      · exact .inl ⟨by simpa [h.cut] using hc.1, by simpa [h.host] using hc.2⟩
      · rw [live_iff.1 ht] at hc; cases hc
    · rw [e']; exact hb.cut
  · intro s hs
    obtain ⟨t, hb, ⟨ht, e'⟩ | ⟨ht, e'⟩⟩ := run s hs
    · rw [e']
      have k := (Core.of_block hb.block).trans (h.core t)
      exact ⟨k.cfg, k.params, k.sinkAvail, k.refDevice, k.busy, k.last, k.result, k.mem⟩
    · rw [e']; exact Core.of_block hb.block
  · intro s hs
    obtain ⟨t, hb, ⟨ht, e'⟩ | ⟨ht, e'⟩⟩ := run s hs
    · rw [e']
      exact hb.origin.congr (h.host t) (h.cut t)
    · rw [e']; exact hb.origin
  · intro s hs
    obtain ⟨t, hb, ⟨ht, e'⟩ | ⟨ht, e'⟩⟩ := run s hs
    · rw [e']
      obtain ⟨rs, a, b⟩ := hb.reads.busy
      exact ⟨rs, by simpa [h.reads] using a, b⟩
    · rw [e']; exact hb.reads.busy

/-- One event. -/
theorem proc_issue {e : State → Event} {eff : State → State} (he : ∀ s, e (blockOf s) = e s)
    (h : Effect eff) : Proc (issue fun s => record (e s) (eff s)) eff (fun b => [e b]) :=
  proc_of_run he h (fun _ => issue_dead) (fun s hs => issue_cases _ s hs)

/-- One event with no place for ECHO text before it. -/
theorem proc_guarded {e : State → Event} {eff : State → State} (he : ∀ s, e (blockOf s) = e s)
    (h : Effect eff) : Proc (guarded fun s => record (e s) (eff s)) eff (fun b => [e b]) :=
  proc_of_run he h (fun _ => guarded_dead) (fun s hs => by
    obtain ⟨t, hb, _, h⟩ := guarded_cases (fun s => record (e s) (eff s)) s hs
    exact ⟨t, hb, h⟩)

/-- A change of the working registers, which is no event. -/
theorem proc_setWork (f : Work → Work) (hf : ∀ w, (f w).echoing = w.echoing) :
    Proc (setWork f) (setWork f) (fun _ => []) where
  dead := fun s _ => ⟨s.work.map f, rfl⟩
  block := fun _ _ _ => rfl
  trace := fun q s _ _ _ => by simp [view, traceOf]
  echoing := fun s _ _ => by
    unfold workOf setWork
    cases s.work <;> simp [hf]
  quiet := fun _ _ h => ⟨h, rfl, rfl⟩
  ends := fun _ h => .inl ⟨live_iff.1 h, le_rfl⟩
  core := fun s _ => ⟨rfl, rfl, rfl, rfl, rfl, rfl, rfl, fun h => h⟩
  origin := fun _ h => ⟨(From.refl h).host, (From.refl h).reset⟩
  reads := fun s _ => ⟨[], rfl, by simp⟩

end Sys2Proof.Laws
end

