-- ==== Sys2Proof/Laws/Procedures.lean ====
section
/-! SUPPORT. The spec lemma of every procedure of the sequencer, as a `Proc`: its effect on the block and its
events (40_bus_driver.md R100 to R104; 41_programmer.md R140, R145). -/

namespace Sys2Proof.Laws

open Sys2Proof Sys2Proof.Machine Sys2Proof.Safety

/-! ## Pin-bank operations -/

/-- The effect of one pin-bank operation on the block. -/
def opEffect : PinOp → State → State
  | .dir l d, s => setWork (indexWork l) { s with lines := putDir l d s.lines }
  | .drv l b, s => setWork (indexWork l) { deviceOnDrive l b s with lines := putOut l b s.lines }
  | .dly _, s => s

/-- The effect of pin-bank operations in order. -/
def applyOps (ops : List PinOp) (s : State) : State := ops.foldl (fun s op => opEffect op s) s

theorem pinOp_eq (op : PinOp) : pinOp op = issue fun s => record (op.event s.cfg) (opEffect op s) := by
  cases op <;> rfl

theorem indexWork_echoing (l : LineId) (w : Work) : (indexWork l w).echoing = w.echoing := by cases l <;> rfl

theorem setWork_echoing {f : Work → Work} (hf : ∀ w, (f w).echoing = w.echoing) (s : State) :
    (workOf (setWork f s)).echoing = (workOf s).echoing := by
  unfold workOf setWork
  cases s.work <;> simp [hf]

theorem deviceOnDrive_block (l : LineId) (b : Bool) (s : State) :
    blockOf (deviceOnDrive l b s) = deviceOnDrive l b (blockOf s) := by
  cases l <;> try rfl
  simp only [deviceOnDrive, deviceOnWe, blockOf_lines]
  split <;> rfl

theorem deviceOnDrive_mem_wf (l : LineId) (b : Bool) (s : State) (h : Memory.wf s.dev.mem) :
    Memory.wf (deviceOnDrive l b s).dev.mem := by
  cases l <;> try exact h
  simp only [deviceOnDrive, deviceOnWe]
  split
  · exact h
  · exact memory_write_wf h s.dev.latchA.isLt _
  · exact h

theorem opEffect_effect (op : PinOp) : Effect (opEffect op) := by
  cases op with
  | dir l d =>
    exact ⟨fun _ => rfl, fun _ => rfl, fun _ => rfl, fun _ => rfl, fun _ => rfl,
      fun _ => ⟨rfl, rfl, rfl, rfl, rfl, rfl, rfl, id⟩, fun s => setWork_echoing (indexWork_echoing l) _⟩
  | drv l b =>
    refine ⟨fun s => ?_, fun s => ?_, fun s => ?_, fun s => ?_, fun s => ?_, fun s => ?_, fun s => ?_⟩
    · have := deviceOnDrive_block l b s
      simp only [opEffect, ← this]
      rfl
    · simp [opEffect]
    · simp [opEffect]
    · simp [opEffect]
    · simp [opEffect]
    · exact ⟨by simp [opEffect], by simp [opEffect], by simp [opEffect], by simp [opEffect], by simp [opEffect],
        by simp [opEffect], by simp [opEffect], fun h => deviceOnDrive_mem_wf l b s h⟩
    · refine (setWork_echoing (indexWork_echoing l) _).trans ?_
      unfold workOf
      simp
  | dly us =>
    exact ⟨fun _ => rfl, fun _ => rfl, fun _ => rfl, fun _ => rfl, fun _ => rfl, fun s => Core.refl s, fun _ => rfl⟩

theorem proc_pinOp (op : PinOp) : Proc (pinOp op) (opEffect op) (fun b => [op.event b.cfg]) := by
  rw [pinOp_eq]
  exact proc_issue (e := fun s => op.event s.cfg) (fun _ => rfl) (opEffect_effect op)

@[simp] theorem opEffect_cfg (op : PinOp) (s : State) : (opEffect op s).cfg = s.cfg := ((opEffect_effect op).core s).cfg

theorem proc_runOps (ops : List PinOp) :
    Proc (runOps ops) (applyOps ops) (fun b => ops.map (PinOp.event b.cfg)) := by
  induction ops with
  | nil => exact Proc.id
  | cons op ops ih =>
    refine ((proc_pinOp op).comp ih).eq (fun _ => rfl) (fun b => ?_)
    simp

/-! ## Mode procedures -/

theorem proc_setMode (m : BusMode) : Proc (setMode m) (fun b => { b with mode := m }) (fun _ => []) where
  dead := fun s hs => ⟨s.work, by simp [setMode, hs]⟩
  block := fun s hs _ => by simp [setMode, hs, blockOf]
  trace := fun q s _ hs _ => by simp [setMode, hs, view, traceOf]
  echoing := fun s hs _ => by simp [setMode, hs, workOf]
  quiet := fun s _ hs => by
    rw [show setMode m s = { s with mode := m } from if_pos hs]
    exact ⟨hs, rfl, rfl⟩
  ends := fun s hs => by simp only [setMode, if_pos hs]; exact .inl ⟨live_iff.1 hs, le_rfl⟩
  origin := fun s hs => by simp only [setMode, if_pos hs]; exact ⟨(From.refl hs).host, (From.refl hs).reset⟩
  core := fun s hs => by simp only [setMode, if_pos hs]; exact ⟨rfl, rfl, rfl, rfl, rfl, rfl, rfl, fun h => h⟩
  reads := fun s hs => by simp only [setMode, if_pos hs]; exact ⟨[], rfl, by simp⟩

/-- The block after EnterWrite. -/
def doEnterWrite (b : State) : State := { applyOps enterWriteOps b with mode := .write }

/-- The block after EnterRead. -/
def doEnterRead (b : State) : State := { applyOps (enterReadOps b.params.oeSettleUs) b with mode := .read }

/-- The block after EnterWrite where the mode is not WRITE yet. -/
def doNeedWrite (b : State) : State := if b.mode = .write then b else doEnterWrite b

/-- The block after EnterRead where the mode is not READ yet. -/
def doNeedRead (b : State) : State := if b.mode = .read then b else doEnterRead b

theorem setAddr_events (c : PinConfig) (a : Addr) : (setAddrOps a).map (PinOp.event c) = setAddrTrace c a := by
  simp [setAddrOps, setAddrTrace, PinOp.event, pinOf, addrLevel, Function.comp_def]

theorem readPass_events (c : PinConfig) (us : Nat) (a : Addr) :
    (readPassOps us a).map (PinOp.event c) = setAddrTrace c a ++ [.dly us] := by
  simp [readPassOps, setAddr_events, PinOp.event]

theorem enterWrite_events (c : PinConfig) : enterWriteOps.map (PinOp.event c) = enterWriteTrace c := by
  simp [enterWriteOps, enterWriteTrace, PinOp.event, pinOf, List.map_flatMap]

theorem enterRead_events (c : PinConfig) (us : Nat) :
    (enterReadOps us).map (PinOp.event c) = enterReadTrace us c := by
  simp [enterReadOps, enterReadTrace, PinOp.event, pinOf, Function.comp_def]

theorem writeByte_events (c : PinConfig) (v : Byte) (a : Addr) :
    (writeByteOps c.tBit.toNat v a).map (PinOp.event c) = writeByteTrace c v a := by
  simp only [writeByteOps, writeByteTrace, List.map_append, setAddr_events]
  simp [PinOp.event, pinOf, List.map_flatMap, dataLevel]

theorem proc_enterWrite : Proc enterWrite doEnterWrite (fun b => enterWriteTrace b.cfg) :=
  ((proc_runOps enterWriteOps).comp (proc_setMode .write)).eq (fun _ => rfl)
    (fun b => by simp [enterWrite_events])

theorem proc_enterRead :
    Proc enterRead doEnterRead (fun b => enterReadTrace b.params.oeSettleUs b.cfg) :=
  (Proc.arg (fun s => s.params.oeSettleUs) (fun _ => rfl)
    (fun us => (proc_runOps (enterReadOps us)).comp (proc_setMode .read))).eq (fun _ => rfl)
    (fun b => by simp [enterRead_events])

theorem proc_needWrite : Proc needWrite doNeedWrite needWriteTrace :=
  Proc.ite (fun s => s.mode = .write) (fun _ => Iff.rfl) Proc.id proc_enterWrite

theorem proc_needRead : Proc needRead doNeedRead needReadTrace :=
  Proc.ite (fun s => s.mode = .read) (fun _ => Iff.rfl) Proc.id proc_enterRead

/-! ## Byte procedures -/

theorem applyOps_core (ops : List PinOp) (s : State) : Core s (applyOps ops s) := by
  induction ops generalizing s with
  | nil => exact Core.refl s
  | cons op ops ih => exact ((opEffect_effect op).core s).trans (ih _)

theorem doEnterWrite_core (b : State) : Core b (doEnterWrite b) := by
  have h := applyOps_core enterWriteOps b
  exact ⟨h.cfg, h.params, h.sinkAvail, h.refDevice, h.busy, h.last, h.result, h.mem⟩

theorem doEnterRead_core (b : State) : Core b (doEnterRead b) := by
  have h := applyOps_core (enterReadOps b.params.oeSettleUs) b
  exact ⟨h.cfg, h.params, h.sinkAvail, h.refDevice, h.busy, h.last, h.result, h.mem⟩

theorem doNeedWrite_core (b : State) : Core b (doNeedWrite b) := by
  unfold doNeedWrite; split
  · exact Core.refl b
  · exact doEnterWrite_core b

theorem doNeedRead_core (b : State) : Core b (doNeedRead b) := by
  unfold doNeedRead; split
  · exact Core.refl b
  · exact doEnterRead_core b

/-- The block after WriteByteProc(v, a). -/
def doWriteByte (v : Byte) (a : Addr) (b : State) : State :=
  applyOps (writeByteOps b.cfg.tBit.toNat v a) (doNeedWrite b)

theorem proc_writeByte (v : Byte) (a : Addr) :
    Proc (writeByteProc v a) (doWriteByte v a) (fun b => needWriteTrace b ++ writeByteTrace b.cfg v a) :=
  (Proc.arg (fun s => s.cfg.tBit.toNat) (fun _ => rfl)
    (fun t => proc_needWrite.comp (proc_runOps (writeByteOps t v a)))).eq (fun _ => rfl)
    (fun b => by simp [(doNeedWrite_core b).cfg, writeByte_events])

/-- The block after `Smp(D[p])` and its accumulation. -/
def doSample (p : Fin 8) (s : State) : State :=
  setWork (fun w => { indexWork (.data p) w with acc := accumulate w.acc (sampleLevel p s) }) (afterSample p s)

theorem doSample_effect (p : Fin 8) : Effect (doSample p) where
  block := fun s => by
    simp only [doSample, afterSample]
    have h1 : deviceDrives p (blockOf s) = deviceDrives p s := rfl
    have h2 : sampleLevel p (blockOf s) = sampleLevel p s := rfl
    rw [h1, h2]
    split <;> rfl
  cut := fun s => by simp [doSample]
  host := fun s => by simp [doSample]
  reads := fun s => by simp [doSample]
  log := fun s => by simp [doSample]
  core := fun s => ⟨by simp [doSample], by simp [doSample], by simp [doSample], by simp [doSample],
    by simp [doSample], by simp [doSample], by simp [doSample], fun h => by simpa [doSample] using h⟩
  echoing := fun s => by
    refine (setWork_echoing (fun w => ?_) _).trans ?_
    · rfl
    · unfold workOf; simp

theorem proc_sample (p : Fin 8) :
    Proc (pinSample p) (doSample p) (fun b => [.smp (pinOf b.cfg (.data p)) (sampleLevel p b)]) :=
  proc_issue (e := fun s => .smp (pinOf s.cfg (.data p)) (sampleLevel p s)) (fun _ => rfl) (doSample_effect p)

/-- The block after one pass of ReadByteProc(a). -/
def doReadPass (a : Addr) (b : State) (p : Fin 8) : State :=
  doSample p (applyOps (readPassOps b.params.readSettleUs a) b)

theorem doReadPass_core (a : Addr) (b : State) (p : Fin 8) : Core b (doReadPass a b p) :=
  (applyOps_core _ b).trans ((doSample_effect p).core _)

/-- The level sampled in one pass. -/
def passLevel (a : Addr) (b : State) (p : Fin 8) : Bool :=
  sampleLevel p (applyOps (readPassOps b.params.readSettleUs a) b)

/-- The events of one pass. -/
def passTrace (a : Addr) (b : State) (p : Fin 8) : List Event :=
  setAddrTrace b.cfg a ++ [.dly b.params.readSettleUs, .smp b.cfg.dataPin[p] (passLevel a b p)]

theorem proc_readPass (a : Addr) (p : Fin 8) :
    Proc (fun s => readPass a s p) (fun b => doReadPass a b p) (fun b => passTrace a b p) := by
  unfold readPass doReadPass
  have h := Proc.arg (P := fun us s => pinSample p (runOps (readPassOps us a) s))
    (fun s => s.params.readSettleUs) (fun _ => rfl)
    (fun us => (proc_runOps (readPassOps us a)).comp (proc_sample p))
  refine Proc.eq h (fun b => ?_) (fun b => ?_)
  · with_reducible rfl
  · rw [readPass_events]
    simp [passTrace, passLevel, (applyOps_core _ b).cfg, pinOf]

/-- The events of passes, with the blocks between them. -/
def passesTrace (a : Addr) : List (Fin 8) → State → List Event
  | [], _ => []
  | p :: ps, b => passTrace a b p ++ passesTrace a ps (doReadPass a b p)

theorem proc_readPasses (a : Addr) (ps : List (Fin 8)) :
    Proc (fun s => ps.foldl (readPass a) s) (fun b => ps.foldl (doReadPass a) b) (passesTrace a ps) := by
  induction ps with
  | nil => exact Proc.id
  | cons p ps ih =>
    have h := (proc_readPass a p).comp ih
    simp only [List.foldl_cons]
    exact h

/-- `acc <- 0`. -/
def clearAcc (s : State) : State := setWork (fun w => { w with acc := 0 }) s

/-- The block after ReadByteProc(a). -/
def doReadByte (a : Addr) (b : State) : State :=
  (List.finRange 8).foldl (doReadPass a) (clearAcc (doNeedRead b))

theorem proc_readByte (a : Addr) :
    Proc (readByteProc a) (doReadByte a)
      (fun b => needReadTrace b ++ passesTrace a (List.finRange 8) (clearAcc (doNeedRead b))) :=
  ((proc_needRead.comp (proc_setWork (fun w => { w with acc := 0 }) (fun _ => rfl))).comp
    (proc_readPasses a (List.finRange 8))).eq (fun _ => rfl) (fun _ => by simp [clearAcc])

/-! ## PROGRAM -/

/-- The block after `SrcAvail()`. -/
def doQuery (s : State) : State := { s with source := { s.source with answers := s.source.answers.tail } }

/-- The block after `SrcRead()`. -/
def doRead (s : State) : State := { s with source := { s.source with bytes := s.source.bytes.tail } }

theorem doQuery_core (b : State) : Core b (doQuery b) := ⟨rfl, rfl, rfl, rfl, rfl, rfl, rfl, fun h => h⟩

theorem doRead_core (b : State) : Core b (doRead b) := ⟨rfl, rfl, rfl, rfl, rfl, rfl, rfl, fun h => h⟩

theorem proc_srcQuery : Proc srcQuery doQuery (fun b => [.srcQ (srcAvail b)]) :=
  proc_issue (e := fun s => .srcQ (srcAvail s)) (eff := doQuery) (fun _ => rfl)
    ⟨fun _ => rfl, fun _ => rfl, fun _ => rfl, fun _ => rfl, fun _ => rfl, doQuery_core, fun _ => rfl⟩

theorem proc_srcRead : Proc srcRead doRead (fun b => [.srcR (srcNext b)]) :=
  proc_issue (e := fun s => .srcR (srcNext s)) (eff := doRead) (fun _ => rfl)
    ⟨fun _ => rfl, fun _ => rfl, fun _ => rfl, fun _ => rfl, fun _ => rfl, doRead_core, fun _ => rfl⟩

/-- `a <- a + 1`. -/
def nextAddr (s : State) : State := setWork (fun w => { w with a := w.a + 1 }) s

/-- The block after one byte of PROGRAM. -/
def doProgramByte (b : State) : State := nextAddr (doWriteByte (srcNext b) (workOf b).a (doRead b))

/-- The events of one byte of PROGRAM after its query. -/
def programByteTrace (b : State) : List Event :=
  .srcR (srcNext b) :: (needWriteTrace b ++ writeByteTrace b.cfg (srcNext b) (workOf b).a)

theorem proc_programByte : Proc programByte doProgramByte programByteTrace :=
  (Proc.arg (fun s => (srcNext s, (workOf s).a)) (fun _ => rfl)
    (fun x => (proc_srcRead.comp (proc_writeByte x.1 x.2)).comp
      (proc_setWork (fun w => { w with a := w.a + 1 }) (fun _ => rfl)))).eq (fun _ => rfl)
    (fun b => by simp only [programByteTrace, doRead, needWriteTrace, List.append_nil, List.cons_append, List.nil_append]; rfl)

/-- The block after PROGRAM's loop. -/
def doProgramLoop : Nat → State → State
  | 0, b => b
  | n + 1, b =>
    if (workOf b).a ≤ (workOf b).bound then
      if srcAvail b then doProgramLoop n (doProgramByte (doQuery b)) else doQuery b
    else b

/-- The events of PROGRAM's loop. -/
def programLoopTrace : Nat → State → List Event
  | 0, _ => []
  | n + 1, b =>
    if (workOf b).a ≤ (workOf b).bound then
      if srcAvail b then
        .srcQ true :: (programByteTrace (doQuery b) ++ programLoopTrace n (doProgramByte (doQuery b)))
      else [.srcQ false]
    else []

theorem proc_programLoop (n : Nat) : Proc (programLoop n) (doProgramLoop n) (programLoopTrace n) := by
  induction n with
  | zero => exact Proc.id
  | succ n ih =>
    have inner := Proc.ite (fun s => srcAvail s = true) (fun _ => Iff.rfl)
      ((proc_srcQuery.comp proc_programByte).comp ih) proc_srcQuery
    have outer := Proc.ite (fun s => (workOf s).a ≤ (workOf s).bound) (fun _ => Iff.rfl) inner Proc.id
    refine (outer.congr (P' := programLoop (n + 1)) (fun s hs => ?_) (fun s hs => ⟨s.work, ?_⟩)).eq (fun b => ?_)
      (fun b => ?_)
    · simp [programLoop, hs]
    · simp [programLoop, hs]
    · rfl
    · simp only [programLoopTrace]
      split
      · split
        · rename_i h
          simp [h]
        · rename_i h
          simp [h]
      · rfl

/-! ## DUMP -/

theorem effect_id : Effect (fun s => s) :=
  ⟨fun _ => rfl, fun _ => rfl, fun _ => rfl, fun _ => rfl, fun _ => rfl, fun s => Core.refl s, fun _ => rfl⟩

theorem proc_emitText (text : List Byte) : Proc (emitText text) (fun b => b) (fun _ => text.map .out) := by
  induction text with
  | nil => exact Proc.id
  | cons c text ih => exact (proc_guarded (e := fun _ => .out c) (fun _ => rfl) effect_id).comp ih

/-- `j <- a[3:0]`. -/
def setColumn (a : BitVec 16) (s : State) : State := setWork (fun w => { w with j := a.extractLsb' 0 4 }) s

/-- The block after one byte of DUMP. -/
def doDumpByte (b : State) : State := nextAddr (doReadByte (workOf b).a (setColumn (workOf b).a b))

/-- The events of one read of ReadByteProc(a). -/
def readTrace (a : Addr) (b : State) : List Event :=
  needReadTrace b ++ passesTrace a (List.finRange 8) (clearAcc (doNeedRead b))

/-- The events of one byte of DUMP at address a. -/
def dumpByteTraceAt (a : BitVec 16) (b : State) : List Event :=
  (textBefore b.params.hexUpper a).map .out ++
    (readTrace a (setColumn a b) ++
      (textAfter b.params.hexUpper b.params.eolSeq a (workOf (doReadByte a (setColumn a b))).acc).map .out)

theorem doReadByte_core (a : Addr) (b : State) : Core b (doReadByte a b) := by
  have key : ∀ (ps : List (Fin 8)) (c : State), Core c (ps.foldl (doReadPass a) c) := by
    intro ps
    induction ps with
    | nil => exact fun c => Core.refl c
    | cons p ps ih => exact fun c => (doReadPass_core a c p).trans (ih _)
  have h1 : Core (doNeedRead b) (clearAcc (doNeedRead b)) :=
    ⟨rfl, rfl, rfl, rfl, rfl, rfl, rfl, fun h => h⟩
  exact ((doNeedRead_core b).trans h1).trans (key _ _)

theorem proc_dumpByte : Proc dumpByte doDumpByte (fun b => dumpByteTraceAt (workOf b).a b) := by
  have tail : ∀ (a : BitVec 16) (up : Bool) (eol : List Byte),
      Proc (fun s => emitText (textAfter up eol a (workOf s).acc) s) (fun b => b)
        (fun b => (textAfter up eol a (workOf b).acc).map .out) := fun a up eol =>
    Proc.arg (P := fun v s => emitText (textAfter up eol a v) s) (g := fun _ b => b)
      (ev := fun v _ => (textAfter up eol a v).map .out)
      (fun s => (workOf s).acc) (fun _ => rfl) (fun v => proc_emitText _)
  have one : ∀ (x : BitVec 16 × Bool × List Byte), Proc (dumpByteAt x.2.1 x.2.2 x.1)
      (fun b => nextAddr (doReadByte x.1 (setColumn x.1 b)))
      (fun b => (textBefore x.2.1 x.1).map .out ++
        (readTrace x.1 (setColumn x.1 b) ++
          (textAfter x.2.1 x.2.2 x.1 (workOf (doReadByte x.1 (setColumn x.1 b))).acc).map .out)) := by
    intro x
    have h := ((((proc_setWork (fun w => { w with j := x.1.extractLsb' 0 4 }) (fun _ => rfl)).comp
      (proc_emitText (textBefore x.2.1 x.1))).comp (proc_readByte x.1)).comp (tail x.1 x.2.1 x.2.2)).comp
      (proc_setWork (fun w => { w with a := w.a + 1 }) (fun _ => rfl))
    refine Proc.eq (P := dumpByteAt x.2.1 x.2.2 x.1) h (fun b => rfl) (fun b => ?_)
    simp only [List.nil_append, List.append_nil, List.append_assoc, readTrace, setColumn]
  have h := Proc.arg (fun s => ((workOf s).a, s.params.hexUpper, s.params.eolSeq)) (fun _ => rfl) one
  exact Proc.eq (P := dumpByte) h (fun _ => rfl) (fun _ => rfl)

/-- The block after DUMP's loop. -/
def doDumpLoop : Nat → State → State
  | 0, b => b
  | n + 1, b =>
    if (workOf b).a.toNat < 0x7FFF ∧ (workOf b).a.toNat < (workOf b).endAddr.toNat then
      doDumpLoop n (doDumpByte b)
    else b

/-- The events of DUMP's loop. -/
def dumpLoopTrace : Nat → State → List Event
  | 0, _ => []
  | n + 1, b =>
    if (workOf b).a.toNat < 0x7FFF ∧ (workOf b).a.toNat < (workOf b).endAddr.toNat then
      dumpByteTraceAt (workOf b).a b ++ dumpLoopTrace n (doDumpByte b)
    else []

theorem proc_dumpLoop (n : Nat) : Proc (dumpLoop n) (doDumpLoop n) (dumpLoopTrace n) := by
  induction n with
  | zero => exact Proc.id
  | succ n ih =>
    have outer := Proc.ite
      (fun s => (workOf s).a.toNat < 0x7FFF ∧ (workOf s).a.toNat < (workOf s).endAddr.toNat) (fun _ => Iff.rfl)
      (proc_dumpByte.comp ih) Proc.id
    refine (outer.congr (P' := dumpLoop (n + 1)) (fun s hs => ?_) (fun s hs => ⟨s.work, ?_⟩)).eq (fun b => ?_)
      (fun b => ?_)
    · simp [dumpLoop, hs]
    · simp [dumpLoop, hs]
    · rfl
    · rfl

end Sys2Proof.Laws
end

