-- ==== Sys2Proof/Laws/Commands.lean ====
section
/-! SUPPORT. From acceptance to the outcome: how a command or a reset sequence ends, with and without inputs
around its events (00_scope.md R17; 70_reset_and_hazards.md R192). -/

namespace Sys2Proof.Laws

open Sys2Proof Sys2Proof.Machine Sys2Proof.Safety

@[simp] theorem accept_live (s : State) : live (accept s) = true := rfl

@[simp] theorem accept_quiet (s : State) : quiet (accept s) = quiet s := rfl

@[simp] theorem accept_sink (s : State) : (workOf (accept s)).sink = s.sinkAvail := rfl

@[simp] theorem accept_echoing (s : State) : (workOf (accept s)).echoing = false := rfl

theorem accept_view (q : Event → Bool) (s : State) : view q (accept s) = view q s := rfl

theorem conclude_of_live {n : Nat} {s : State} (h : s.cut = none) : conclude n s = .next s := by
  cases n <;> simp [conclude, h]

/-- What is known when a body has ended: it finished with g's effect and the events ev, or it was cut short. -/
structure Finish (x y : State) (st : StatusCode) (res : BitVec 9) (b : State) (es : List Event) : Prop where
  cut : y.cut = none
  block : blockOf y = finished st res b
  trace : ∀ q, Silent q x → view q y = view q x ++ es.filter q
  pos : y.pos = 0

theorem finish_run {P g : State → State} {ev : State → List Event} (p : Proc P g ev) (st : StatusCode)
    (r : State → BitVec 9) (hr : ∀ s, r (blockOf s) = r s) (x : State) (hl : live x = true) :
    (Finish x (finish st (r (P x)) (P x)) st (r (g (blockOf x))) (g (blockOf x)) (ev (blockOf x)) ∨
      (finish st (r (P x)) (P x)).cut ≠ none) ∧
    (quiet x = true → (finish st (r (P x)) (P x)).cut = none ∧
      (finish st (r (P x)) (P x)).host = x.host ∧ (finish st (r (P x)) (P x)).reads = x.reads) ∧
    Ends x (finish st (r (P x)) (P x)) ∧ BusyReads x (finish st (r (P x)) (P x)) ∧
    ((finish st (r (P x)) (P x)).cut ≠ none → Core x (finish st (r (P x)) (P x))) := by
  cases hp : live (P x)
  · have e : finish st (r (P x)) (P x) = P x := issue_dead hp
    rw [e]
    refine ⟨.inr (not_live_iff.1 hp), fun hq => ?_, p.ends x hl, p.reads x hl, fun _ => p.core x hl⟩
    have := (p.quiet x hq hl).1
    rw [hp] at this; cases this
  · have hb := p.block x hl hp
    obtain ⟨t, hbt, ⟨ht, e⟩ | ⟨ht, e⟩⟩ := issue_cases (finished st (r (P x))) (P x) hp
    all_goals rw [show finish st (r (P x)) (P x) = issue (finished st (r (P x))) (P x) from rfl, e]
    · have hbt' : blockOf t = g (blockOf x) := hbt.block.trans hb
      have er : r (P x) = r (g (blockOf x)) := by rw [← hr (P x), hb]
      have endsx : Ends x (finished st (r (P x)) t) := by
        have h1 : (P x).host.length ≤ x.host.length := by
          rcases p.ends x hl with h | ⟨c, hc, _⟩
          · exact h.2
          · rw [live_iff.1 hp] at hc; cases hc
        rcases hbt.cut with h | ⟨c, hc, _⟩
        · exact .inl ⟨h.1, h.2.trans h1⟩
        · rw [live_iff.1 ht] at hc; cases hc
      refine ⟨.inl ⟨live_iff.1 ht, ?_, fun q hq => ?_, rfl⟩, fun hq => ?_, endsx, ?_, fun h => absurd (live_iff.1 ht) h⟩
      · rw [← er, ← hbt']; rfl
      · have hq' : Silent q (P x) := by
          rcases hq with hq | hq
          · exact .inl ((p.echoing x hl hp).trans hq)
          · exact .inr hq
        have h1 : view q (finished st (r (P x)) t) = view q t := rfl
        rw [h1, hbt.trace q hq', p.trace q x hq hl hp]
      · obtain ⟨_, a, b⟩ := p.quiet x hq hl
        obtain ⟨c, d, e'⟩ := hbt.quiet (quiet_of_host a hq)
        exact ⟨c, d.trans a, e'.trans b⟩
      · exact (p.reads x hl).trans (p.core x hl).busy hbt.reads.busy
    · refine ⟨.inr (not_live_iff.1 ht), fun hq => ?_, ?_, (p.reads x hl).trans (p.core x hl).busy hbt.reads.busy,
        fun _ => (p.core x hl).trans (Core.of_block hbt.block)⟩
      · obtain ⟨_, a, _⟩ := p.quiet x hq hl
        have := (hbt.quiet (quiet_of_host a hq)).1
        rw [live_iff.2 this] at ht; cases ht
      · have h1 : (P x).host.length ≤ x.host.length := by
          rcases p.ends x hl with h | ⟨c, hc, _⟩
          · exact h.2
          · rw [live_iff.1 hp] at hc; cases hc
        rcases hbt.cut with h | ⟨c, hc, ho, hlt⟩
        · exact .inl ⟨h.1, h.2.trans h1⟩
        · exact .inr ⟨c, hc, ho, hlt.trans_le h1⟩

/-- A command's inputs, and a reset that cuts it short, were inputs at its acceptance. -/
theorem finish_origin {P g : State → State} {ev : State → List Event} (p : Proc P g ev) (st : StatusCode)
    (res : BitVec 9) (x : State) (hl : live x = true) : From x (finish st res (P x)) := by
  cases hp : live (P x)
  · rw [show finish st res (P x) = P x from issue_dead hp]; exact p.origin x hl
  · obtain ⟨t, hb, ⟨ht, e⟩ | ⟨ht, e⟩⟩ := issue_cases (finished st res) (P x) hp
    all_goals rw [show finish st res (P x) = issue (finished st res) (P x) from rfl, e]
    · exact (p.origin x hl).trans ⟨hb.origin.host, hb.origin.reset⟩
    · exact (p.origin x hl).trans hb.origin

/-- A command that no input disturbs finishes: its state, its trace, and the host's side. -/
theorem command_quiet {P g : State → State} {ev : State → List Event} (p : Proc P g ev) (st : StatusCode)
    (r : State → BitVec 9) (hr : ∀ s, r (blockOf s) = r s) (pre : State → State)
    (hpre : ∀ s, pre s = { s with work := (pre s).work }) {s : State} (hq : quiet s = true) :
    ∃ t, command (fun s => finish st (r (P (pre s))) (P (pre s))) s = .next t ∧
      Finish (pre (accept s)) t st (r (g (blockOf (pre (accept s))))) (g (blockOf (pre (accept s))))
        (ev (blockOf (pre (accept s)))) ∧
      t.host = s.host ∧ t.reads = s.reads := by
  have e := hpre (accept s)
  have hl : live (pre (accept s)) = true := by rw [e]; rfl
  have hq' : quiet (pre (accept s)) = true := by rw [e]; exact hq
  obtain ⟨h1, h2, _⟩ := finish_run p st r hr (pre (accept s)) hl
  obtain ⟨hc, hh, hrd⟩ := h2 hq'
  refine ⟨_, conclude_of_live hc, ?_, ?_, ?_⟩
  · rcases h1 with h1 | h1
    · exact h1
    · exact absurd hc h1
  · rw [hh, e]; rfl
  · rw [hrd, e]; rfl

/-! ## The reset sequence -/

/-- The block after the reset sequence of configuration c. -/
def doReset (c : PinConfig) (b : State) : State := resetDone (applyOps resetOps (latchConfig c b))

@[simp] theorem latchConfig_live (c : PinConfig) (s : State) : live (latchConfig c s) = true := rfl

theorem resetOps_events (c : PinConfig) : resetOps.map (PinOp.event c) = resetTrace c := by
  simp [resetOps, resetTrace, PinOp.event, pinOf, List.map_flatMap, Function.comp_def]

theorem reset_run (c : PinConfig) (s : State) :
    ((resetSequence c s).cut = none ∧ blockOf (resetSequence c s) = blockOf (doReset c (blockOf s)) ∧
        (∀ q, view q (resetSequence c s) = view q s ++ (resetTrace c).filter q) ∧ (resetSequence c s).pos = 0 ∨
      (resetSequence c s).cut ≠ none) ∧
    (quiet s = true → (resetSequence c s).cut = none ∧ (resetSequence c s).host = s.host ∧
      (resetSequence c s).reads = s.reads) ∧
    Ends s (resetSequence c s) ∧ BusyReads (latchConfig c s) (resetSequence c s) ∧
    ((resetSequence c s).cut ≠ none → Core (latchConfig c s) (resetSequence c s)) := by
  have p := proc_runOps resetOps
  have hl : live (latchConfig c s) = true := rfl
  have hsil : ∀ q, Silent q (latchConfig c s) := fun q => .inl rfl
  have hv : ∀ q, view q (latchConfig c s) = view q s := fun q => rfl
  have hev : (resetOps.map (PinOp.event (blockOf (latchConfig c s)).cfg)) = resetTrace c := resetOps_events c
  unfold resetSequence
  generalize hx : latchConfig c s = x at *
  have hhost : x.host = s.host := by rw [← hx]; rfl
  have hreads : x.reads = s.reads := by rw [← hx]; rfl
  have hquiet : quiet s = true → quiet x = true := quiet_of_host hhost
  have hends : ∀ y, Ends x y → Ends s y := by
    intro y h; unfold Ends at *; rw [← hhost]; exact h
  cases hp : live (runOps resetOps x)
  · have e : guarded resetDone (runOps resetOps x) = runOps resetOps x := guarded_dead hp
    rw [e]
    refine ⟨.inr (not_live_iff.1 hp), fun hq => ?_, hends _ (p.ends x hl), p.reads x hl, fun _ => p.core x hl⟩
    have := (p.quiet x (hquiet hq) hl).1
    rw [hp] at this; cases this
  · have hb := p.block x hl hp
    have h1 : (runOps resetOps x).host.length ≤ x.host.length := by
      rcases p.ends x hl with h | ⟨c, hc, _⟩
      · exact h.2
      · rw [live_iff.1 hp] at hc; cases hc
    obtain ⟨t, hbt, _, ⟨ht, e⟩ | ⟨ht, e⟩⟩ := guarded_cases resetDone (runOps resetOps x) hp
    all_goals rw [e]
    · refine ⟨.inl ⟨live_iff.1 ht, ?_, fun q => ?_, rfl⟩, fun hq => ?_, hends _ ?_, ?_,
        fun h => absurd (live_iff.1 ht) h⟩
      · have h2 : blockOf t = applyOps resetOps (blockOf x) := hbt.block.trans hb
        have h3 : blockOf x = blockOf (latchConfig c (blockOf s)) := by rw [← hx]; rfl
        have h4 : blockOf (resetDone t) = blockOf (resetDone (blockOf t)) := rfl
        have h5 : blockOf (applyOps resetOps (latchConfig c (blockOf s))) =
            applyOps resetOps (blockOf (latchConfig c (blockOf s))) := by
          generalize latchConfig c (blockOf s) = z
          generalize resetOps = ops
          induction ops generalizing z with
          | nil => rfl
          | cons op ops ih => exact (ih _).trans (by simp [(opEffect_effect op).block, applyOps])
        rw [h4, h2, h3, ← h5]
        rfl
      · have h2 : view q (resetDone t) = view q t := rfl
        have hq' : Silent q (runOps resetOps x) := by
          rcases hsil q with hq | hq
          · exact .inl ((p.echoing x hl hp).trans hq)
          · exact .inr hq
        rw [h2, hbt.trace q hq', p.trace q x (hsil q) hl hp, hev, hv]
      · obtain ⟨_, a, b⟩ := p.quiet x (hquiet hq) hl
        obtain ⟨d, e', f⟩ := hbt.quiet (quiet_of_host a (hquiet hq))
        exact ⟨d, (e'.trans a).trans hhost, (f.trans b).trans hreads⟩
      · rcases hbt.cut with h | ⟨c, hc, _⟩
        · exact .inl ⟨h.1, h.2.trans h1⟩
        · rw [live_iff.1 ht] at hc; cases hc
      · exact (p.reads x hl).trans (p.core x hl).busy hbt.reads.busy
    · refine ⟨.inr (not_live_iff.1 ht), fun hq => ?_, hends _ ?_,
        (p.reads x hl).trans (p.core x hl).busy hbt.reads.busy,
        fun _ => (p.core x hl).trans (Core.of_block hbt.block)⟩
      · obtain ⟨_, a, _⟩ := p.quiet x (hquiet hq) hl
        have := (hbt.quiet (quiet_of_host a (hquiet hq))).1
        rw [live_iff.2 this] at ht; cases ht
      · rcases hbt.cut with h | ⟨c, hc, ho, hlt⟩
        · exact .inl ⟨h.1, h.2.trans h1⟩
        · exact .inr ⟨c, hc, ho, hlt.trans_le h1⟩

theorem reset_origin (c : PinConfig) (s : State) : From s (resetSequence c s) := by
  have p := proc_runOps resetOps
  have hl : live (latchConfig c s) = true := rfl
  have h1 : From s (runOps resetOps (latchConfig c s)) := by
    have h0 := p.origin (latchConfig c s) hl
    generalize runOps resetOps (latchConfig c s) = y at h0
    exact ⟨h0.host, h0.reset⟩
  unfold resetSequence
  cases hp : live (runOps resetOps (latchConfig c s))
  · rw [guarded_dead hp]; exact h1
  · obtain ⟨t, hb, _, ⟨ht, e⟩ | ⟨ht, e⟩⟩ := guarded_cases resetDone _ hp
    · rw [e]; exact h1.trans ⟨hb.origin.host, hb.origin.reset⟩
    · rw [e]; exact h1.trans hb.origin

/-- With no reset cutting the command short, a next state of `conclude` is the one the command finished in. -/
theorem conclude_noReset {n : Nat} {s t : State} (hc : ∀ c, s.cut ≠ some (.reset c))
    (h : conclude n s = .next t) : s.cut = none ∧ t = s := by
  cases hs : s.cut with
  | none => rw [conclude_of_live hs] at h; injection h with h; exact ⟨rfl, h.symm⟩
  | some d =>
    cases d with
    | fault f => cases n <;> simp [conclude, hs] at h
    | refuse r => cases n <;> simp [conclude, hs] at h
    | reset c => exact absurd hs (hc c)

/-- Every next state of `conclude` is the state the body finished in, or one that a reset sequence finished in;
I is what is known of the states between. -/
theorem conclude_next {I Q : State → Prop} (hI : ∀ c x, c.wellFormed = true → I x →
      (resetSequence c x).cut ≠ none → I (resetSequence c x))
    (hQ : ∀ c x, c.wellFormed = true → I x → (resetSequence c x).cut = none → Q (resetSequence c x))
    {n : Nat} {s t : State} (hn : s.host.length ≤ n) (ho : ∀ c, s.cut = some c → cutOk c ∧ I s)
    (h : conclude n s = .next t) : s.cut = none ∧ t = s ∨ s.cut ≠ none ∧ Q t := by
  induction n generalizing s with
  | zero =>
    unfold conclude at h
    split at h
    · rename_i hc; cases h; exact .inl ⟨hc, rfl⟩
    · cases h
    · cases h
    · rename_i c hc
      obtain ⟨hw, hi⟩ := ho _ hc
      simp only [cutOk] at hw
      have h : resetSequence c s = t := by injection h
      subst h
      refine .inr ⟨by simp [hc], hQ c s hw hi ?_⟩
      have hq : quiet s = true := by
        have : s.host = [] := List.length_eq_zero_iff.1 (Nat.le_zero.1 hn)
        simp [quiet, this]
      exact ((reset_run c s).2.1 hq).1
  | succ n ih =>
    unfold conclude at h
    split at h
    · rename_i hc; cases h; exact .inl ⟨hc, rfl⟩
    · cases h
    · cases h
    · rename_i c hc
      obtain ⟨hw, hi⟩ := ho _ hc
      simp only [cutOk] at hw
      have h : conclude n (resetSequence c s) = .next t := h
      refine .inr ⟨by simp [hc], ?_⟩
      obtain ⟨_, _, he, _⟩ := reset_run c s
      rcases he with he | ⟨d, hd, hok, hlt⟩
      · rw [conclude_of_live he.1] at h
        have h : resetSequence c s = t := by injection h
        subst h
        exact hQ c s hw hi he.1
      · have hne : (resetSequence c s).cut ≠ none := by simp [hd]
        rcases ih (s := resetSequence c s) (by omega) (fun e he => by
          rw [hd] at he; cases he; exact ⟨hok, hI c s hw hi hne⟩) h with h' | h'
        · exact absurd h'.1 hne
        · exact h'.2

end Sys2Proof.Laws
end

