-- ==== Sys2Proof/Laws/Bus.lean ====
section
/-! SUPPORT. What the procedures leave on the lines, in the device and in the working registers, in closed form. -/

namespace Sys2Proof.Laws

open Sys2Proof Sys2Proof.Machine Sys2Proof.Safety

/-! ## Operations: what they leave alone, and the lines -/

/-- What one operation does to one line. -/
def onLine (l : LineId) : PinOp → Line → Line
  | .dir m d, x => if l = m then { x with dir := dirOf d } else x
  | .drv m b, x => if l = m then { x with out := outOf b } else x
  | .dly _, x => x

theorem opEffect_getLine (op : PinOp) (s : State) (l : LineId) :
    getLine (opEffect op s).lines l = onLine l op (getLine s.lines l) := by
  cases op with
  | dir m d =>
    simp only [opEffect, setWork_lines, getLine_putDir, onLine]
    split
    · rename_i h; rw [h]
    · rfl
  | drv m b =>
    simp only [opEffect, setWork_lines, getLine_putOut, onLine]
    split
    · rename_i h; rw [h]
    · rfl
  | dly us => rfl

theorem applyOps_getLine (ops : List PinOp) (s : State) (l : LineId) :
    getLine (applyOps ops s).lines l = ops.foldl (fun x op => onLine l op x) (getLine s.lines l) := by
  induction ops generalizing s with
  | nil => rfl
  | cons op ops ih =>
    rw [List.foldl_cons, ← opEffect_getLine]
    exact ih _

theorem applyOps_append (xs ys : List PinOp) (s : State) :
    applyOps (xs ++ ys) s = applyOps ys (applyOps xs s) := by simp [applyOps]

@[simp] theorem opEffect_mode (op : PinOp) (s : State) : (opEffect op s).mode = s.mode := by
  cases op <;> simp [opEffect]
@[simp] theorem opEffect_source (op : PinOp) (s : State) : (opEffect op s).source = s.source := by
  cases op <;> simp [opEffect]
@[simp] theorem opEffect_samples (op : PinOp) (s : State) : (opEffect op s).samples = s.samples := by
  cases op <;> simp [opEffect]

@[simp] theorem applyOps_mode (ops : List PinOp) (s : State) : (applyOps ops s).mode = s.mode := by
  induction ops generalizing s with
  | nil => rfl
  | cons op ops ih => exact (ih _).trans (by simp)
@[simp] theorem applyOps_source (ops : List PinOp) (s : State) : (applyOps ops s).source = s.source := by
  induction ops generalizing s with
  | nil => rfl
  | cons op ops ih => exact (ih _).trans (by simp)
@[simp] theorem applyOps_samples (ops : List PinOp) (s : State) : (applyOps ops s).samples = s.samples := by
  induction ops generalizing s with
  | nil => rfl
  | cons op ops ih => exact (ih _).trans (by simp)

/-- The operation does not drive WE, so the reference device sees no edge. -/
def sparesWe : PinOp → Bool
  | .drv .we _ => false
  | _ => true

theorem opEffect_dev {op : PinOp} (h : sparesWe op = true) (s : State) :
    (opEffect op s).dev = s.dev ∧ (opEffect op s).draws = s.draws := by
  cases op with
  | dir l d => exact ⟨rfl, rfl⟩
  | drv l b => cases l <;> first | exact ⟨rfl, rfl⟩ | cases h
  | dly us => exact ⟨rfl, rfl⟩

theorem applyOps_dev {ops : List PinOp} (h : ops.all sparesWe = true) (s : State) :
    (applyOps ops s).dev = s.dev ∧ (applyOps ops s).draws = s.draws := by
  induction ops generalizing s with
  | nil => exact ⟨rfl, rfl⟩
  | cons op ops ih =>
    simp only [List.all_cons, Bool.and_eq_true] at h
    obtain ⟨a, b⟩ := ih h.2 (opEffect op s)
    obtain ⟨c, d⟩ := opEffect_dev h.1 s
    exact ⟨a.trans c, b.trans d⟩

theorem finRange_eight : List.finRange 8 = [0, 1, 2, 3, 4, 5, 6, 7] := by decide

/-! ## Lines after each list of operations -/

theorem setAddr_getLine (a : Addr) (s : State) (l : LineId) :
    getLine (applyOps (setAddrOps a) s).lines l =
      match l with
      | .addr k => { getLine s.lines (.addr k) with out := outOf (a.getLsbD k) }
      | m => getLine s.lines m := by
  rw [applyOps_getLine]
  have key : ∀ (ks : List (Fin 15)) (x : Line),
      (ks.map fun k => PinOp.drv (.addr k) (addrLevel a k)).foldl (fun x op => onLine l op x) x =
        match l with
        | .addr k => if k ∈ ks then { x with out := outOf (a.getLsbD k) } else x
        | _ => x := by
    intro ks
    induction ks with
    | nil => intro x; cases l <;> simp
    | cons k ks ih =>
      intro x
      rw [List.map_cons, List.foldl_cons, ih]
      cases l with
      | addr m =>
        by_cases h : m = k
        · subst h; simp [onLine, addrLevel]
        · simp [onLine, h]
      | data p => simp [onLine]
      | we => simp [onLine]
      | oe => simp [onLine]
  rw [setAddrOps, key]
  cases l <;> simp [List.mem_finRange]

theorem enterWrite_getLine (s : State) (l : LineId) :
    getLine (applyOps enterWriteOps s).lines l =
      match l with
      | .data _ => ⟨.output, .low⟩
      | .oe => { getLine s.lines .oe with out := .high }
      | m => getLine s.lines m := by
  rw [applyOps_getLine]
  have h : enterWriteOps = [.dir (.data 0) .output, .drv (.data 0) false, .dir (.data 1) .output,
      .drv (.data 1) false, .dir (.data 2) .output, .drv (.data 2) false, .dir (.data 3) .output,
      .drv (.data 3) false, .dir (.data 4) .output, .drv (.data 4) false, .dir (.data 5) .output,
      .drv (.data 5) false, .dir (.data 6) .output, .drv (.data 6) false, .dir (.data 7) .output,
      .drv (.data 7) false, .drv .oe true] := by decide
  rw [h]
  cases l with
  | addr k => simp [onLine]
  | data p => fin_cases p <;> simp [onLine, dirOf, outOf]
  | we => simp [onLine]
  | oe => simp [onLine, outOf]

theorem enterRead_getLine (us : Nat) (s : State) (l : LineId) :
    getLine (applyOps (enterReadOps us) s).lines l =
      match l with
      | .data p => { getLine s.lines (.data p) with dir := .input }
      | .oe => { getLine s.lines .oe with out := .low }
      | m => getLine s.lines m := by
  rw [applyOps_getLine]
  have h : enterReadOps us = [.dir (.data 0) .input, .dir (.data 1) .input, .dir (.data 2) .input,
      .dir (.data 3) .input, .dir (.data 4) .input, .dir (.data 5) .input, .dir (.data 6) .input,
      .dir (.data 7) .input, .drv .oe false, .dly us] := by
    simp [enterReadOps, finRange_eight]
  rw [h]
  cases l with
  | addr k => simp [onLine]
  | data p => fin_cases p <;> simp [onLine, dirOf]
  | we => simp [onLine]
  | oe => simp [onLine, outOf]

/-- The operations of WriteByteProc before its write pulse. -/
def dataOps (tBit : Nat) (v : Byte) : List PinOp :=
  (List.finRange 8).flatMap fun p => [.drv (.data p) (dataLevel v p), .dly tBit]

theorem dataOps_getLine (t : Nat) (v : Byte) (s : State) (l : LineId) :
    getLine (applyOps (dataOps t v) s).lines l =
      match l with
      | .data p => { getLine s.lines (.data p) with out := outOf (v.getLsbD (7 - p)) }
      | m => getLine s.lines m := by
  rw [applyOps_getLine]
  have h : dataOps t v = [.drv (.data 0) (dataLevel v 0), .dly t, .drv (.data 1) (dataLevel v 1), .dly t,
      .drv (.data 2) (dataLevel v 2), .dly t, .drv (.data 3) (dataLevel v 3), .dly t,
      .drv (.data 4) (dataLevel v 4), .dly t, .drv (.data 5) (dataLevel v 5), .dly t,
      .drv (.data 6) (dataLevel v 6), .dly t, .drv (.data 7) (dataLevel v 7), .dly t] := by
    simp [dataOps, finRange_eight]
  rw [h]
  cases l with
  | addr k => simp [onLine]
  | data p => fin_cases p <;> simp [onLine, dataLevel]
  | we => simp [onLine]
  | oe => simp [onLine]

theorem reset_getLine (s : State) (l : LineId) :
    getLine (applyOps resetOps s).lines l =
      match l with
      | .addr _ => ⟨.output, .low⟩
      | .data p => { getLine s.lines (.data p) with dir := .input }
      | .we => ⟨.output, .high⟩
      | .oe => ⟨.output, .high⟩ := by
  rw [applyOps_getLine]
  cases l with
  | addr k => fin_cases k <;> rfl
  | data p => fin_cases p <;> rfl
  | we => rfl
  | oe => rfl

theorem setAddr_spares (a : Addr) : (setAddrOps a).all sparesWe = true := by
  simp [setAddrOps, sparesWe]

theorem enterWrite_spares : enterWriteOps.all sparesWe = true := by decide

theorem enterRead_spares (us : Nat) : (enterReadOps us).all sparesWe = true := by
  simp [enterReadOps, sparesWe]

theorem dataOps_spares (t : Nat) (v : Byte) : (dataOps t v).all sparesWe = true := by
  simp [dataOps, sparesWe]

theorem readPass_spares (us : Nat) (a : Addr) : (readPassOps us a).all sparesWe = true := by
  simp [readPassOps, setAddr_spares, sparesWe]

/-! ## Mode procedures -/

@[simp] theorem doNeedWrite_mode (b : State) : (doNeedWrite b).mode = .write := by
  unfold doNeedWrite; split
  · assumption
  · rfl

@[simp] theorem doNeedRead_mode (b : State) : (doNeedRead b).mode = .read := by
  unfold doNeedRead; split
  · assumption
  · rfl

theorem doNeedWrite_dev (b : State) : (doNeedWrite b).dev = b.dev ∧ (doNeedWrite b).draws = b.draws := by
  unfold doNeedWrite; split
  · exact ⟨rfl, rfl⟩
  · exact applyOps_dev enterWrite_spares b

theorem doNeedRead_dev (b : State) : (doNeedRead b).dev = b.dev ∧ (doNeedRead b).draws = b.draws := by
  unfold doNeedRead; split
  · exact ⟨rfl, rfl⟩
  · exact applyOps_dev (enterRead_spares b.params.oeSettleUs) b

@[simp] theorem doNeedWrite_source (b : State) : (doNeedWrite b).source = b.source := by
  unfold doNeedWrite; split
  · rfl
  · exact applyOps_source _ b
@[simp] theorem doNeedRead_source (b : State) : (doNeedRead b).source = b.source := by
  unfold doNeedRead; split
  · rfl
  · exact applyOps_source _ b
@[simp] theorem doNeedWrite_samples (b : State) : (doNeedWrite b).samples = b.samples := by
  unfold doNeedWrite; split
  · rfl
  · exact applyOps_samples _ b
@[simp] theorem doNeedRead_samples (b : State) : (doNeedRead b).samples = b.samples := by
  unfold doNeedRead; split
  · rfl
  · exact applyOps_samples _ b

theorem doNeedWrite_getLine (b : State) (l : LineId) :
    getLine (doNeedWrite b).lines l = if b.mode = .write then getLine b.lines l else
      match l with
      | .data _ => ⟨.output, .low⟩
      | .oe => { getLine b.lines .oe with out := .high }
      | m => getLine b.lines m := by
  unfold doNeedWrite; split
  · rfl
  · exact enterWrite_getLine b l

theorem doNeedRead_getLine (b : State) (l : LineId) :
    getLine (doNeedRead b).lines l = if b.mode = .read then getLine b.lines l else
      match l with
      | .data p => { getLine b.lines (.data p) with dir := .input }
      | .oe => { getLine b.lines .oe with out := .low }
      | m => getLine b.lines m := by
  unfold doNeedRead; split
  · rfl
  · exact enterRead_getLine b.params.oeSettleUs b l

/-! ## WriteByteProc -/

theorem writeByteOps_eq (t : Nat) (v : Byte) (a : Addr) :
    writeByteOps t v a =
      dataOps t v ++ ([.drv .we true] ++ (setAddrOps a ++ [.drv .we false, .dly t, .drv .we true])) := rfl

/-- The lines after WriteByteProc's operations: the byte on the data lines, the address on the address lines,
WE high (40_bus_driver.md R125). -/
theorem writeByteOps_getLine (t : Nat) (v : Byte) (a : Addr) (s : State) (l : LineId) :
    getLine (applyOps (writeByteOps t v a) s).lines l =
      match l with
      | .addr k => { getLine s.lines (.addr k) with out := outOf (a.getLsbD k) }
      | .data p => { getLine s.lines (.data p) with out := outOf (v.getLsbD (7 - p)) }
      | .we => { getLine s.lines .we with out := .high }
      | .oe => getLine s.lines .oe := by
  rw [writeByteOps_eq, applyOps_append, applyOps_append, applyOps_append]
  have h1 := dataOps_getLine t v s
  generalize applyOps (dataOps t v) s = s1 at *
  have h2 : ∀ l, getLine (applyOps [.drv .we true] s1).lines l = onLine l (.drv .we true) (getLine s1.lines l) :=
    fun l => by rw [applyOps_getLine]; rfl
  generalize applyOps [.drv .we true] s1 = s2 at *
  have h3 := setAddr_getLine a s2
  generalize applyOps (setAddrOps a) s2 = s3 at *
  rw [applyOps_getLine, List.foldl_cons, List.foldl_cons, List.foldl_cons, List.foldl_nil]
  cases l <;> simp [onLine, h3, h2, h1, outOf]

/-- The operations of WriteByteProc before its falling edge. -/
def pulseHead (t : Nat) (v : Byte) (a : Addr) : List PinOp := dataOps t v ++ ([.drv .we true] ++ setAddrOps a)

theorem writeByteOps_pulse (t : Nat) (v : Byte) (a : Addr) :
    writeByteOps t v a = pulseHead t v a ++ [.drv .we false, .dly t, .drv .we true] := by
  simp [writeByteOps_eq, pulseHead]

/-- The falling edge of WriteByteProc, with WE high before: the device latches the address and what the data lines
carry, and WE is low (40_bus_driver.md R126). -/
theorem pulse_fall (t : Nat) (v : Byte) (a : Addr) (s : State) (hwe : s.lines.we.out = .high) :
    ∃ d : Byte, (opEffect (.drv .we false) (applyOps (pulseHead t v a) s)).dev =
        { s.dev with latchA := a.setWidth 15, latchD := d } ∧
      (opEffect (.drv .we false) (applyOps (pulseHead t v a) s)).lines.we.out = .low ∧
      ((∀ p : Fin 8, s.lines.data[p].dir = .output) → d = v) := by
  rw [pulseHead, applyOps_append, applyOps_append]
  have hl1 := dataOps_getLine t v s
  have hd1 := (applyOps_dev (dataOps_spares t v) s).1
  generalize applyOps (dataOps t v) s = s1 at *
  have hw1 : s1.lines.we.out = .high := by rw [we_eq_getLine, hl1 .we]; exact hwe
  generalize h2 : applyOps [.drv .we true] s1 = s2
  have hd2 : s2.dev = s.dev := by
    rw [← h2, ← hd1]
    simp [applyOps, opEffect, deviceOnDrive, deviceOnWe, hw1]
  have hl2 : ∀ l, getLine s2.lines l = onLine l (.drv .we true) (getLine s1.lines l) := fun l => by
    rw [← h2, applyOps_getLine]; rfl
  clear h2
  have hw2 : s2.lines.we.out = .high := by rw [we_eq_getLine, hl2 .we]; simp [onLine, outOf]
  have hl3 := setAddr_getLine a s2
  have hd3 := (applyOps_dev (setAddr_spares a) s2).1.trans hd2
  generalize applyOps (setAddrOps a) s2 = s3 at *
  have hw3 : s3.lines.we.out = .high := by rw [we_eq_getLine, hl3 .we]; exact hw2
  have hA : busA (Config.floatingAddr s3.draws) s3.lines = a.setWidth 15 :=
    busA_of_driven fun k => by rw [addr_eq_getLine, hl3 (.addr k)]
  refine ⟨busD (Config.floatingData s3.draws) s3.lines, ?_, ?_, fun hout => ?_⟩
  · simp [opEffect, deviceOnDrive, deviceOnWe, hw3, hA, hd3]
  · rw [we_eq_getLine, opEffect_getLine]; simp [onLine, outOf]
  · apply busD_of_driven
    · intro p
      rw [data_eq_getLine, hl3 (.data p)]
      simp only [hl2, hl1, onLine]
      simpa [getLine] using hout p
    · intro p
      rw [data_eq_getLine, hl3 (.data p)]
      simp only [hl2, hl1, onLine]
      simp

/-- The device after WriteByteProc's operations, with WE high before: one falling and one rising edge, at the
address, with what the data lines carry (40_bus_driver.md R126). -/
theorem writeByteOps_dev (t : Nat) (v : Byte) (a : Addr) (s : State) (hwe : s.lines.we.out = .high) :
    ∃ d : Byte, (applyOps (writeByteOps t v a) s).dev =
        { mem := Memory.write s.dev.mem (location a) d, latchA := a.setWidth 15, latchD := d } ∧
      ((∀ p : Fin 8, s.lines.data[p].dir = .output) → d = v) := by
  obtain ⟨d, h1, h2, h3⟩ := pulse_fall t v a s hwe
  refine ⟨d, ?_, h3⟩
  rw [writeByteOps_pulse, applyOps_append]
  show (opEffect (.drv .we true) (opEffect (.drv .we false) (applyOps (pulseHead t v a) s))).dev = _
  generalize opEffect (.drv .we false) (applyOps (pulseHead t v a) s) = y at *
  have h4 : (opEffect (.drv .we true) y).dev =
      { y.dev with mem := Memory.write y.dev.mem y.dev.latchA.toNat y.dev.latchD } := by
    simp [opEffect, deviceOnDrive, deviceOnWe, h2]
  rw [h4, h1, location_eq]

end Sys2Proof.Laws
end

