-- ==== Sys2Proof/Laws/Read.lean ====
section
/-! SUPPORT. ReadByteProc in closed form: the byte its eight samples spell (40_bus_driver.md R104, R131). -/

namespace Sys2Proof.Laws

open Sys2Proof Sys2Proof.Machine Sys2Proof.Safety

/-! ## Working registers -/

/-- The working registers without the line indexes and the accumulator. -/
def strip (w : Work) : Work := { w with p := 0, k := 0, acc := 0 }

/-- The working registers of t are those of s but for p, k and acc. -/
def WorkKept (s t : State) : Prop := t.work.map strip = s.work.map strip

theorem WorkKept.refl (s : State) : WorkKept s s := rfl

theorem WorkKept.trans {s t u : State} (h : WorkKept s t) (k : WorkKept t u) : WorkKept s u := Eq.trans k h

/-- Where working registers exist, what one command step kept of them. -/
theorem WorkKept.regs {s t : State} (h : WorkKept s t) (hs : s.work.isSome = true) :
    t.work.isSome = true ∧ (workOf t).a = (workOf s).a ∧ (workOf t).bound = (workOf s).bound ∧
      (workOf t).endAddr = (workOf s).endAddr ∧ (workOf t).sink = (workOf s).sink := by
  unfold WorkKept at h
  unfold workOf
  cases hw : s.work with
  | none => simp [hw] at hs
  | some w =>
    rw [hw] at h
    cases hv : t.work with
    | none => simp [hv] at h
    | some v =>
      rw [hv] at h
      have e : strip v = strip w := by simpa using h
      have h1 := congrArg Work.a e
      have h2 := congrArg Work.bound e
      have h3 := congrArg Work.endAddr e
      have h4 := congrArg Work.sink e
      exact ⟨rfl, h1, h2, h3, h4⟩

theorem opEffect_work (op : PinOp) (s : State) :
    WorkKept s (opEffect op s) ∧ (opEffect op s).work.map Work.acc = s.work.map Work.acc := by
  unfold WorkKept
  cases op with
  | dir l d => cases l <;> cases hw : s.work <;> simp [opEffect, indexWork, strip, hw]
  | drv l b => cases l <;> cases hw : s.work <;> simp [opEffect, indexWork, strip, hw]
  | dly us => exact ⟨rfl, rfl⟩

theorem applyOps_work (ops : List PinOp) (s : State) :
    WorkKept s (applyOps ops s) ∧ (applyOps ops s).work.map Work.acc = s.work.map Work.acc := by
  induction ops generalizing s with
  | nil => exact ⟨rfl, rfl⟩
  | cons op ops ih =>
    obtain ⟨a, b⟩ := ih (opEffect op s)
    obtain ⟨c, d⟩ := opEffect_work op s
    exact ⟨c.trans a, b.trans d⟩

theorem doNeedWrite_work (s : State) : WorkKept s (doNeedWrite s) := by
  unfold doNeedWrite; split
  · rfl
  · exact (applyOps_work enterWriteOps s).1

theorem doNeedRead_work (s : State) : WorkKept s (doNeedRead s) := by
  unfold doNeedRead; split
  · rfl
  · exact (applyOps_work (enterReadOps s.params.oeSettleUs) s).1

theorem doWriteByte_work (v : Byte) (a : Addr) (s : State) : WorkKept s (doWriteByte v a s) :=
  (doNeedWrite_work s).trans (applyOps_work _ _).1

/-! ## One pass -/

theorem doReadPass_work (a : Addr) (s : State) (p : Fin 8) :
    WorkKept s (doReadPass a s p) ∧
      (doReadPass a s p).work.map Work.acc = s.work.map fun w => accumulate w.acc (passLevel a s p) := by
  obtain ⟨h1, h2⟩ := applyOps_work (readPassOps s.params.readSettleUs a) s
  unfold WorkKept at h1
  unfold WorkKept doReadPass doSample passLevel
  generalize applyOps (readPassOps s.params.readSettleUs a) s = x at *
  cases hw : s.work with
  | none =>
    have hx : x.work = none := by simpa [hw] using h1
    simp [hx]
  | some w =>
    cases hx : x.work with
    | none => simp [hw, hx] at h1
    | some v =>
      rw [hw, hx] at h1 h2
      have e1 : strip v = strip w := by simpa using h1
      have e2 : v.acc = w.acc := by simpa using h2
      refine ⟨?_, ?_⟩
      · simp only [setWork_work, afterSample_work, hx, Option.map_some, Option.some.injEq]
        rw [← e1]; rfl
      · simp [hx, e2]

theorem readPass_getLine (us : Nat) (a : Addr) (s : State) (l : LineId) :
    getLine (applyOps (readPassOps us a) s).lines l =
      match l with
      | .addr k => { getLine s.lines (.addr k) with out := outOf (a.getLsbD k) }
      | m => getLine s.lines m := by
  cases l <;>
    rw [readPassOps, applyOps_append, applyOps_getLine, List.foldl_cons, List.foldl_nil, onLine, setAddr_getLine]

theorem doReadPass_lines (a : Addr) (s : State) (p : Fin 8) :
    (doReadPass a s p).lines = (applyOps (readPassOps s.params.readSettleUs a) s).lines := by
  simp [doReadPass, doSample]

theorem doReadPass_getLine (a : Addr) (s : State) (p : Fin 8) (l : LineId) :
    getLine (doReadPass a s p).lines l =
      match l with
      | .addr k => { getLine s.lines (.addr k) with out := outOf (a.getLsbD k) }
      | m => getLine s.lines m := by
  rw [doReadPass_lines, readPass_getLine]

theorem doReadPass_fields (a : Addr) (s : State) (p : Fin 8) :
    (doReadPass a s p).mode = s.mode ∧ (doReadPass a s p).source = s.source ∧ (doReadPass a s p).dev = s.dev := by
  refine ⟨by simp [doReadPass, doSample], by simp [doReadPass, doSample], ?_⟩
  simpa [doReadPass, doSample] using (applyOps_dev (readPass_spares _ a) s).1

/-! ## All passes -/

/-- The levels of the passes ps from block b. -/
def levels (a : Addr) : List (Fin 8) → State → List Bool
  | [], _ => []
  | p :: ps, b => passLevel a b p :: levels a ps (doReadPass a b p)

theorem levels_length (a : Addr) (ps : List (Fin 8)) (b : State) : (levels a ps b).length = ps.length := by
  induction ps generalizing b with
  | nil => rfl
  | cons p ps ih => simp [levels, ih]

theorem passesTrace_eq (a : Addr) (ps : List (Fin 8)) (b : State) :
    passesTrace a ps b = (List.zipWith (fun p s => setAddrTrace b.cfg a ++
      [.dly b.params.readSettleUs, .smp b.cfg.dataPin[p] s]) ps (levels a ps b)).flatten := by
  induction ps generalizing b with
  | nil => rfl
  | cons p ps ih =>
    have hc := doReadPass_core a b p
    simp only [passesTrace, levels, List.zipWith_cons_cons, List.flatten_cons, ih, hc.cfg, hc.params, passTrace]

theorem passes_work (a : Addr) (ps : List (Fin 8)) (b : State) :
    WorkKept b (ps.foldl (doReadPass a) b) ∧
      (ps.foldl (doReadPass a) b).work.map Work.acc =
        b.work.map fun w => (levels a ps b).foldl accumulate w.acc := by
  induction ps generalizing b with
  | nil => exact ⟨rfl, rfl⟩
  | cons p ps ih =>
    obtain ⟨h1, h2⟩ := ih (doReadPass a b p)
    obtain ⟨h3, h4⟩ := doReadPass_work a b p
    refine ⟨h3.trans h1, ?_⟩
    rw [List.foldl_cons, h2, levels]
    have e : ∀ x : Option Work, (x.map fun w => (levels a ps (doReadPass a b p)).foldl accumulate w.acc) =
        (x.map Work.acc).map fun c => (levels a ps (doReadPass a b p)).foldl accumulate c := by
      intro x; cases x <;> rfl
    rw [e, h4]
    cases b.work <;> rfl

theorem passes_fields (a : Addr) (ps : List (Fin 8)) (b : State) :
    (ps.foldl (doReadPass a) b).mode = b.mode ∧ (ps.foldl (doReadPass a) b).source = b.source ∧
      (ps.foldl (doReadPass a) b).dev = b.dev := by
  induction ps generalizing b with
  | nil => exact ⟨rfl, rfl, rfl⟩
  | cons p ps ih =>
    obtain ⟨h1, h2, h3⟩ := ih (doReadPass a b p)
    obtain ⟨h4, h5, h6⟩ := doReadPass_fields a b p
    exact ⟨h1.trans h4, h2.trans h5, h3.trans h6⟩

theorem passes_core (a : Addr) (ps : List (Fin 8)) (b : State) : Core b (ps.foldl (doReadPass a) b) := by
  induction ps generalizing b with
  | nil => exact Core.refl b
  | cons p ps ih => exact (doReadPass_core a b p).trans (ih _)

theorem passes_getLine (a : Addr) (ps : List (Fin 8)) (b : State) (l : LineId) :
    getLine (ps.foldl (doReadPass a) b).lines l =
      match l with
      | .addr k => if ps = [] then getLine b.lines (.addr k)
          else { getLine b.lines (.addr k) with out := outOf (a.getLsbD k) }
      | m => getLine b.lines m := by
  induction ps generalizing b with
  | nil => cases l <;> rfl
  | cons p ps ih =>
    rw [List.foldl_cons, ih]
    cases l with
    | addr k =>
      simp only [doReadPass_getLine]
      by_cases h : ps = [] <;> simp [h]
    | data q => simp only [doReadPass_getLine]
    | we => simp only [doReadPass_getLine]
    | oe => simp only [doReadPass_getLine]

/-- Eight levels spell the byte they accumulate to, most significant bit first (40_bus_driver.md R104). -/
theorem accumulate_levels {ls : List Bool} (h : ls.length = 8) :
    ls = (List.finRange 8).map fun p : Fin 8 => (ls.foldl accumulate 0).getLsbD (7 - p) := by
  match ls, h with
  | [a, b, c, d, e, f, g, i], _ =>
    revert a b c d e f g i
    decide

/-- The events of eight passes, by the byte they spell. -/
theorem passesTrace_byte (a : Addr) (b : State) :
    passesTrace a (List.finRange 8) b =
      readByteTrace b.params.readSettleUs b.cfg a ((levels a (List.finRange 8) b).foldl accumulate 0) := by
  rw [passesTrace_eq]
  have h := accumulate_levels (ls := levels a (List.finRange 8) b) (by simp [levels_length])
  generalize (levels a (List.finRange 8) b).foldl accumulate 0 = v at *
  rw [h, readByteTrace, List.flatMap, List.zipWith_map_right, List.zipWith_self]

/-- The byte ReadByteProc(a) reads from block b. -/
def readValue (a : Addr) (b : State) : Byte :=
  (levels a (List.finRange 8) (clearAcc (doNeedRead b))).foldl accumulate 0

/-- The events of ReadByteProc(a) spell the byte it reads (40_bus_driver.md R131). -/
theorem readTrace_eq (a : Addr) (b : State) :
    readTrace a b = needReadTrace b ++ readByteTrace b.params.readSettleUs b.cfg a (readValue a b) := by
  rw [readTrace, passesTrace_byte]
  have h := doNeedRead_core b
  have e1 : (clearAcc (doNeedRead b)).params = b.params := h.params
  have e2 : (clearAcc (doNeedRead b)).cfg = b.cfg := h.cfg
  rw [e1, e2]; rfl

theorem clearAcc_work (b : State) : WorkKept b (clearAcc b) := by
  unfold WorkKept clearAcc
  rw [setWork_work]
  cases b.work <;> rfl

theorem doReadByte_work (a : Addr) (b : State) : WorkKept b (doReadByte a b) :=
  ((doNeedRead_work b).trans (clearAcc_work _)).trans (passes_work _ _ _).1

/-- `acc` holds the byte at the end of ReadByteProc(a). -/
theorem doReadByte_acc (a : Addr) (b : State) (h : b.work.isSome = true) :
    (workOf (doReadByte a b)).acc = readValue a b := by
  have h1 := (passes_work a (List.finRange 8) (clearAcc (doNeedRead b))).2
  have h2 := ((doNeedRead_work b).regs h).1
  unfold doReadByte workOf readValue
  generalize (List.finRange 8).foldl (doReadPass a) (clearAcc (doNeedRead b)) = y at *
  obtain ⟨w, hw⟩ := Option.isSome_iff_exists.1 h2
  have hc : (clearAcc (doNeedRead b)).work = some { w with acc := 0 } := by simp [clearAcc, hw]
  rw [hc] at h1
  cases hy : y.work with
  | none => simp [hy] at h1
  | some u =>
    rw [hy] at h1
    simpa using h1

theorem doReadByte_fields (a : Addr) (b : State) :
    (doReadByte a b).mode = .read ∧ (doReadByte a b).source = b.source ∧ (doReadByte a b).dev = b.dev := by
  obtain ⟨h1, h2, h3⟩ := passes_fields a (List.finRange 8) (clearAcc (doNeedRead b))
  refine ⟨h1.trans (doNeedRead_mode b), h2.trans ?_, h3.trans (doNeedRead_dev b).1⟩
  exact doNeedRead_source b

theorem doReadByte_getLine (a : Addr) (b : State) (l : LineId) :
    getLine (doReadByte a b).lines l =
      match l with
      | .addr k => { getLine (doNeedRead b).lines (.addr k) with out := outOf (a.getLsbD k) }
      | m => getLine (doNeedRead b).lines m := by
  rw [doReadByte, passes_getLine]
  cases l <;> simp [finRange_eight, clearAcc]

/-! ## What the samples are -/

/-- The reference device drives every data line (20_memory.md R73). -/
def Driving (s : State) : Prop :=
  s.refDevice = true ∧ s.lines.oe.out = .low ∧ s.lines.we.out = .high ∧ ∀ p : Fin 8, s.lines.data[p].dir = .input

theorem driving_pass {a : Addr} {s : State} (h : Driving s) (p : Fin 8) :
    passLevel a s p = (deviceByte s.dev.mem (location a)).getLsbD (7 - p) ∧ Driving (doReadPass a s p) ∧
      (doReadPass a s p).samples = s.samples ∧ (doReadPass a s p).draws = s.draws := by
  obtain ⟨h1, h2, h3, h4⟩ := h
  have hl := readPass_getLine s.params.readSettleUs a s
  have hd := applyOps_dev (readPass_spares s.params.readSettleUs a) s
  have hr := (applyOps_core (readPassOps s.params.readSettleUs a) s).refDevice
  have hs := applyOps_samples (readPassOps s.params.readSettleUs a) s
  have hg := doReadPass_getLine a s p
  have hc := (doReadPass_core a s p).refDevice
  have hdrive : ∀ q : Fin 8, deviceDrives q (applyOps (readPassOps s.params.readSettleUs a) s) = true := by
    intro q
    have e1 : (applyOps (readPassOps s.params.readSettleUs a) s).lines.oe = s.lines.oe := hl .oe
    have e2 : (applyOps (readPassOps s.params.readSettleUs a) s).lines.we = s.lines.we := hl .we
    have e3 : (applyOps (readPassOps s.params.readSettleUs a) s).lines.data[q] = s.lines.data[q] := hl (.data q)
    unfold deviceDrives
    rw [e1, e2, e3, h2, h3, h4 q, hr, h1]
    rfl
  refine ⟨?_, ⟨hc.trans h1, ?_, ?_, fun q => ?_⟩, ?_, ?_⟩
  · unfold passLevel sampleLevel
    rw [if_pos (hdrive p), hd.1, location_eq]
    rw [busA_of_driven (a := a) fun k => by rw [addr_eq_getLine, hl (.addr k)]]
    rfl
  · rw [oe_eq_getLine, hg .oe]; exact h2
  · rw [we_eq_getLine, hg .we]; exact h3
  · rw [data_eq_getLine, hg (.data q)]; exact h4 q
  · unfold doReadPass doSample
    simp [hdrive p]
  · unfold doReadPass doSample
    simp [hdrive p, hd.2]

theorem driving_levels {a : Addr} (ps : List (Fin 8)) {s : State} (h : Driving s) :
    levels a ps s = ps.map (fun p : Fin 8 => (deviceByte s.dev.mem (location a)).getLsbD (7 - p)) ∧
      Driving (ps.foldl (doReadPass a) s) ∧ (ps.foldl (doReadPass a) s).samples = s.samples ∧
      (ps.foldl (doReadPass a) s).draws = s.draws := by
  induction ps generalizing s with
  | nil => exact ⟨rfl, h, rfl, rfl⟩
  | cons p ps ih =>
    obtain ⟨h1, h2, h3, h4⟩ := driving_pass (a := a) h p
    obtain ⟨h5, h6, h7, h8⟩ := ih h2
    refine ⟨?_, h6, h7.trans h3, h8.trans h4⟩
    rw [levels, h1, h5, (doReadPass_fields a s p).2.2]
    rfl

theorem accumulate_bits (v : Byte) :
    ((List.finRange 8).map fun p : Fin 8 => v.getLsbD (7 - p)).foldl accumulate 0 = v := by
  revert v; decide +kernel

/-- With the reference device driving, ReadByteProc(a) reads its byte (40_bus_driver.md R131). -/
theorem readValue_driving {a : Addr} {b : State} (h : Driving (doNeedRead b)) :
    readValue a b = deviceByte b.dev.mem (location a) := by
  have h' : Driving (clearAcc (doNeedRead b)) := h
  rw [readValue, (driving_levels _ h').1, accumulate_bits]
  have : (clearAcc (doNeedRead b)).dev = b.dev := (doNeedRead_dev b).1
  rw [this]

theorem doReadByte_driving {a : Addr} {b : State} (h : Driving (doNeedRead b)) :
    Driving (doReadByte a b) ∧ (doReadByte a b).samples = b.samples ∧ (doReadByte a b).draws = b.draws := by
  have h' : Driving (clearAcc (doNeedRead b)) := h
  obtain ⟨_, h2, h3, h4⟩ := driving_levels (a := a) (List.finRange 8) h'
  exact ⟨h2, h3.trans (doNeedRead_samples b), h4.trans (doNeedRead_dev b).2⟩

/-- A pass whose sample is a draw takes the next listed answer (20_memory.md R68). -/
theorem drawing_pass {a : Addr} {s : State} (h : s.refDevice = false) (p : Fin 8) :
    passLevel a s p = s.samples.headD (Config.freeSample s.draws) ∧
      (doReadPass a s p).samples = s.samples.tail ∧ (doReadPass a s p).draws = s.draws + 1 := by
  have hr := (applyOps_core (readPassOps s.params.readSettleUs a) s).refDevice
  have hs := applyOps_samples (readPassOps s.params.readSettleUs a) s
  have hd := applyOps_dev (readPass_spares s.params.readSettleUs a) s
  have hdrive : deviceDrives p (applyOps (readPassOps s.params.readSettleUs a) s) = false := by
    unfold deviceDrives; rw [hr, h]; rfl
  refine ⟨?_, ?_, ?_⟩
  · unfold passLevel sampleLevel
    simp [hdrive, hd.2]
  · unfold doReadPass doSample
    simp [hdrive]
  · unfold doReadPass doSample
    simp [hdrive, hd.2]

theorem drawing_levels {a : Addr} (ps : List (Fin 8)) {s : State} (h : s.refDevice = false)
    (hn : ps.length ≤ s.samples.length) :
    levels a ps s = s.samples.take ps.length ∧
      (ps.foldl (doReadPass a) s).samples = s.samples.drop ps.length := by
  induction ps generalizing s with
  | nil => exact ⟨by simp [levels], by simp⟩
  | cons p ps ih =>
    obtain ⟨h1, h2, _⟩ := drawing_pass (a := a) h p
    have hr := (doReadPass_core a s p).refDevice
    cases hs : s.samples with
    | nil => simp [hs] at hn
    | cons x xs =>
      rw [hs] at h1 h2 hn
      obtain ⟨h3, h4⟩ := ih (s := doReadPass a s p) (hr.trans h) (by rw [h2]; simpa using hn)
      refine ⟨?_, ?_⟩
      · rw [levels, h1, h3, h2]; simp
      · rw [List.foldl_cons, h4, h2]; simp

end Sys2Proof.Laws
end

