-- ==== Sys2Proof/Laws/Loops.lean ====
section
/-! SUPPORT. The loops of PROGRAM and DUMP in closed form (41_programmer.md R140 to R147). -/

namespace Sys2Proof.Laws

open Sys2Proof Sys2Proof.Machine Sys2Proof.Safety

/-! ## What a byte write leaves, as a function of what it finds -/

/-- The line record after pin-bank operations. -/
def opsLines (ops : List PinOp) (ls : Lines) : Lines :=
  ops.foldl (fun ls op => match op with
    | .dir l d => putDir l d ls
    | .drv l b => putOut l b ls
    | .dly _ => ls) ls

theorem applyOps_lines (ops : List PinOp) (s : State) : (applyOps ops s).lines = opsLines ops s.lines := by
  induction ops generalizing s with
  | nil => rfl
  | cons op ops ih =>
    have h : (applyOps (op :: ops) s).lines = opsLines ops (opEffect op s).lines := ih _
    rw [h]
    cases op <;> simp [opsLines, opEffect]

/-- The line record after WriteByteProc for each byte of vs from address a up, in mode WRITE. -/
def writesLines (t : Nat) : Nat → List Byte → Lines → Lines
  | _, [], ls => ls
  | a, v :: vs, ls => writesLines t (a + 1) vs (opsLines (writeByteOps t v (BitVec.ofNat 16 a)) ls)

/-- The reference device after WriteByteProc for each byte of vs from address a up, with the data lines out. -/
def writesDev : Nat → List Byte → RefDevice → RefDevice
  | _, [], d => d
  | a, v :: vs, d =>
    writesDev (a + 1) vs
      { mem := Memory.write d.mem (location (BitVec.ofNat 16 a)) v
        latchA := (BitVec.ofNat 16 a).setWidth 15
        latchD := v }

/-- WE is high and the data lines are outputs, as they are left in mode WRITE (10_state.md R41). -/
def Writing (ls : Lines) : Prop := ls.we.out = .high ∧ ∀ p : Fin 8, ls.data[p].dir = .output

theorem writeByteOps_writing {t : Nat} {v : Byte} {a : Addr} {ls : Lines} (h : Writing ls) :
    Writing (opsLines (writeByteOps t v a) ls) := by
  have g := writeByteOps_getLine t v a { State.reset with lines := ls }
  rw [applyOps_lines] at g
  refine ⟨?_, fun p => ?_⟩
  · rw [we_eq_getLine, g .we]
  · rw [data_eq_getLine, g (.data p)]; exact h.2 p

theorem writeByteOps_dev_writing {t : Nat} {v : Byte} {a : Addr} {s : State} (h : Writing s.lines) :
    (applyOps (writeByteOps t v a) s).dev =
      { mem := Memory.write s.dev.mem (location a) v, latchA := a.setWidth 15, latchD := v } := by
  obtain ⟨d, h1, h2⟩ := writeByteOps_dev t v a s h.1
  rw [h1, h2 h.2]

theorem writesLines_append (t : Nat) (a : Nat) (us : List Byte) (v : Byte) (ls : Lines) :
    writesLines t a (us ++ [v]) ls =
      opsLines (writeByteOps t v (BitVec.ofNat 16 (a + us.length))) (writesLines t a us ls) := by
  induction us generalizing a ls with
  | nil => rfl
  | cons u us ih =>
    rw [List.cons_append, writesLines, ih, writesLines]
    rw [List.length_cons, show a + 1 + us.length = a + (us.length + 1) by omega]

theorem opsLines_getLine (ops : List PinOp) (ls : Lines) (l : LineId) :
    getLine (opsLines ops ls) l = ops.foldl (fun x op => onLine l op x) (getLine ls l) := by
  have h := applyOps_getLine ops { State.reset with lines := ls } l
  rw [applyOps_lines] at h
  exact h

theorem writeByte_getLine (t : Nat) (v : Byte) (a : Addr) (ls : Lines) (l : LineId) :
    getLine (opsLines (writeByteOps t v a) ls) l =
      match l with
      | .addr k => { getLine ls (.addr k) with out := outOf (a.getLsbD k) }
      | .data p => { getLine ls (.data p) with out := outOf (v.getLsbD (7 - p)) }
      | .we => { getLine ls .we with out := .high }
      | .oe => getLine ls .oe := by
  have h := writeByteOps_getLine t v a { State.reset with lines := ls } l
  rw [applyOps_lines] at h
  exact h

/-- The directions, and OE, are as before whatever is written. -/
theorem writesLines_dirs (t a : Nat) (vs : List Byte) (ls : Lines) :
    (∀ l, (getLine (writesLines t a vs ls) l).dir = (getLine ls l).dir) ∧
      (writesLines t a vs ls).oe = ls.oe := by
  induction vs generalizing a ls with
  | nil => exact ⟨fun _ => rfl, rfl⟩
  | cons v vs ih =>
    obtain ⟨h1, h2⟩ := ih (a + 1) (opsLines (writeByteOps t v (BitVec.ofNat 16 a)) ls)
    refine ⟨fun l => (h1 l).trans ?_, h2.trans ?_⟩
    · rw [writeByte_getLine]; cases l <;> rfl
    · rw [oe_eq_getLine, writeByte_getLine]; rfl

theorem writesLines_writing {t a : Nat} {vs : List Byte} {ls : Lines} (h : Writing ls) :
    Writing (writesLines t a vs ls) := by
  induction vs generalizing a ls with
  | nil => exact h
  | cons v vs ih => exact ih (writeByteOps_writing h)

/-- What the lines hold after the last byte of a list is written: its byte, its address, WE high. -/
theorem writesLines_last (t a : Nat) (us : List Byte) (v : Byte) (ls : Lines) (l : LineId) :
    getLine (writesLines t a (us ++ [v]) ls) l =
      match l with
      | .addr k => { getLine ls (.addr k) with out := outOf ((BitVec.ofNat 16 (a + us.length)).getLsbD k) }
      | .data p => { getLine ls (.data p) with out := outOf (v.getLsbD (7 - p)) }
      | .we => { getLine ls .we with out := .high }
      | .oe => getLine ls .oe := by
  rw [writesLines_append, writeByte_getLine]
  obtain ⟨h1, h2⟩ := writesLines_dirs t a us ls
  cases l with
  | addr k => simp [h1 (.addr k)]
  | data p => simp [h1 (.data p)]
  | we => simp [h1 .we]
  | oe => exact h2

/-- The memory after bytes were written from address a up, all inside the address space. -/
theorem writesDev_read (a : Nat) (vs : List Byte) (d : RefDevice) (h : a + vs.length ≤ 0x8000) (x : Nat) :
    Memory.read (writesDev a vs d).mem x =
      if a ≤ x then
        match vs[x - a]? with
        | some v => some v
        | none => Memory.read d.mem x
      else Memory.read d.mem x := by
  induction vs generalizing a d with
  | nil => simp [writesDev]
  | cons v vs ih =>
    have hl : location (BitVec.ofNat 16 a) = a := by
      rw [location_eq]
      simp only [BitVec.toNat_setWidth, BitVec.toNat_ofNat]
      simp at h
      omega
    simp only [List.length_cons] at h
    rw [writesDev, ih (a + 1) _ (by omega), hl]
    simp only [memory_read_write]
    by_cases h1 : a + 1 ≤ x
    · have h2 : a ≤ x := by omega
      have h3 : x - a = (x - (a + 1)) + 1 := by omega
      simp only [h1, h2, if_true, h3, List.getElem?_cons_succ]
      have h4 : x ≠ a := by omega
      simp [h4]
    · by_cases h2 : x = a
      · subst h2; simp
      · have h3 : ¬ a ≤ x := by omega
        simp [h1, h2, h3]

/-! ## PROGRAM's loop -/

theorem workOf_setWork {s : State} (h : s.work.isSome = true) (f : Work → Work) :
    workOf (setWork f s) = f (workOf s) := by
  obtain ⟨w, hw⟩ := Option.isSome_iff_exists.1 h
  simp [workOf, hw]

theorem sourceBytes_cons {s : State} (h : srcAvail s = true) :
    sourceBytes s.source = srcNext s :: sourceBytes ⟨s.source.answers.tail, s.source.bytes.tail⟩ := by
  unfold srcAvail at h
  unfold sourceBytes srcNext
  match ha : s.source.answers, hb : s.source.bytes with
  | [], [] => simp [hb] at h
  | [], [_] => rfl
  | [], _ :: _ :: _ => rfl
  | true :: _, _ :: _ => rfl
  | true :: _, [] => simp [hb] at h
  | false :: _, _ => simp [ha] at h

theorem sourceBytes_nil {s : State} (h : srcAvail s = false) : sourceBytes s.source = [] := by
  unfold srcAvail at h
  unfold sourceBytes
  match ha : s.source.answers, hb : s.source.bytes with
  | _, [] => cases s.source.answers <;> simp [bytesBefore]
  | false :: _, _ :: _ => rfl
  | [], _ :: _ => simp [ha, hb] at h
  | true :: _, _ :: _ => simp [ha, hb] at h

/-- One turn of PROGRAM's loop in mode WRITE on a block whose source yields v next. -/
theorem doProgramByte_spec {b : State} (hw : b.work.isSome = true) (hm : b.mode = .write) :
    (doProgramByte b).work.isSome = true ∧ (workOf (doProgramByte b)).a = (workOf b).a + 1 ∧
      (workOf (doProgramByte b)).bound = (workOf b).bound ∧ (doProgramByte b).mode = .write ∧
      (doProgramByte b).source = ⟨b.source.answers, b.source.bytes.tail⟩ ∧ (doProgramByte b).samples = b.samples ∧
      (doProgramByte b).lines =
        opsLines (writeByteOps b.cfg.tBit.toNat (srcNext b) (workOf b).a) b.lines ∧
      (Writing b.lines → (doProgramByte b).dev =
        { mem := Memory.write b.dev.mem (location (workOf b).a) (srcNext b)
          latchA := (workOf b).a.setWidth 15, latchD := srcNext b }) ∧
      Core b (doProgramByte b) := by
  have hd : doWriteByte (srcNext b) (workOf b).a (doRead b) =
      applyOps (writeByteOps b.cfg.tBit.toNat (srcNext b) (workOf b).a) (doRead b) := by
    unfold doWriteByte doNeedWrite
    rw [if_pos (show (doRead b).mode = .write from hm)]
    rfl
  have e : doProgramByte b = nextAddr (applyOps (writeByteOps b.cfg.tBit.toNat (srcNext b) (workOf b).a)
      (doRead b)) := by rw [doProgramByte, hd]
  obtain ⟨r1, r2, r3, _, _⟩ := (applyOps_work (writeByteOps b.cfg.tBit.toNat (srcNext b) (workOf b).a)
    (doRead b)).1.regs hw
  have hc := applyOps_core (writeByteOps b.cfg.tBit.toNat (srcNext b) (workOf b).a) (doRead b)
  rw [e]
  refine ⟨?_, ?_, ?_, ?_, ?_, ?_, ?_, fun h => ?_, ?_⟩
  · simpa [nextAddr] using r1
  · rw [nextAddr, workOf_setWork r1]; simp only [r2]; rfl
  · rw [nextAddr, workOf_setWork r1]; simp only [r3]; rfl
  · simpa [nextAddr] using (show (doRead b).mode = .write from hm)
  · simp [nextAddr, doRead]
  · simp [nextAddr, doRead]
  · simp only [nextAddr, setWork_lines]; exact applyOps_lines _ _
  · simp only [nextAddr, setWork_dev]
    exact writeByteOps_dev_writing (s := doRead b) h
  · exact ⟨hc.cfg, hc.params, hc.sinkAvail, hc.refDevice, hc.busy, hc.last, hc.result, hc.mem⟩

/-- PROGRAM's loop, with exactly as many turns as `span` allows (41_programmer.md R142): it writes the bytes vs
the source yields before its first "false", at most span of them. -/
theorem doProgramLoop_spec (n : Nat) (b : State) (vs : List Byte) (hw : b.work.isSome = true)
    (hm : b.mode = .write) (hB : (workOf b).bound.toNat ≤ 0x7FFE)
    (hn : n = (workOf b).bound.toNat + 1 - (workOf b).a.toNat) (hv : vs = (sourceBytes b.source).take n) :
    programLoopTrace n b =
        programTrace b.cfg (workOf b).a.toNat vs ++ (if vs.length < n then [.srcQ false] else []) ∧
      (doProgramLoop n b).mode = .write ∧
      (doProgramLoop n b).source =
        ⟨b.source.answers.drop (vs.length + if vs.length < n then 1 else 0), b.source.bytes.drop vs.length⟩ ∧
      (doProgramLoop n b).samples = b.samples ∧
      (doProgramLoop n b).lines = writesLines b.cfg.tBit.toNat (workOf b).a.toNat vs b.lines ∧
      (Writing b.lines → (doProgramLoop n b).dev = writesDev (workOf b).a.toNat vs b.dev) ∧
      Core b (doProgramLoop n b) := by
  induction n generalizing b vs with
  | zero =>
    simp only [List.take_zero] at hv
    subst hv
    exact ⟨rfl, hm, rfl, rfl, rfl, fun _ => rfl, Core.refl b⟩
  | succ n ih =>
    have hle : (workOf b).a ≤ (workOf b).bound := by
      rw [BitVec.le_def]; omega
    have hcond : ((workOf b).a ≤ (workOf b).bound) = True := by simp [hle]
    cases hs : srcAvail b
    · have hnil := sourceBytes_nil hs
      rw [hnil, List.take_nil] at hv
      subst hv
      have e1 : doProgramLoop (n + 1) b = doQuery b := by simp [doProgramLoop, hle, hs]
      have e3 : programLoopTrace (n + 1) b = [.srcQ false] := by simp [programLoopTrace, hle, hs]
      rw [e1, e3]
      exact ⟨by simp [programTrace], hm, by simp [doQuery], rfl, rfl, fun _ => rfl, doQuery_core b⟩
    · have hsrc := sourceBytes_cons hs
      have e1 : doProgramLoop (n + 1) b = doProgramLoop n (doProgramByte (doQuery b)) := by
        simp [doProgramLoop, hle, hs]
      have e2 : programLoopTrace (n + 1) b =
          .srcQ true :: (programByteTrace (doQuery b) ++ programLoopTrace n (doProgramByte (doQuery b))) := by
        simp [programLoopTrace, hle, hs]
      have hwq : (doQuery b).work.isSome = true := hw
      have hmq : (doQuery b).mode = .write := hm
      have q1 : workOf (doQuery b) = workOf b := rfl
      have q2 : srcNext (doQuery b) = srcNext b := rfl
      have q3 : (doQuery b).cfg = b.cfg := rfl
      have q4 : (doQuery b).lines = b.lines := rfl
      have q5 : (doQuery b).dev = b.dev := rfl
      have q6 : (doQuery b).samples = b.samples := rfl
      have q7 : (doQuery b).source = ⟨b.source.answers.tail, b.source.bytes⟩ := rfl
      have q8 : programByteTrace (doQuery b) =
          .srcR (srcNext b) :: writeByteTrace b.cfg (srcNext b) (workOf b).a := by
        have : needWriteTrace (doQuery b) = [] := by simp [needWriteTrace, hmq]
        rw [programByteTrace, this, q1, q2, q3]; rfl
      obtain ⟨k1, k2, k3, k4, k5, k6, k7, k8, k9⟩ := doProgramByte_spec hwq hmq
      have k9' : Core b (doProgramByte (doQuery b)) := (doQuery_core b).trans k9
      rw [q1] at k2 k3
      rw [q7] at k5
      rw [q1, q2, q3, q4] at k7
      rw [q1, q2, q4, q5] at k8
      rw [q6] at k6
      generalize doProgramByte (doQuery b) = y at *
      have ha : (workOf y).a.toNat = (workOf b).a.toNat + 1 := by
        rw [k2, BitVec.toNat_add]
        have : (workOf b).a.toNat ≤ 0x7FFE := by rw [BitVec.le_def] at hle; omega
        have h1 : (1 : BitVec 16).toNat = 1 := rfl
        omega
      generalize hus : (sourceBytes y.source).take n = us at *
      have hv' : vs = srcNext b :: us := by rw [hv, hsrc, List.take_succ_cons, ← hus, k5]
      obtain ⟨i1, i2, i3, i4, i5, i6, i7⟩ := ih y us k1 k4 (by rw [k3]; exact hB) (by rw [k3, ha]; omega) hus.symm
      have ea : BitVec.ofNat 16 (workOf b).a.toNat = (workOf b).a := by simp
      have hlt : (vs.length < n + 1) = (us.length < n) := by rw [hv']; simp
      rw [e1, e2]
      simp only [hlt]
      rw [hv', q8]
      refine ⟨?_, i2, ?_, i4.trans k6, ?_, fun h => ?_, k9'.trans i7⟩
      · rw [i1, ha, k9'.cfg, programTrace, ea]
        simp
      · rw [i3, k5]
        simp only [List.length_cons, List.drop_tail, Nat.add_right_comm us.length 1]
      · rw [i5, k9'.cfg, k7, ha, writesLines, ea]
      · have hwr : Writing y.lines := by rw [k7]; exact writeByteOps_writing h
        rw [i6 hwr, ha, k8 h, writesDev, ea]

/-! ## The samples do not depend on the working registers -/

/-- The state without its working registers. -/
def noWork (s : State) : State := { s with work := none }

theorem opEffect_noWork (op : PinOp) (s : State) : noWork (opEffect op (noWork s)) = noWork (opEffect op s) := by
  cases op with
  | dir l d => rfl
  | drv l d =>
    cases l <;> try rfl
    simp only [opEffect, deviceOnDrive, deviceOnWe, noWork]
    split <;> rfl
  | dly us => rfl

theorem opEffect_noWork_congr (op : PinOp) {x y : State} (h : noWork x = noWork y) :
    noWork (opEffect op x) = noWork (opEffect op y) := by
  rw [← opEffect_noWork, h, opEffect_noWork]

theorem applyOps_noWork_congr (ops : List PinOp) {x y : State} (h : noWork x = noWork y) :
    noWork (applyOps ops x) = noWork (applyOps ops y) := by
  induction ops generalizing x y with
  | nil => exact h
  | cons op ops ih => exact ih (opEffect_noWork_congr op h)

theorem sampleLevel_noWork_congr (p : Fin 8) {x y : State} (h : noWork x = noWork y) :
    sampleLevel p x = sampleLevel p y := by
  have e : ∀ w : State, sampleLevel p (noWork w) = sampleLevel p w := fun _ => rfl
  rw [← e x, ← e y, h]

theorem doSample_noWork_congr (p : Fin 8) {x y : State} (h : noWork x = noWork y) :
    noWork (doSample p x) = noWork (doSample p y) := by
  have e : ∀ w : State, noWork (doSample p (noWork w)) = noWork (doSample p w) := by
    intro w
    have : deviceDrives p (noWork w) = deviceDrives p w := rfl
    unfold doSample afterSample
    rw [this]
    split <;> rfl
  rw [← e x, ← e y, h]

theorem noWork_params {x y : State} (h : noWork x = noWork y) : x.params = y.params := by
  show (noWork x).params = (noWork y).params
  rw [h]

theorem doReadPass_noWork_congr (a : Addr) (p : Fin 8) {x y : State} (h : noWork x = noWork y) :
    passLevel a x p = passLevel a y p ∧ noWork (doReadPass a x p) = noWork (doReadPass a y p) := by
  have k := applyOps_noWork_congr (readPassOps y.params.readSettleUs a) h
  unfold passLevel doReadPass
  rw [noWork_params h]
  exact ⟨sampleLevel_noWork_congr p k, doSample_noWork_congr p k⟩

theorem levels_noWork (a : Addr) (ps : List (Fin 8)) {x y : State} (h : noWork x = noWork y) :
    levels a ps x = levels a ps y := by
  induction ps generalizing x y with
  | nil => rfl
  | cons p ps ih =>
    obtain ⟨h1, h2⟩ := doReadPass_noWork_congr a p h
    rw [levels, levels, h1, ih h2]

/-! ## DUMP's loop -/

theorem core_setWork (f : Work → Work) (s : State) : Core s (setWork f s) :=
  ⟨rfl, rfl, rfl, rfl, rfl, rfl, rfl, fun h => h⟩

/-- One turn of DUMP's loop in mode READ. -/
theorem doDumpByte_spec {b : State} (hw : b.work.isSome = true) (hm : b.mode = .read) :
    (doDumpByte b).work.isSome = true ∧ (workOf (doDumpByte b)).a = (workOf b).a + 1 ∧
      (workOf (doDumpByte b)).endAddr = (workOf b).endAddr ∧ (doDumpByte b).mode = .read ∧
      (doDumpByte b).source = b.source ∧ (doDumpByte b).dev = b.dev ∧
      (∀ l, getLine (doDumpByte b).lines l =
        match l with
        | .addr k => { getLine b.lines (.addr k) with out := outOf ((workOf b).a.getLsbD k) }
        | m => getLine b.lines m) ∧
      dumpByteTraceAt (workOf b).a b =
        (textBefore b.params.hexUpper (workOf b).a).map .out ++
          (readByteTrace b.params.readSettleUs b.cfg (workOf b).a (readValue (workOf b).a b) ++
            (textAfter b.params.hexUpper b.params.eolSeq (workOf b).a (readValue (workOf b).a b)).map .out) ∧
      (Driving b → readValue (workOf b).a b = deviceByte b.dev.mem (location (workOf b).a) ∧
        Driving (doDumpByte b) ∧ (doDumpByte b).samples = b.samples) ∧
      Core b (doDumpByte b) := by
  have hcol : setColumn (workOf b).a b = { b with work := (setColumn (workOf b).a b).work } := rfl
  have hws : (setColumn (workOf b).a b).work.isSome = true := by simpa [setColumn] using hw
  have hwc : workOf (setColumn (workOf b).a b) = { workOf b with j := (workOf b).a.extractLsb' 0 4 } :=
    workOf_setWork hw _
  have hms : (setColumn (workOf b).a b).mode = .read := hm
  have hns : doNeedRead (setColumn (workOf b).a b) = setColumn (workOf b).a b := by
    unfold doNeedRead; rw [if_pos hms]
  have hnb : doNeedRead b = b := by unfold doNeedRead; rw [if_pos hm]
  obtain ⟨f1, f2, f3⟩ := doReadByte_fields (workOf b).a (setColumn (workOf b).a b)
  obtain ⟨r1, r2, r3, r4, _⟩ := (doReadByte_work (workOf b).a (setColumn (workOf b).a b)).regs hws
  have hacc := doReadByte_acc (workOf b).a (setColumn (workOf b).a b) hws
  have hc := doReadByte_core (workOf b).a (setColumn (workOf b).a b)
  have hg := doReadByte_getLine (workOf b).a (setColumn (workOf b).a b)
  have hrt := readTrace_eq (workOf b).a (setColumn (workOf b).a b)
  have hval : readValue (workOf b).a (setColumn (workOf b).a b) = readValue (workOf b).a b := by
    unfold readValue
    rw [hns, hnb, levels_noWork _ _ (x := clearAcc (setColumn (workOf b).a b)) (y := clearAcc b) rfl]
  rw [hval] at hacc hrt
  have hneed : needReadTrace (setColumn (workOf b).a b) = [] := by simp [needReadTrace, hms]
  rw [hneed] at hrt
  have ht : dumpByteTraceAt (workOf b).a b =
      (textBefore b.params.hexUpper (workOf b).a).map .out ++
        (readByteTrace b.params.readSettleUs b.cfg (workOf b).a (readValue (workOf b).a b) ++
          (textAfter b.params.hexUpper b.params.eolSeq (workOf b).a (readValue (workOf b).a b)).map .out) := by
    have hp : (setColumn (workOf b).a b).params = b.params := setWork_params _ _
    have hcf : (setColumn (workOf b).a b).cfg = b.cfg := setWork_cfg _ _
    rw [hp, hcf] at hrt
    rw [dumpByteTraceAt, hrt, hacc, List.nil_append]
  have hdr : Driving b → readValue (workOf b).a b = deviceByte b.dev.mem (location (workOf b).a) ∧
      Driving (doReadByte (workOf b).a (setColumn (workOf b).a b)) ∧
      (doReadByte (workOf b).a (setColumn (workOf b).a b)).samples = b.samples := fun hd => by
    have hd' : Driving (doNeedRead (setColumn (workOf b).a b)) := by rw [hns]; exact hd
    obtain ⟨d1, d2, _⟩ := doReadByte_driving (a := (workOf b).a) hd'
    exact ⟨readValue_driving (by rw [hnb]; exact hd), d1, d2.trans (setWork_samples _ _)⟩
  have f2' := f2.trans (setWork_source _ b)
  have f3' := f3.trans (setWork_dev _ b)
  rw [hns] at hg
  have hgl : ∀ l, getLine (setColumn (workOf b).a b).lines l = getLine b.lines l := fun l => by
    rw [setColumn, setWork_lines]
  have hdb : doDumpByte b = setWork (fun w => { w with a := w.a + 1 })
      (doReadByte (workOf b).a (setColumn (workOf b).a b)) := rfl
  rw [hdb]
  generalize doReadByte (workOf b).a (setColumn (workOf b).a b) = y at *
  refine ⟨?_, ?_, ?_, f1, f2', f3', fun l => ?_, ht, fun hd => ?_, ?_⟩
  · simpa using r1
  · rw [workOf_setWork r1]; simp only [r2, hwc]
  · rw [workOf_setWork r1]; simp only [r4, hwc]
  · rw [setWork_lines, hg]
    cases l <;> simp only [hgl]
  · obtain ⟨d0, d1, d2⟩ := hdr hd
    refine ⟨d0, ?_, d2⟩
    simpa only [Driving, setWork_refDevice, setWork_lines] using d1
  · exact ((core_setWork _ b).trans hc).trans (core_setWork _ _)

/-- DUMP's loop, with exactly as many turns as its read set has addresses (41_programmer.md R147). -/
theorem doDumpLoop_spec (n : Nat) (b : State) (hw : b.work.isSome = true) (hm : b.mode = .read)
    (hn : n = min 0x7FFF (workOf b).endAddr.toNat - (workOf b).a.toNat) :
    ∃ vs : List Byte, vs.length = n ∧
      dumpLoopTrace n b = dumpTrace b.params b.cfg (workOf b).a.toNat vs ∧
      (doDumpLoop n b).mode = .read ∧ (doDumpLoop n b).source = b.source ∧ (doDumpLoop n b).dev = b.dev ∧
      (∀ l, getLine (doDumpLoop n b).lines l =
        match l with
        | .addr k => if vs = [] then getLine b.lines (.addr k)
            else { getLine b.lines (.addr k) with
              out := outOf (((workOf b).a.toNat + n - 1).testBit k) }
        | m => getLine b.lines m) ∧
      (Driving b → vs = (List.range' (workOf b).a.toNat n).map (deviceByte b.dev.mem) ∧
        (doDumpLoop n b).samples = b.samples) ∧
      Core b (doDumpLoop n b) := by
  induction n generalizing b with
  | zero =>
    exact ⟨[], rfl, rfl, hm, rfl, rfl, fun l => by cases l <;> simp [doDumpLoop], fun _ => ⟨rfl, rfl⟩, Core.refl b⟩
  | succ n ih =>
    have hc : (workOf b).a.toNat < 0x7FFF ∧ (workOf b).a.toNat < (workOf b).endAddr.toNat := by omega
    obtain ⟨k1, k2, k3, k4, k5, k6, k7, k8, k9, k10⟩ := doDumpByte_spec hw hm
    have ha : (workOf (doDumpByte b)).a.toNat = (workOf b).a.toNat + 1 := by
      rw [k2, BitVec.toNat_add]
      have h1 : (1 : BitVec 16).toNat = 1 := rfl
      omega
    obtain ⟨vs, i1, i2, i3, i4, i5, i6, i7, i8⟩ := ih (doDumpByte b) k1 k4 (by rw [k3, ha]; omega)
    have e1 : doDumpLoop (n + 1) b = doDumpLoop n (doDumpByte b) := by simp [doDumpLoop, hc]
    have e2 : dumpLoopTrace (n + 1) b = dumpByteTraceAt (workOf b).a b ++ dumpLoopTrace n (doDumpByte b) := by
      simp [dumpLoopTrace, hc]
    have ea : BitVec.ofNat 16 (workOf b).a.toNat = (workOf b).a := by simp
    have hloc : location (workOf b).a = (workOf b).a.toNat := by
      rw [location_eq]; simp only [BitVec.toNat_setWidth]; omega
    rw [e1, e2]
    refine ⟨readValue (workOf b).a b :: vs, by simp [i1], ?_, i3, i4.trans k5, i5.trans k6, fun l => ?_,
      fun hd => ?_, k10.trans i8⟩
    · rw [i2, k8, ha, k10.params, k10.cfg, dumpTrace, ea]
      simp only [List.append_assoc]
    · rw [i6]
      cases l with
      | addr k =>
        simp only [k7, ha, List.cons_ne_nil, if_false]
        cases vs with
        | nil =>
          have : n = 0 := i1.symm
          subst this
          simp [BitVec.getLsbD]
        | cons v vs => simp [Nat.add_assoc, Nat.add_comm 1]
      | data p => simp [k7]
      | we => simp [k7]
      | oe => simp [k7]
    · obtain ⟨d1, d2, d3⟩ := k9 hd
      obtain ⟨d4, d5⟩ := i7 d2
      refine ⟨?_, d5.trans d3⟩
      rw [d4, d1, ha, hloc, k6]
      simp [List.range'_succ]

end Sys2Proof.Laws
end

