-- ==== Sys2Proof/Laws/Exec.lean ====
section
/-! SUPPORT. Every command as one `Proc` from acceptance to `finish`: the spec lemma of `exec`, with and without
inputs around the command's events. -/

namespace Sys2Proof.Laws

open Sys2Proof Sys2Proof.Machine Sys2Proof.Safety

/-! ## The parts of a command -/

/-- The state a command's procedure starts in. -/
def startOf (i : Instr) (s : State) : State :=
  match i with
  | .setAddress _ => accept s
  | .enterWrite => accept s
  | .enterRead => accept s
  | .writeByte _ _ => accept s
  | .readByte _ => accept s
  | .program _ _ => allowEcho (accept s)
  | .dump _ _ => accept s

/-- The command's procedure, up to its `finish`. -/
def bodyOf (i : Instr) (s : State) : State :=
  match i with
  | .setAddress a => runOps (setAddrOps a) s
  | .enterWrite => enterWrite s
  | .enterRead => enterRead s
  | .writeByte v a => writeByteProc v a s
  | .readByte a => if (workOf s).sink = true then readByteProc a s else s
  | .program a f => programLoop (programSpan a f) (programStart a f (needWrite s))
  | .dump a n => if (workOf s).sink = true then dumpLoop (dumpCount a n) (dumpStart a n (needRead s)) else s

/-- The block after the command's procedure. -/
def effectOf (i : Instr) (b : State) : State :=
  match i with
  | .setAddress a => applyOps (setAddrOps a) b
  | .enterWrite => doEnterWrite b
  | .enterRead => doEnterRead b
  | .writeByte v a => doWriteByte v a b
  | .readByte a => if (workOf b).sink = true then doReadByte a b else b
  | .program a f => doProgramLoop (programSpan a f) (programStart a f (doNeedWrite b))
  | .dump a n => if (workOf b).sink = true then doDumpLoop (dumpCount a n) (dumpStart a n (doNeedRead b)) else b

/-- The command's events, without ECHO text. -/
def eventsOf (i : Instr) (b : State) : List Event :=
  match i with
  | .setAddress a => setAddrTrace b.cfg a
  | .enterWrite => enterWriteTrace b.cfg
  | .enterRead => enterReadTrace b.params.oeSettleUs b.cfg
  | .writeByte v a => needWriteTrace b ++ writeByteTrace b.cfg v a
  | .readByte a => if (workOf b).sink = true then readTrace a b else []
  | .program a f => needWriteTrace b ++ programLoopTrace (programSpan a f) (programStart a f (doNeedWrite b))
  | .dump a n =>
    if (workOf b).sink = true then
      needReadTrace b ++ dumpLoopTrace (dumpCount a n) (dumpStart a n (doNeedRead b))
    else []

/-- The status the command finishes with (60_exceptions.md R173). -/
def statusOf (i : Instr) (s : State) : StatusCode :=
  match i with
  | .setAddress _ => .ok
  | .enterWrite => .ok
  | .enterRead => .ok
  | .writeByte _ _ => .ok
  | .readByte _ => if s.sinkAvail = true then .ok else .noSink
  | .program _ _ => .ok
  | .dump _ _ => if s.sinkAvail = true then .ok else .noSink

/-- RESULT at the finish, from the block the procedure leaves (10_state.md R46). -/
def resultOf (i : Instr) (sink : Bool) (b : State) : BitVec 9 :=
  match i with
  | .setAddress _ => 0
  | .enterWrite => 0
  | .enterRead => 0
  | .writeByte _ _ => 0
  | .readByte _ => if sink = true then validResult (workOf b).acc else 0
  | .program _ _ => 0
  | .dump _ _ => 0

theorem proc_program (a f : Addr) :
    Proc (fun s => programLoop (programSpan a f) (programStart a f (needWrite s)))
      (fun b => doProgramLoop (programSpan a f) (programStart a f (doNeedWrite b)))
      (fun b => needWriteTrace b ++
        programLoopTrace (programSpan a f) (programStart a f (doNeedWrite b))) :=
  ((proc_needWrite.comp (proc_setWork (fun w => { w with bound := programBound f, a := a }) (fun _ => rfl))).comp
    (proc_programLoop (programSpan a f))).eq (fun _ => rfl) (fun b => by simp [programStart])

theorem proc_dump (a : Addr) (n : BitVec 16) :
    Proc (fun s => dumpLoop (dumpCount a n) (dumpStart a n (needRead s)))
      (fun b => doDumpLoop (dumpCount a n) (dumpStart a n (doNeedRead b)))
      (fun b => needReadTrace b ++ dumpLoopTrace (dumpCount a n) (dumpStart a n (doNeedRead b))) :=
  ((proc_needRead.comp (proc_setWork (fun w => { w with endAddr := dumpEnd a n, a := dumpBase a })
    (fun _ => rfl))).comp (proc_dumpLoop (dumpCount a n))).eq (fun _ => rfl) (fun b => by simp [dumpStart])

theorem proc_body (i : Instr) : Proc (bodyOf i) (effectOf i) (eventsOf i) := by
  cases i with
  | setAddress a => exact (proc_runOps (setAddrOps a)).eq (fun _ => rfl) (fun b => (setAddr_events b.cfg a).symm)
  | enterWrite => exact proc_enterWrite
  | enterRead => exact proc_enterRead
  | writeByte v a => exact proc_writeByte v a
  | readByte a => exact Proc.ite (fun s => (workOf s).sink = true) (fun _ => Iff.rfl) (proc_readByte a) Proc.id
  | program a f => exact proc_program a f
  | dump a n => exact Proc.ite (fun s => (workOf s).sink = true) (fun _ => Iff.rfl) (proc_dump a n) Proc.id

theorem startOf_eq (i : Instr) (s : State) : startOf i s = { accept s with work := (startOf i s).work } := by
  cases i <;> rfl

@[simp] theorem startOf_live (i : Instr) (s : State) : live (startOf i s) = true := by cases i <;> rfl

@[simp] theorem startOf_quiet (i : Instr) (s : State) : quiet (startOf i s) = quiet s := by cases i <;> rfl

@[simp] theorem startOf_sink (i : Instr) (s : State) : (workOf (startOf i s)).sink = s.sinkAvail := by
  cases i <;> rfl

theorem startOf_echoing (i : Instr) (s : State) : (workOf (startOf i s)).echoing = true →
    s.sinkAvail = true ∧ ∃ a f, i = .program a f := by
  cases i with
  | program a f => exact fun h => ⟨h, a, f, rfl⟩
  | _ => intro h; cases h

/-- `exec` is: accept, run the procedure, finish with the status and RESULT of the rules, conclude. -/
theorem exec_eq (i : Instr) (s : State) :
    exec i s = conclude s.host.length
      (finish (statusOf i s) (resultOf i s.sinkAvail (bodyOf i (startOf i s))) (bodyOf i (startOf i s))) := by
  cases i with
  | setAddress a => rfl
  | enterWrite => rfl
  | enterRead => rfl
  | writeByte v a => rfl
  | readByte a =>
    unfold exec execReadByte command startOf bodyOf statusOf resultOf
    by_cases h : s.sinkAvail = true
    · have h' : (workOf (accept s)).sink = true := h
      simp only [if_pos h, if_pos h']; rfl
    · have h' : ¬ (workOf (accept s)).sink = true := h
      simp only [if_neg h, if_neg h']
  | program a f => rfl
  | dump a n =>
    unfold exec execDump command startOf bodyOf statusOf resultOf
    by_cases h : s.sinkAvail = true
    · have h' : (workOf (accept s)).sink = true := h
      simp only [if_pos h, if_pos h']; rfl
    · have h' : ¬ (workOf (accept s)).sink = true := h
      simp only [if_neg h, if_neg h']

theorem resultOf_block (i : Instr) (sink : Bool) (b : State) :
    resultOf i sink (blockOf b) = resultOf i sink b := by
  cases i <;> rfl

/-- A command accepted in s has finished in t: its status, RESULT, effect e on the block and events es. -/
structure FinishedRun (x s t : State) (st : StatusCode) (res : BitVec 9) (e : State) (es : List Event) : Prop where
  cut : t.cut = none
  block : blockOf t = finished st res e
  trace : ∀ q, Silent q x → view q t = view q s ++ es.filter q
  pos : t.pos = 0

/-- What a reset sequence may find: the block cut short. -/
structure Cutoff (s x : State) : Prop where
  params : x.params = s.params
  sinkAvail : x.sinkAvail = s.sinkAvail
  refDevice : x.refDevice = s.refDevice
  mem : Memory.wf s.dev.mem → Memory.wf x.dev.mem

/-- A reset among the inputs of s abandoned the command; its sequence ended in t
(70_reset_and_hazards.md R192). -/
structure ResetRun (s t : State) : Prop where
  seq : ∃ c x, c.wellFormed = true ∧ Cutoff s x ∧ t = resetSequence c x
  cut : t.cut = none
  input : resetUsed s t

/-- Every next state of a procedure run from acceptance to its finish, whatever inputs fall inside it. -/
theorem run_next {P g : State → State} {ev : State → List Event} (p : Proc P g ev) (st : StatusCode)
    (r : State → BitVec 9) (hr : ∀ b, r (blockOf b) = r b) {x s t : State} (e : x = { accept s with work := x.work })
    (h : conclude s.host.length (finish st (r (P x)) (P x)) = .next t) :
    FinishedRun x s t st (r (g (blockOf x))) (g (blockOf x)) (ev (blockOf x)) ∨ ResetRun s t := by
  have hl : live x = true := by rw [e]; rfl
  obtain ⟨h1, _, h3, _, h5⟩ := finish_run p st r hr x hl
  have horig := finish_origin p st (r (P x)) x hl
  have hhost : x.host = s.host := by rw [e]; rfl
  generalize finish st (r (P x)) (P x) = y at h h1 h3 h5 horig
  have cutoff : ∀ {x z : State}, Core x z → Cutoff s x → Cutoff s z := fun hc hx =>
    ⟨hc.params.trans hx.params, hc.sinkAvail.trans hx.sinkAvail, hc.refDevice.trans hx.refDevice,
      fun hm => hc.mem (hx.mem hm)⟩
  have hstart : Cutoff s x := by rw [e]; exact ⟨rfl, rfl, rfl, fun hm => hm⟩
  have hlatch : ∀ c x, Cutoff s x → Cutoff s (latchConfig c x) := fun c x hx =>
    ⟨hx.params, hx.sinkAvail, hx.refDevice, hx.mem⟩
  have hle : y.host.length ≤ s.host.length := by
    rcases h3 with h3 | ⟨c, _, _, hlt⟩
    · rw [← hhost]; exact h3.2
    · rw [← hhost]; exact hlt.le
  have hok : ∀ c, y.cut = some c → cutOk c ∧ Cutoff s y ∧ y.host <:+ y.host := fun c hc => by
    rcases h3 with h3 | ⟨d, hd, ho, _⟩
    · rw [h3.1] at hc; cases hc
    · rw [hd] at hc; cases hc
      exact ⟨ho, cutoff (h5 (by simp [hd])) hstart, List.suffix_rfl⟩
  rcases conclude_next (I := fun x => Cutoff s x ∧ x.host <:+ y.host)
      (Q := fun t => (∃ c x, c.wellFormed = true ∧ Cutoff s x ∧ t = resetSequence c x) ∧ t.cut = none ∧
        t.host <:+ y.host)
      (fun c x _ hx hcut => ⟨cutoff ((reset_run c x).2.2.2.2 hcut) (hlatch c x hx.1),
        (reset_origin c x).host.trans hx.2⟩)
      (fun c x hw hx hcut => ⟨⟨c, x, hw, hx.1, rfl⟩, hcut, (reset_origin c x).host.trans hx.2⟩) hle hok h with
    ⟨hc, ht⟩ | ⟨hc, hseq, htc, hth⟩
  · subst ht
    rcases h1 with h1 | h1
    · exact .inl ⟨h1.cut, h1.block, fun q hq' => by rw [h1.trace q hq', e]; rfl, h1.pos⟩
    · exact absurd hc h1
  · refine .inr ⟨hseq, htc, ?_⟩
    by_contra hno
    have hnr : ∀ d, y.cut ≠ some (.reset d) := fun d hd =>
      hno (resetUsed_mono (by have := horig.reset d hd; unfold resetUsed at this ⊢; rwa [hhost] at this) hth)
    exact hc (conclude_noReset hnr h).1

/-- The command has finished in t with its effect. -/
def Finished (i : Instr) (s t : State) : Prop :=
  FinishedRun (startOf i s) s t (statusOf i s) (resultOf i s.sinkAvail (effectOf i (blockOf (startOf i s))))
    (effectOf i (blockOf (startOf i s))) (eventsOf i (blockOf (startOf i s)))

/-- A command that no input disturbs finishes with its effect and its events. -/
theorem exec_quiet (i : Instr) {s : State} (hq : quiet s = true) :
    ∃ t, exec i s = .next t ∧ Finished i s t ∧ t.host = s.host ∧ t.reads = s.reads := by
  obtain ⟨h1, h2, _⟩ := finish_run (proc_body i) (statusOf i s) (resultOf i s.sinkAvail)
    (resultOf_block i s.sinkAvail) (startOf i s) (startOf_live i s)
  obtain ⟨hc, hh, hr⟩ := h2 (by simpa using hq)
  have e := startOf_eq i s
  refine ⟨_, (exec_eq i s).trans (conclude_of_live hc), ?_, ?_, ?_⟩
  · rcases h1 with h1 | h1
    · exact ⟨h1.cut, h1.block, fun q hq' => by rw [h1.trace q hq', e]; rfl, h1.pos⟩
    · exact absurd hc h1
  · rw [hh, e]; rfl
  · rw [hr, e]; rfl

/-- Every next state of a command, whatever inputs fall inside it: the command finished with its effect, or a
reset among the inputs abandoned it and its sequence ended. -/
theorem exec_next (i : Instr) {s t : State} (h : exec i s = .next t) : Finished i s t ∨ ResetRun s t := by
  rw [exec_eq] at h
  exact run_next (proc_body i) (statusOf i s) (resultOf i s.sinkAvail) (resultOf_block i s.sinkAvail)
    (startOf_eq i s) h

/-- The same of a word with a reserved opcode. -/
theorem reserved_next {s t : State} (h : execReserved s = .next t) :
    FinishedRun (accept s) s t .illegal 0 (blockOf (accept s)) [] ∨ ResetRun s t :=
  run_next (P := fun s => s) (g := fun b => b) (ev := fun _ => []) Proc.id .illegal (fun _ => 0) (fun _ => rfl)
    (x := accept s) rfl h

/-- Every next state of a reset from the host. -/
theorem resetMachine_next {c : PinConfig} {s t : State} (h : resetMachine c s = .next t) :
    (∃ d x, d.wellFormed = true ∧ Cutoff s x ∧ t = resetSequence d x) ∧ t.cut = none ∧ t.host <:+ s.host := by
  unfold resetMachine at h
  split at h
  · rename_i hw
    have cutoff : ∀ {x z : State} {d : PinConfig}, Core (latchConfig d x) z → Cutoff s x → Cutoff s z :=
      fun hc hx => ⟨hc.params.trans hx.params, hc.sinkAvail.trans hx.sinkAvail, hc.refDevice.trans hx.refDevice,
        fun hm => hc.mem (hx.mem hm)⟩
    have h0 : Cutoff s s := ⟨rfl, rfl, rfl, fun hm => hm⟩
    obtain ⟨_, _, he, _, hcore⟩ := reset_run c s
    have hle : (resetSequence c s).host.length ≤ s.host.length := by
      rcases he with he | ⟨_, _, _, hlt⟩
      · exact he.2
      · exact hlt.le
    rcases conclude_next (I := fun x => Cutoff s x ∧ x.host <:+ s.host)
        (Q := fun t => (∃ d x, d.wellFormed = true ∧ Cutoff s x ∧ t = resetSequence d x) ∧ t.cut = none ∧
          t.host <:+ s.host)
        (fun d x _ hx hcut => ⟨cutoff ((reset_run d x).2.2.2.2 hcut) hx.1, (reset_origin d x).host.trans hx.2⟩)
        (fun d x hw hx hcut => ⟨⟨d, x, hw, hx.1, rfl⟩, hcut, (reset_origin d x).host.trans hx.2⟩) hle (fun d hd => by
          rcases he with he | ⟨d', hd', ho, _⟩
          · rw [he.1] at hd; cases hd
          · rw [hd'] at hd; cases hd
            exact ⟨ho, cutoff (hcore (by simp [hd'])) h0, (reset_origin c s).host⟩) h with ⟨hc, ht⟩ | ⟨_, hq⟩
    · exact ⟨⟨c, s, hw, h0, ht⟩, by rw [ht]; exact hc, by rw [ht]; exact (reset_origin c s).host⟩
    · exact hq
  · cases h

/-! ## The fields of a finished block -/

theorem FinishedRun.field {α : Type} {x s t e : State} {st : StatusCode} {res : BitVec 9} {es : List Event}
    (h : FinishedRun x s t st res e es) (f : State → α) (hf : ∀ s, f (blockOf s) = f s) :
    f t = f (finished st res e) := by rw [← h.block, hf]

theorem FinishedRun.with {x s t e : State} {st : StatusCode} {res : BitVec 9} {es : List Event}
    (h : FinishedRun x s t st res e es) : FinishedWith st res t where
  last := h.field State.last fun _ => rfl
  result := h.field State.result fun _ => rfl
  busy := h.field State.busy fun _ => rfl
  work := h.field State.work fun _ => rfl
  cut := h.cut

/-! ## What every effect leaves alone -/

theorem doWriteByte_core (v : Byte) (a : Addr) (b : State) : Core b (doWriteByte v a b) :=
  (doNeedWrite_core b).trans (applyOps_core _ _)

theorem doProgramByte_core (b : State) : Core b (doProgramByte b) :=
  ((doRead_core b).trans (doWriteByte_core _ _ _)).trans (core_setWork _ _)

theorem doProgramLoop_core (n : Nat) (b : State) : Core b (doProgramLoop n b) := by
  induction n generalizing b with
  | zero => exact Core.refl b
  | succ n ih =>
    unfold doProgramLoop
    split
    · split
      · exact ((doQuery_core b).trans (doProgramByte_core _)).trans (ih _)
      · exact doQuery_core b
    · exact Core.refl b

theorem doDumpByte_core (b : State) : Core b (doDumpByte b) :=
  ((core_setWork _ b).trans (doReadByte_core _ _)).trans (core_setWork _ _)

theorem doDumpLoop_core (n : Nat) (b : State) : Core b (doDumpLoop n b) := by
  induction n generalizing b with
  | zero => exact Core.refl b
  | succ n ih =>
    unfold doDumpLoop
    split
    · exact (doDumpByte_core b).trans (ih _)
    · exact Core.refl b

/-- No command changes the configuration, the parameters, the sink level or the choice of the device, and every
command keeps the canonical form of the device memory. -/
theorem effectOf_core (i : Instr) (b : State) : Core b (effectOf i b) := by
  cases i with
  | setAddress a => exact applyOps_core _ _
  | enterWrite => exact doEnterWrite_core _
  | enterRead => exact doEnterRead_core _
  | writeByte v a => exact doWriteByte_core _ _ _
  | readByte a =>
    show Core b (if (workOf b).sink = true then doReadByte a b else b)
    by_cases h : (workOf b).sink = true
    · rw [if_pos h]; exact doReadByte_core _ _
    · rw [if_neg h]; exact Core.refl _
  | program a f =>
    have h1 : Core b (programStart a f (doNeedWrite b)) := (doNeedWrite_core b).trans (core_setWork _ _)
    exact h1.trans (doProgramLoop_core _ _)
  | dump a n =>
    show Core b (if (workOf b).sink = true then doDumpLoop (dumpCount a n) (dumpStart a n (doNeedRead b)) else b)
    by_cases h : (workOf b).sink = true
    · rw [if_pos h]
      have h1 : Core b (dumpStart a n (doNeedRead b)) := (doNeedRead_core b).trans (core_setWork _ _)
      exact h1.trans (doDumpLoop_core _ _)
    · rw [if_neg h]; exact Core.refl _

/-! ## The end of the reset sequence -/

/-- A reset sequence that ends leaves the table of 10_state.md R49. -/
theorem reset_after {c : PinConfig} {x : State} (hc : (resetSequence c x).cut = none) :
    AfterReset c (resetSequence c x) ∧ (resetSequence c x).pos = 0 ∧
      (Memory.wf x.dev.mem → Memory.wf (resetSequence c x).dev.mem) := by
  rcases (reset_run c x).1 with ⟨_, hb, _, hp⟩ | h
  · have g := reset_getLine (latchConfig c (blockOf x))
    have hcore := applyOps_core resetOps (latchConfig c (blockOf x))
    have hwk := (applyOps_work resetOps (latchConfig c (blockOf x))).1
    unfold doReset at hb
    generalize applyOps resetOps (latchConfig c (blockOf x)) = y at *
    generalize resetSequence c x = t at *
    have f : ∀ {α : Type} (f : State → α), (∀ s, f (blockOf s) = f s) → f t = f (resetDone y) := fun f hf => by
      rw [← hf t, hb, hf]
    have hl := f State.lines fun _ => rfl
    have hdata : ∀ p : Fin 8, t.lines.data[p] = ⟨.input, .unknown⟩ := fun p => by
      rw [hl]
      show (y.lines.data.map fun x => { x with out := .unknown })[p] = _
      have h2 : y.lines.data[p.val].dir = .input := congrArg Line.dir (g (.data p))
      simp [h2]
    have hwork : y.work = none := by
      have h0 : (latchConfig c (blockOf x)).work = none := rfl
      unfold WorkKept at hwk
      rw [h0] at hwk
      simpa using hwk
    refine ⟨⟨(f State.cfg fun _ => rfl).trans hcore.cfg, f State.mode fun _ => rfl, f State.busy fun _ => rfl,
      f State.last fun _ => rfl, f State.result fun _ => rfl, ?_, ?_, fun k => ?_, hdata,
      (f State.work fun _ => rfl).trans hwork, hc⟩, hp, fun hm => ?_⟩
    · rw [hl]; exact g .we
    · rw [hl]; exact g .oe
    · rw [hl]; exact g (.addr k)
    · rw [f State.dev fun _ => rfl]; exact hcore.mem hm
  · exact absurd hc h

/-! ## Every step -/

/-- A reset used up by the command after the step's own input was used up by the step. -/
theorem resetUsed_cons {s t : State} {j : TimedInput} {rest : List TimedInput} (hh : s.host = j :: rest)
    (h : resetUsed { s with host := rest } t) : resetUsed s t :=
  resetUsed_trans (t := { s with host := rest }) (by rw [hh]; exact List.suffix_cons _ _) h

/-- What a step may leave: the command of a CMD write finished, or the reserved word did; an input that is neither a
CMD write nor a reset changed the host's side alone; or a reset was used up, and its sequence ended. -/
inductive StepEnd (s t : State) : Prop where
  | idle (host : s.host = []) (same : t = s)
  | command (after : Option Nat) (w : CmdWord) (rest : List TimedInput) (i : Instr)
      (host : s.host = ⟨after, .write 0 w⟩ :: rest) (busy : s.busy = false) (word : decode w = .ok i)
      (run : Finished i { s with host := rest } t)
  | reserved (after : Option Nat) (w : CmdWord) (rest : List TimedInput) (e : DecodeError)
      (host : s.host = ⟨after, .write 0 w⟩ :: rest) (busy : s.busy = false) (word : decode w = .error e)
      (run : FinishedRun (accept { s with host := rest }) { s with host := rest } t .illegal 0
        (blockOf (accept { s with host := rest })) [])
  | other (j : TimedInput) (rest : List TimedInput) (host : s.host = j :: rest)
      (act : (∀ w, j.act ≠ .write 0 w) ∧ ∀ c, j.act ≠ .reset c)
      (rest_same : t = { s with host := rest, reads := t.reads, sinkAvail := t.sinkAvail })
  | reset (seq : ∃ c x, c.wellFormed = true ∧ Cutoff s x ∧ t = resetSequence c x) (cut : t.cut = none)
      (used : resetUsed s t)

theorem step_next {s t : State} (h : step s = .next t) : StepEnd s t := by
  unfold step admitNext at h
  split at h
  · rename_i hh
    injection h with h
    exact .idle hh h.symm
  · rename_i j rest hh
    have lift : ResetRun { s with host := rest } t → StepEnd s t := fun hr => by
      obtain ⟨c, x, hw, hx, e⟩ := hr.seq
      exact .reset ⟨c, x, hw, ⟨hx.params, hx.sinkAvail, hx.refDevice, hx.mem⟩, e⟩ hr.cut (resetUsed_cons hh hr.input)
    obtain ⟨after, act⟩ := j
    cases act with
    | write reg w =>
      cases reg with
      | zero =>
        simp only [admitInput] at h
        split at h
        · cases h
        · rename_i hb
          have hb : s.busy = false := by simpa using hb
          unfold issueWord at h
          split at h
          · rename_i i hi
            rcases exec_next i h with hf | hr
            · exact .command after w rest i hh hb hi hf
            · exact lift hr
          · rename_i e he
            rcases reserved_next h with hf | hr
            · exact .reserved after w rest e hh hb he hf
            · exact lift hr
      | succ n =>
        simp only [admitInput, Host.Outcome.next.injEq] at h
        subst h
        exact .other _ rest hh ⟨by simp, by simp⟩ rfl
    | read reg =>
      simp only [admitInput, Host.Outcome.next.injEq] at h
      subst h
      exact .other _ rest hh ⟨by simp, by simp⟩ rfl
    | setSink b =>
      simp only [admitInput] at h
      split at h
      · cases h
      · simp only [Host.Outcome.next.injEq] at h
        subst h
        exact .other _ rest hh ⟨by simp, by simp⟩ rfl
    | reset c =>
      simp only [admitInput] at h
      obtain ⟨⟨d, x, hw, hx, e⟩, hc, used, hu⟩ := resetMachine_next h
      refine .reset ⟨d, x, hw, ⟨hx.params, hx.sinkAvail, hx.refDevice, hx.mem⟩, e⟩ hc
        ⟨⟨after, .reset c⟩ :: used, ?_, _, List.mem_cons_self, c, rfl⟩
      rw [hh, List.cons_append, hu]
    | stall =>
      simp only [admitInput, Host.Outcome.next.injEq] at h
      subst h
      exact .other _ rest hh ⟨by simp, by simp⟩ rfl

end Sys2Proof.Laws
end

