-- ==== Sys2Proof/Laws/Timed.lean ====
section
/-! SUPPORT. Where in a command an input falls. `Staged P g ev st` adds to `Proc` what a procedure that was cut
short has left: it stopped before one of its events, n, with the block st gives for n; and an input with index k
ends it at the boundary after exactly k events, or not at all if it has fewer. -/

namespace Sys2Proof.Laws

open Sys2Proof Sys2Proof.Machine Sys2Proof.Safety

/-! ## The input that ends a command -/

/-- What ends the running command when this input falls, if it does: the moves `admitDue` does not have. -/
def endOf (act : Input) (sink : Bool) : Option Cut :=
  match act with
  | .write 0 _ => some (.fault .cmdWriteWhileBusy)
  | .write (_ + 1) _ => none
  | .read _ => none
  | .setSink b => if b = sink then none else some (.fault .sinkChangeWhileBusy)
  | .reset c => some (resetCut c)
  | .stall => some (.fault .eventNeverCompletes)

/-- The next input ends the running command with c at the boundary after k events, which is still to come. -/
structure Awaits (k : Nat) (c : Cut) (rest : List TimedInput) (s : State) : Prop where
  head : ∃ act, s.host = ⟨some k, act⟩ :: rest ∧ endOf act s.sinkAvail = some c
  pos : s.pos ≤ k

/-- From s the command has come to t, its trace only longer: still waiting, one position per event; or ended after k
events. -/
def Timed (k : Nat) (c : Cut) (rest : List TimedInput) (s t : State) : Prop :=
  (t.reads = s.reads ∧ s.log <:+ t.log) ∧
    (t.cut = none ∧ t.host = s.host ∧ t.pos ≤ k ∧ t.log.length + s.pos = s.log.length + t.pos ∨
      t.cut = some c ∧ t.host = rest ∧ t.log.length + s.pos = s.log.length + k)

theorem Timed.refl {k : Nat} {c : Cut} {rest : List TimedInput} {s : State} (h : Awaits k c rest s)
    (hl : live s = true) : Timed k c rest s s := ⟨⟨rfl, List.suffix_rfl⟩, .inl ⟨live_iff.1 hl, rfl, h.pos, rfl⟩⟩

theorem Timed.awaits {k : Nat} {c : Cut} {rest : List TimedInput} {s t : State} (h : Timed k c rest s t)
    (ha : Awaits k c rest s) (hl : live t = true) (hs : t.sinkAvail = s.sinkAvail) : Awaits k c rest t := by
  rcases h.2 with ⟨_, hh, hp, _⟩ | ⟨hc, _⟩
  · exact ⟨by rw [hh, hs]; exact ha.head, hp⟩
  · rw [live_iff.1 hl] at hc; cases hc

theorem Timed.trans {k : Nat} {c : Cut} {rest : List TimedInput} {s t u : State} (h : Timed k c rest s t)
    (hl : live t = true) (h' : Timed k c rest t u) : Timed k c rest s u := by
  refine ⟨⟨h'.1.1.trans h.1.1, h.1.2.trans h'.1.2⟩, ?_⟩
  rcases h.2 with ⟨_, hh, _, hg⟩ | ⟨hc, _⟩
  · rcases h'.2 with ⟨a, b, d, e⟩ | ⟨a, b, d⟩
    · exact .inl ⟨a, b.trans hh, d, by omega⟩
    · exact .inr ⟨a, b, by omega⟩
  · rw [live_iff.1 hl] at hc; cases hc

theorem boundary_timed {k : Nat} {c : Cut} {rest : List TimedInput} {s : State} (h : Awaits k c rest s)
    (hl : live s = true) :
    boundary s = s ∧ s.pos < k ∨ boundary s = cutWith c rest s ∧ s.pos = k := by
  obtain ⟨act, hh, he⟩ := h.head
  rw [boundary, if_pos hl, hh, admitDue]
  have hp := h.pos
  by_cases hk : k ≤ s.pos
  · refine .inr ⟨?_, by omega⟩
    have hd : isDue s.pos ⟨some k, act⟩ = true := by simp [isDue, hk]
    rw [if_pos hd]
    cases act with
    | write reg w => cases reg <;> simp_all [endOf]
    | read reg => cases he
    | setSink b =>
      simp only [endOf] at he
      split at he
      · cases he
      · rename_i hb; simp_all
    | reset d => simp_all [endOf]
    | stall => simp_all [endOf]
  · refine .inl ⟨?_, by omega⟩
    have hd : ¬ isDue s.pos ⟨some k, act⟩ = true := by simp [isDue, hk]
    rw [if_neg hd, ← hh]

/-- One boundary: the action happens there with k events still to come, or the command ends there. -/
theorem guarded_timed {k : Nat} {c : Cut} {rest : List TimedInput} {s : State} (f : State → State)
    (h : Awaits k c rest s) (hl : live s = true) :
    guarded f s = f s ∧ s.pos < k ∨
      live (guarded f s) = false ∧ guarded f s = cutWith c rest s ∧ Timed k c rest s (guarded f s) := by
  unfold guarded
  rcases boundary_timed h hl with ⟨hb, hp⟩ | ⟨hb, hp⟩
  · exact .inl ⟨by simp [hb, hl], hp⟩
  · have hd : live (cutWith c rest s) = false := rfl
    exact .inr ⟨by simp [hb, hd], by simp [hb, hd], by rw [hb, if_neg (by simp [hd])]; exact ⟨⟨rfl, List.suffix_rfl⟩, .inr ⟨rfl, rfl, by rw [hp]; rfl⟩⟩⟩

theorem record_timed {k : Nat} {c : Cut} {rest : List TimedInput} {s t : State} {e : Event}
    (h : Timed k c rest s t) (hl : live t = true) (hp : t.pos < k) : Timed k c rest s (record e t) := by
  refine ⟨⟨h.1.1, by rw [record_log]; exact h.1.2.trans (List.suffix_cons _ _)⟩, .inl ?_⟩
  rcases h.2 with ⟨a, b, _, d⟩ | ⟨hc, _⟩
  · refine ⟨a, b, hp, ?_⟩
    simp only [record_log, record_pos, List.length_cons]
    omega
  · rw [live_iff.1 hl] at hc; cases hc

theorem emitText_timed {k : Nat} {c : Cut} {rest : List TimedInput} (text : List Byte) {s : State}
    (h : Awaits k c rest s) (hl : live s = true) : Timed k c rest s (emitText text s) := by
  induction text generalizing s with
  | nil => exact Timed.refl h hl
  | cons b text ih =>
    rw [emitText, List.foldl_cons, ← emitText]
    rcases guarded_timed (record (.out b)) h hl with ⟨e, hp⟩ | ⟨hd, _, ht⟩
    · have h1 : Timed k c rest s (record (.out b) s) := record_timed (Timed.refl h hl) hl hp
      rw [e]
      exact h1.trans hl (ih (h1.awaits h hl rfl) hl)
    · rw [emitText_dead hd]; exact ht

theorem echoPoint_timed {k : Nat} {c : Cut} {rest : List TimedInput} {s : State} (h : Awaits k c rest s)
    (hl : live s = true) : Timed k c rest s (echoPoint s) := by
  unfold echoPoint
  split
  · have hl' : live { s with echo := s.echo.rest } = true := hl
    rw [emitChunk_eq _ hl']
    exact emitText_timed (s := { s with echo := s.echo.rest }) _ ⟨h.head, h.pos⟩ hl'
  · exact Timed.refl h hl

/-- One event: it happens at a state the text before it has led to, or the command ends there. -/
theorem issue_timed {k : Nat} {c : Cut} {rest : List TimedInput} {s : State} (f : State → State)
    (h : Awaits k c rest s) (hl : live s = true) :
    (∃ t, Between s t ∧ live t = true ∧ Timed k c rest s t ∧ t.pos < k ∧ issue f s = f t) ∨
      live (issue f s) = false ∧ Timed k c rest s (issue f s) := by
  have h1 := echoPoint_timed h hl
  have hb := echoPoint_between s hl
  cases he : live (echoPoint s)
  · rw [issue, guarded_dead he]; exact .inr ⟨he, h1⟩
  · have hs : (echoPoint s).sinkAvail = s.sinkAvail := by simpa using congrArg State.sinkAvail hb.block
    rcases guarded_timed f (h1.awaits h he hs) he with ⟨e, hp⟩ | ⟨hd, _, ht⟩
    · exact .inl ⟨_, hb, he, h1, hp, e⟩
    · exact .inr ⟨hd, h1.trans he ht⟩

/-! ## Procedures -/

/-- A `Proc` that, cut short, has stopped before its event n with the block `st` gives, and keeps time. -/
structure Staged (P g : State → State) (ev : State → List Event) (st : State → Nat → State) : Prop where
  proc : Proc P g ev
  stage : ∀ s, live s = true → live (P s) = false → ∃ n, n < (ev (blockOf s)).length ∧
    noWork (blockOf (P s)) = noWork (st (blockOf s) n) ∧
    ∀ q, Silent q s → view q (P s) = view q s ++ ((ev (blockOf s)).take n).filter q
  clock : ∀ k c rest s, Awaits k c rest s → live s = true → Timed k c rest s (P s)

theorem Staged.id : Staged (fun s => s) (fun b => b) (fun _ => []) (fun b _ => b) where
  proc := Proc.id
  stage := fun s hl hd => by rw [hl] at hd; cases hd
  clock := fun _ _ _ _ h hl => Timed.refl h hl

theorem Staged.comp {P g Q h : State → State} {ev ev' : State → List Event} {st st' : State → Nat → State}
    (p : Staged P g ev st) (q : Staged Q h ev' st') :
    Staged (fun s => Q (P s)) (fun b => h (g b)) (fun b => ev b ++ ev' (g b))
      (fun b n => if n < (ev b).length then st b n else st' (g b) (n - (ev b).length)) where
  proc := p.proc.comp q.proc
  stage := fun s hl hd => by
    cases hp : live (P s)
    · obtain ⟨n, hn, hb, hv⟩ := p.stage s hl hp
      obtain ⟨w, hw⟩ := q.proc.dead _ hp
      refine ⟨n, by rw [List.length_append]; omega, ?_, fun f hf => ?_⟩
      · simp only [hw, if_pos hn]; exact hb
      · rw [List.take_append_of_le_length hn.le, ← hv f hf, hw]; rfl
    · obtain ⟨n, hn, hb, hv⟩ := q.stage _ hp hd
      have hblock := p.proc.block s hl hp
      rw [hblock] at hn hb hv
      refine ⟨(ev (blockOf s)).length + n, by rw [List.length_append]; omega, ?_, fun f hf => ?_⟩
      · have h1 : ¬ (ev (blockOf s)).length + n < (ev (blockOf s)).length := by omega
        simp only [if_neg h1, Nat.add_sub_cancel_left]; exact hb
      · have hf' : Silent f (P s) := by
          rcases hf with hf | hf
          · exact .inl ((p.proc.echoing s hl hp).trans hf)
          · exact .inr hf
        rw [hv f hf', p.proc.trace f s hf hl hp, List.take_length_add_append, List.filter_append, List.append_assoc]
  clock := fun k c rest s ha hl => by
    have h1 := p.clock k c rest s ha hl
    cases hp : live (P s)
    · obtain ⟨w, hw⟩ := q.proc.dead _ hp
      show Timed k c rest s (Q (P s))
      rw [hw]; exact h1
    · exact h1.trans hp (q.clock k c rest _ (h1.awaits ha hp (p.proc.core s hl).sinkAvail) hp)

theorem Staged.arg {α : Type} {P g : α → State → State} {ev : α → State → List Event}
    {st : α → State → Nat → State} (x : State → α) (hx : ∀ s, x (blockOf s) = x s)
    (p : ∀ a, Staged (P a) (g a) (ev a) (st a)) :
    Staged (fun s => P (x s) s) (fun b => g (x b) b) (fun b => ev (x b) b) (fun b => st (x b) b) where
  proc := Proc.arg x hx fun a => (p a).proc
  stage := fun s hl hd => by simpa only [hx] using (p (x s)).stage s hl hd
  clock := fun k c rest s => (p (x s)).clock k c rest s

theorem Staged.ite {P g Q h : State → State} {ev ev' : State → List Event} {st st' : State → Nat → State}
    (c : State → Prop) [DecidablePred c] (hc : ∀ s, c (blockOf s) ↔ c s) (p : Staged P g ev st)
    (q : Staged Q h ev' st') :
    Staged (fun s => if c s then P s else Q s) (fun b => if c b then g b else h b)
      (fun b => if c b then ev b else ev' b) (fun b => if c b then st b else st' b) where
  proc := Proc.ite c hc p.proc q.proc
  stage := fun s hl hd => by
    by_cases h : c s
    · simp only [if_pos h, if_pos ((hc s).2 h)] at hd ⊢; exact p.stage s hl hd
    · simp only [if_neg h, if_neg (fun h' => h ((hc s).1 h'))] at hd ⊢; exact q.stage s hl hd
  clock := fun k d rest s ha hl => by
    by_cases h : c s
    · simp only [if_pos h]; exact p.clock k d rest s ha hl
    · simp only [if_neg h]; exact q.clock k d rest s ha hl

theorem Staged.congr {P P' g : State → State} {ev : State → List Event} {st : State → Nat → State}
    (p : Staged P g ev st) (h : ∀ s, live s = true → P' s = P s)
    (hd : ∀ s, live s = false → ∃ w, P' s = { s with work := w }) : Staged P' g ev st where
  proc := p.proc.congr h hd
  stage := fun s hl => by rw [h s hl]; exact p.stage s hl
  clock := fun k c rest s ha hl => by rw [h s hl]; exact p.clock k c rest s ha hl

theorem Staged.eq {P g g' : State → State} {ev ev' : State → List Event} {st st' : State → Nat → State}
    (p : Staged P g ev st) (hg : ∀ b, g' b = g b) (he : ∀ b, ev' b = ev b)
    (hst : ∀ b n, n < (ev b).length → st' b n = st b n) : Staged P g' ev' st' where
  proc := p.proc.eq hg he
  stage := fun s hl hd => by
    obtain ⟨n, hn, hb, hv⟩ := p.stage s hl hd
    exact ⟨n, by rw [he]; exact hn, by rw [hst _ _ hn]; exact hb, by rw [he]; exact hv⟩
  clock := p.clock

/-- One event. -/
theorem staged_issue {e : State → Event} {eff : State → State} (he : ∀ s, e (blockOf s) = e s)
    (h : Effect eff) (hp : ∀ s, (eff s).pos = s.pos) :
    Staged (issue fun s => record (e s) (eff s)) eff (fun b => [e b]) (fun b _ => b) where
  proc := proc_issue he h
  stage := fun s hl hd => by
    obtain ⟨t, hb, ⟨ht, e'⟩ | ⟨ht, e'⟩⟩ := issue_cases (fun s => record (e s) (eff s)) s hl
    · rw [e'] at hd
      have : live (record (e t) (eff t)) = live t := by simp [live, h.cut]
      rw [this, ht] at hd; cases hd
    · exact ⟨0, by simp, by rw [e', hb.block], fun q hq => by simp [e', hb.trace q hq]⟩
  clock := fun k c rest s ha hl => by
    rcases issue_timed (fun s => record (e s) (eff s)) ha hl with ⟨t, _, ht, htm, hlt, e'⟩ | ⟨_, htm⟩
    · rw [e']
      have h1 : Timed k c rest s (eff t) := by
        obtain ⟨a, b⟩ := htm
        exact ⟨by rw [h.reads, h.log]; exact a, by rw [h.cut, h.host, hp, h.log]; exact b⟩
      exact record_timed h1 (by simpa [live, h.cut] using ht) (by rw [hp]; exact hlt)
    · exact htm

/-- One event with no place for ECHO text before it. -/
theorem staged_guarded {e : State → Event} {eff : State → State} (he : ∀ s, e (blockOf s) = e s)
    (h : Effect eff) (hp : ∀ s, (eff s).pos = s.pos) :
    Staged (guarded fun s => record (e s) (eff s)) eff (fun b => [e b]) (fun b _ => b) where
  proc := proc_guarded he h
  stage := fun s hl hd => by
    obtain ⟨t, hb, _, ⟨ht, e'⟩ | ⟨ht, e'⟩⟩ := guarded_cases (fun s => record (e s) (eff s)) s hl
    · rw [e'] at hd
      have : live (record (e t) (eff t)) = live t := by simp [live, h.cut]
      rw [this, ht] at hd; cases hd
    · exact ⟨0, by simp, by rw [e', hb.block], fun q hq => by simp [e', hb.trace q hq]⟩
  clock := fun k c rest s ha hl => by
    rcases guarded_timed (fun s => record (e s) (eff s)) ha hl with ⟨e', hlt⟩ | ⟨_, _, htm⟩
    · rw [e']
      have h1 : Timed k c rest s (eff s) :=
        ⟨⟨h.reads s, by rw [h.log]⟩, by
          rw [h.cut, h.host, hp, h.log]; exact (Timed.refl ha hl).2⟩
      exact record_timed h1 (by simpa [live, h.cut] using hl) (by rw [hp]; exact hlt)
    · exact htm

theorem staged_setWork (f : Work → Work) (hf : ∀ w, (f w).echoing = w.echoing) :
    Staged (setWork f) (setWork f) (fun _ => []) (fun b _ => b) where
  proc := proc_setWork f hf
  stage := fun s hl hd => by
    have : live (setWork f s) = live s := rfl
    rw [this, hl] at hd; cases hd
  clock := fun _ _ _ _ ha hl => ⟨⟨rfl, List.suffix_rfl⟩, (Timed.refl ha hl).2⟩

theorem staged_setMode (m : BusMode) :
    Staged (setMode m) (fun b => { b with mode := m }) (fun _ => []) (fun b _ => b) where
  proc := proc_setMode m
  stage := fun s hl hd => by
    rw [show setMode m s = { s with mode := m } from if_pos hl] at hd
    have : live { s with mode := m } = live s := rfl
    rw [this, hl] at hd; cases hd
  clock := fun _ _ _ s ha hl => by
    rw [show setMode m s = { s with mode := m } from if_pos hl]
    exact ⟨⟨rfl, List.suffix_rfl⟩, (Timed.refl ha hl).2⟩

theorem opEffect_pos (op : PinOp) (s : State) : (opEffect op s).pos = s.pos := by
  cases op <;> simp [opEffect]

theorem staged_pinOp (op : PinOp) :
    Staged (pinOp op) (opEffect op) (fun b => [op.event b.cfg]) (fun b _ => b) := by
  rw [pinOp_eq]
  exact staged_issue (e := fun s => op.event s.cfg) (fun _ => rfl) (opEffect_effect op) (opEffect_pos op)

/-- Pin-bank operations, cut short before operation n, have done those before it. -/
theorem staged_runOps (ops : List PinOp) :
    Staged (runOps ops) (applyOps ops) (fun b => ops.map (PinOp.event b.cfg))
      (fun b n => applyOps (ops.take n) b) := by
  induction ops with
  | nil => exact Staged.id.eq (fun _ => rfl) (fun _ => rfl) (fun _ _ h => absurd h (Nat.not_lt_zero _))
  | cons op ops ih =>
    refine ((staged_pinOp op).comp ih).eq (fun _ => rfl) (fun b => by simp) (fun b n _ => ?_)
    cases n with
    | zero => rfl
    | succ n => simp [applyOps]

/-! ## The procedures of the Bus Driver -/

theorem staged_enterWrite :
    Staged enterWrite doEnterWrite (fun b => enterWriteTrace b.cfg)
      (fun b n => applyOps (enterWriteOps.take n) b) :=
  ((staged_runOps enterWriteOps).comp (staged_setMode .write)).eq (fun _ => rfl)
    (fun b => by simp [enterWrite_events]) (fun b n h => by
      simp only [List.append_nil] at h
      rw [if_pos h])

theorem staged_enterRead :
    Staged enterRead doEnterRead (fun b => enterReadTrace b.params.oeSettleUs b.cfg)
      (fun b n => applyOps ((enterReadOps b.params.oeSettleUs).take n) b) :=
  (Staged.arg (fun s => s.params.oeSettleUs) (fun _ => rfl)
    (fun us => (staged_runOps (enterReadOps us)).comp (staged_setMode .read))).eq (fun _ => rfl)
    (fun b => by simp [enterRead_events]) (fun b n h => by
      simp only [List.append_nil] at h
      rw [if_pos h])

/-- EnterWrite where needed, cut short before event n. -/
theorem staged_needWrite :
    Staged needWrite doNeedWrite needWriteTrace (fun b n => applyOps (enterWriteOps.take n) b) :=
  (Staged.ite (fun s => s.mode = .write) (fun _ => Iff.rfl) Staged.id staged_enterWrite).eq (fun _ => rfl)
    (fun _ => rfl) (fun b n h => by
      split
      · rename_i hm; rw [if_pos hm] at h; exact absurd h (Nat.not_lt_zero _)
      · rfl)

theorem staged_needRead : ∃ st, Staged needRead doNeedRead needReadTrace st :=
  ⟨_, Staged.ite (fun s => s.mode = .read) (fun _ => Iff.rfl) Staged.id staged_enterRead⟩

/-- The block of WriteByteProc(v, a) before its event n. -/
def writeStage (v : Byte) (a : Addr) (b : State) (n : Nat) : State :=
  if n < (needWriteTrace b).length then applyOps (enterWriteOps.take n) b
  else applyOps ((writeByteOps b.cfg.tBit.toNat v a).take (n - (needWriteTrace b).length)) (doNeedWrite b)

theorem staged_writeByte (v : Byte) (a : Addr) :
    Staged (writeByteProc v a) (doWriteByte v a) (fun b => needWriteTrace b ++ writeByteTrace b.cfg v a)
      (writeStage v a) :=
  (Staged.arg (fun s => s.cfg.tBit.toNat) (fun _ => rfl)
    (fun t => staged_needWrite.comp (staged_runOps (writeByteOps t v a)))).eq (fun _ => rfl)
    (fun b => by simp [(doNeedWrite_core b).cfg, writeByte_events]) (fun _ _ _ => rfl)

theorem doSample_pos (p : Fin 8) (s : State) : (doSample p s).pos = s.pos := by
  simp [doSample]

theorem staged_sample (p : Fin 8) :
    Staged (pinSample p) (doSample p) (fun b => [.smp (pinOf b.cfg (.data p)) (sampleLevel p b)]) (fun b _ => b) :=
  staged_issue (e := fun s => .smp (pinOf s.cfg (.data p)) (sampleLevel p s)) (fun _ => rfl) (doSample_effect p)
    (doSample_pos p)

theorem staged_readPass (a : Addr) (p : Fin 8) :
    ∃ st, Staged (fun s => readPass a s p) (fun b => doReadPass a b p) (fun b => passTrace a b p) st := by
  unfold readPass doReadPass
  have h := Staged.arg (P := fun us s => pinSample p (runOps (readPassOps us a) s))
    (fun s => s.params.readSettleUs) (fun _ => rfl)
    (fun us => (staged_runOps (readPassOps us a)).comp (staged_sample p))
  refine ⟨_, Staged.eq h (fun b => ?_) (fun b => ?_) (fun _ _ _ => rfl)⟩
  · with_reducible rfl
  · rw [readPass_events]
    simp [passTrace, passLevel, (applyOps_core _ b).cfg, pinOf]

theorem staged_readPasses (a : Addr) (ps : List (Fin 8)) :
    ∃ st, Staged (fun s => ps.foldl (readPass a) s) (fun b => ps.foldl (doReadPass a) b) (passesTrace a ps) st := by
  induction ps with
  | nil => exact ⟨_, Staged.id⟩
  | cons p ps ih =>
    obtain ⟨_, h1⟩ := staged_readPass a p
    obtain ⟨_, h2⟩ := ih
    have h := h1.comp h2
    simp only [List.foldl_cons]
    exact ⟨_, h⟩

theorem staged_readByte (a : Addr) :
    ∃ st, Staged (readByteProc a) (doReadByte a) (readTrace a) st := by
  obtain ⟨_, h1⟩ := staged_needRead
  obtain ⟨_, h2⟩ := staged_readPasses a (List.finRange 8)
  have h := (h1.comp (staged_setWork (fun w => { w with acc := 0 }) (fun _ => rfl))).comp h2
  exact ⟨_, h.eq (fun _ => rfl) (fun _ => by simp [readTrace, clearAcc]) (fun _ _ _ => rfl)⟩

/-! ## The loops of the Programmer -/

/-- The block of one turn of PROGRAM's loop, after its query, before its event n. -/
def byteStage (b : State) (n : Nat) : State :=
  if n < 1 then b else writeStage (srcNext b) (workOf b).a (doRead b) (n - 1)

theorem staged_srcQuery : Staged srcQuery doQuery (fun b => [.srcQ (srcAvail b)]) (fun b _ => b) :=
  staged_issue (e := fun s => .srcQ (srcAvail s)) (eff := doQuery) (fun _ => rfl)
    ⟨fun _ => rfl, fun _ => rfl, fun _ => rfl, fun _ => rfl, fun _ => rfl, doQuery_core, fun _ => rfl⟩
    (fun _ => rfl)

theorem staged_srcRead : Staged srcRead doRead (fun b => [.srcR (srcNext b)]) (fun b _ => b) :=
  staged_issue (e := fun s => .srcR (srcNext s)) (eff := doRead) (fun _ => rfl)
    ⟨fun _ => rfl, fun _ => rfl, fun _ => rfl, fun _ => rfl, fun _ => rfl, doRead_core, fun _ => rfl⟩
    (fun _ => rfl)

theorem staged_programByte : Staged programByte doProgramByte programByteTrace byteStage :=
  (Staged.arg (fun s => (srcNext s, (workOf s).a)) (fun _ => rfl)
    (fun x => (staged_srcRead.comp (staged_writeByte x.1 x.2)).comp
      (staged_setWork (fun w => { w with a := w.a + 1 }) (fun _ => rfl)))).eq (fun _ => rfl)
    (fun b => by
      simp only [programByteTrace, doRead, needWriteTrace, List.append_nil, List.cons_append, List.nil_append]; rfl)
    (fun b n h => by
      simp only [List.append_nil] at h
      rw [if_pos h]; rfl)

/-- The block of PROGRAM's loop before its event n. -/
def loopStage : Nat → State → Nat → State
  | 0, b, _ => b
  | m + 1, b, n =>
    if srcAvail b then
      if n < 1 then b
      else if n - 1 < (programByteTrace (doQuery b)).length then byteStage (doQuery b) (n - 1)
      else loopStage m (doProgramByte (doQuery b)) (n - 1 - (programByteTrace (doQuery b)).length)
    else b

theorem staged_programLoop (m : Nat) :
    Staged (programLoop m) (doProgramLoop m) (programLoopTrace m) (loopStage m) := by
  induction m with
  | zero => exact Staged.id
  | succ m ih =>
    have inner := Staged.ite (fun s => srcAvail s = true) (fun _ => Iff.rfl)
      (staged_srcQuery.comp (staged_programByte.comp ih)) staged_srcQuery
    have outer := Staged.ite (fun s => (workOf s).a ≤ (workOf s).bound) (fun _ => Iff.rfl) inner Staged.id
    refine (outer.congr (P' := programLoop (m + 1)) (fun s hs => ?_) (fun s hs => ⟨s.work, ?_⟩)).eq (fun b => ?_)
      (fun b => ?_) (fun b n hn => ?_)
    · simp [programLoop, hs]
    · simp [programLoop, hs]
    · rfl
    · show programLoopTrace (m + 1) b = _
      rw [programLoopTrace]
      split
      · split
        · rename_i h
          simp [h]
        · rename_i h
          simp [h]
      · rfl
    · by_cases h1 : (workOf b).a ≤ (workOf b).bound
      · rw [if_pos h1] at hn ⊢
        by_cases h2 : srcAvail b = true
        · simp only [loopStage, if_pos h2, List.length_singleton]
        · rw [if_neg h2]
          simp only [loopStage, h2]
          rfl
      · rw [if_neg h1] at hn
        exact absurd hn (Nat.not_lt_zero _)

theorem staged_emitText (text : List Byte) :
    ∃ st, Staged (emitText text) (fun b => b) (fun _ => text.map .out) st := by
  induction text with
  | nil => exact ⟨_, Staged.id⟩
  | cons c text ih =>
    obtain ⟨_, h⟩ := ih
    exact ⟨_, (staged_guarded (e := fun _ => .out c) (fun _ => rfl) effect_id (fun _ => rfl)).comp h⟩

theorem staged_dumpByte : ∃ st, Staged dumpByte doDumpByte (fun b => dumpByteTraceAt (workOf b).a b) st := by
  have tail : ∀ (a : BitVec 16) (up : Bool) (eol : List Byte),
      ∃ st, Staged (fun s => emitText (textAfter up eol a (workOf s).acc) s) (fun b => b)
        (fun b => (textAfter up eol a (workOf b).acc).map .out) st := fun a up eol => by
    choose st h using fun v => staged_emitText (textAfter up eol a v)
    exact ⟨_, Staged.arg (P := fun v s => emitText (textAfter up eol a v) s) (g := fun _ b => b)
      (ev := fun v _ => (textAfter up eol a v).map .out) (fun s => (workOf s).acc) (fun _ => rfl) h⟩
  have one : ∀ (x : BitVec 16 × Bool × List Byte), ∃ st, Staged (dumpByteAt x.2.1 x.2.2 x.1)
      (fun b => nextAddr (doReadByte x.1 (setColumn x.1 b)))
      (fun b => (textBefore x.2.1 x.1).map .out ++
        (readTrace x.1 (setColumn x.1 b) ++
          (textAfter x.2.1 x.2.2 x.1 (workOf (doReadByte x.1 (setColumn x.1 b))).acc).map .out)) st := by
    intro x
    obtain ⟨_, h1⟩ := staged_emitText (textBefore x.2.1 x.1)
    obtain ⟨_, h2⟩ := staged_readByte x.1
    obtain ⟨_, h3⟩ := tail x.1 x.2.1 x.2.2
    have h := ((((staged_setWork (fun w => { w with j := x.1.extractLsb' 0 4 }) (fun _ => rfl)).comp h1).comp
      h2).comp h3).comp (staged_setWork (fun w => { w with a := w.a + 1 }) (fun _ => rfl))
    refine ⟨_, Staged.eq (P := dumpByteAt x.2.1 x.2.2 x.1) h (fun b => rfl) (fun b => ?_) (fun _ _ _ => rfl)⟩
    simp only [List.nil_append, List.append_nil, List.append_assoc, setColumn]
  choose st h using one
  have h := Staged.arg (fun s => ((workOf s).a, s.params.hexUpper, s.params.eolSeq)) (fun _ => rfl) h
  exact ⟨_, Staged.eq (P := dumpByte) h (fun _ => rfl) (fun _ => rfl) (fun _ _ _ => rfl)⟩

theorem staged_dumpLoop (n : Nat) : ∃ st, Staged (dumpLoop n) (doDumpLoop n) (dumpLoopTrace n) st := by
  induction n with
  | zero => exact ⟨_, Staged.id⟩
  | succ n ih =>
    obtain ⟨_, h1⟩ := staged_dumpByte
    obtain ⟨_, h2⟩ := ih
    have outer := Staged.ite
      (fun s => (workOf s).a.toNat < 0x7FFF ∧ (workOf s).a.toNat < (workOf s).endAddr.toNat) (fun _ => Iff.rfl)
      (h1.comp h2) Staged.id
    refine ⟨_, (outer.congr (P' := dumpLoop (n + 1)) (fun s hs => ?_) (fun s hs => ⟨s.work, ?_⟩)).eq (fun b => ?_)
      (fun b => ?_) (fun _ _ _ => rfl)⟩
    · simp [dumpLoop, hs]
    · simp [dumpLoop, hs]
    · rfl
    · rfl

/-- The block of PROGRAM before its event n. -/
def programStage (a f : Addr) (b : State) (n : Nat) : State :=
  if n < (needWriteTrace b).length then applyOps (enterWriteOps.take n) b
  else loopStage (programSpan a f) (programStart a f (doNeedWrite b)) (n - (needWriteTrace b).length)

theorem staged_program (a f : Addr) :
    Staged (fun s => programLoop (programSpan a f) (programStart a f (needWrite s)))
      (fun b => doProgramLoop (programSpan a f) (programStart a f (doNeedWrite b)))
      (fun b => needWriteTrace b ++
        programLoopTrace (programSpan a f) (programStart a f (doNeedWrite b)))
      (programStage a f) :=
  (staged_needWrite.comp ((staged_setWork (fun w => { w with bound := programBound f, a := a }) (fun _ => rfl)).comp
    (staged_programLoop (programSpan a f)))).eq (fun _ => rfl) (fun b => by simp [programStart])
    (fun b n _ => by simp [programStage, programStart])

/-- Every command's procedure is staged. -/
theorem staged_body (i : Instr) : ∃ st, Staged (bodyOf i) (effectOf i) (eventsOf i) st := by
  cases i with
  | setAddress a =>
    exact ⟨_, (staged_runOps (setAddrOps a)).eq (fun _ => rfl) (fun b => (setAddr_events b.cfg a).symm)
      (fun _ _ _ => rfl)⟩
  | enterWrite => exact ⟨_, staged_enterWrite⟩
  | enterRead => exact ⟨_, staged_enterRead⟩
  | writeByte v a => exact ⟨_, staged_writeByte v a⟩
  | readByte a =>
    obtain ⟨_, h⟩ := staged_readByte a
    exact ⟨_, Staged.ite (fun s => (workOf s).sink = true) (fun _ => Iff.rfl) h Staged.id⟩
  | program a f => exact ⟨_, staged_program a f⟩
  | dump a n =>
    obtain ⟨_, h1⟩ := staged_needRead
    obtain ⟨_, h2⟩ := staged_dumpLoop (dumpCount a n)
    have h := (h1.comp (staged_setWork (fun w => { w with endAddr := dumpEnd a n, a := dumpBase a })
      (fun _ => rfl))).comp h2
    have h' := h.eq (g' := fun b => doDumpLoop (dumpCount a n) (dumpStart a n (doNeedRead b)))
      (ev' := fun b => needReadTrace b ++ dumpLoopTrace (dumpCount a n) (dumpStart a n (doNeedRead b)))
      (fun _ => rfl) (fun b => by simp [dumpStart]) (fun _ _ _ => rfl)
    exact ⟨_, Staged.ite (fun s => (workOf s).sink = true) (fun _ => Iff.rfl) h' Staged.id⟩

/-! ## Commands -/

/-- A command that an input has ended: after k events, of which n are its own (the others are ECHO text), with the
block m, and with the inputs after that one still to come. -/
structure StoppedRun (i : Instr) (s y : State) (k : Nat) (c : Cut) (rest : List TimedInput) (n : Nat)
    (m : State) : Prop where
  cut : y.cut = some c
  host : y.host = rest
  reads : y.reads = s.reads
  kept : s.log <:+ y.log
  log : y.log.length = s.log.length + k
  own : n ≤ (eventsOf i (blockOf (startOf i s))).length
  block : noWork (blockOf y) = noWork m
  trace : ∀ q, Silent q (startOf i s) →
    view q y = view q s ++ ((eventsOf i (blockOf (startOf i s))).take n).filter q

/-- A command whose first input, with index k, would end it: it finishes if it has fewer than k events, and is
ended after k events if not. -/
theorem exec_timed {i : Instr} {st : State → Nat → State} (p : Staged (bodyOf i) (effectOf i) (eventsOf i) st)
    {s : State} {k : Nat} {act : Input} {rest : List TimedInput} {c : Cut} (hh : s.host = ⟨some k, act⟩ :: rest)
    (he : endOf act s.sinkAvail = some c) :
    (∃ t, exec i s = .next t ∧ Finished i s t ∧ t.host = s.host ∧ t.reads = s.reads ∧
        t.log.length < s.log.length + k) ∨
      ∃ y n, exec i s = conclude s.host.length y ∧
        StoppedRun i s y k c rest n
          (if n < (eventsOf i (blockOf (startOf i s))).length then st (blockOf (startOf i s)) n
          else effectOf i (blockOf (startOf i s))) := by
  have ex := startOf_eq i s
  have hl := startOf_live i s
  have hpos : (startOf i s).pos = 0 := by rw [ex]; rfl
  have hlog : (startOf i s).log = s.log := by rw [ex]; rfl
  have hreads : (startOf i s).reads = s.reads := by rw [ex]; rfl
  have hhost : (startOf i s).host = s.host := by rw [ex]; rfl
  have hview : ∀ q, view q (startOf i s) = view q s := fun q => view_of_log hlog
  have ha : Awaits k c rest (startOf i s) := by
    refine ⟨⟨act, by rw [hhost]; exact hh, ?_⟩, by rw [hpos]; exact Nat.zero_le _⟩
    have : (startOf i s).sinkAvail = s.sinkAvail := by rw [ex]; rfl
    rw [this]; exact he
  have hx := exec_eq i s
  have hbody := p.clock k c rest _ ha hl
  have hcore := p.proc.core _ hl
  generalize hE : eventsOf i (blockOf (startOf i s)) = E at *
  -- what a stopped state is, from the clock and the trace
  have stop : ∀ y n m, Timed k c rest (startOf i s) y → y.cut ≠ none → n ≤ E.length →
      noWork (blockOf y) = noWork m → (∀ q, Silent q (startOf i s) →
        view q y = view q (startOf i s) ++ (E.take n).filter q) → StoppedRun i s y k c rest n m := by
    intro y n m ht hc hn hb hv
    rcases ht.2 with ⟨h, _⟩ | ⟨h1, h2, h3⟩
    · exact absurd h hc
    · exact ⟨h1, h2, ht.1.1.trans hreads, by rw [← hlog]; exact ht.1.2, by rw [hpos, hlog] at h3; exact h3, by rw [hE]; exact hn, hb,
        fun q hs => by rw [hv q hs, hview, hE]⟩
  cases hp : live (bodyOf i (startOf i s))
  · obtain ⟨n, hn, hb, hv⟩ := p.stage _ hl hp
    rw [hE] at hn hv
    refine .inr ⟨_, n, ?_, stop _ n _ hbody (not_live_iff.1 hp) hn.le (by rw [if_pos hn]; exact hb) hv⟩
    rw [hx, show finish (statusOf i s) _ _ = bodyOf i (startOf i s) from issue_dead hp]
  · have ha' := hbody.awaits ha hp hcore.sinkAvail
    rcases issue_timed (finished (statusOf i s) (resultOf i s.sinkAvail (bodyOf i (startOf i s)))) ha' hp with
      ⟨t, hbt, hlt, htm, hk, e⟩ | ⟨hd, htm⟩
    · have hn : exec i s =
          .next (finished (statusOf i s) (resultOf i s.sinkAvail (bodyOf i (startOf i s))) t) := by
        rw [hx, finish, e]
        exact conclude_of_live (live_iff.1 hlt)
      obtain ⟨g1, _⟩ := finish_run p.proc (statusOf i s) (resultOf i s.sinkAvail)
        (resultOf_block i s.sinkAvail) (startOf i s) hl
      rw [finish, e] at g1
      have h1 := hbody.trans hp htm
      rcases h1.2 with ⟨_, b, _, d⟩ | ⟨h, _⟩
      · rcases g1 with g1 | g1
        · refine .inl ⟨_, hn, ⟨g1.cut, g1.block, fun q hs => by rw [g1.trace q hs, hview], g1.pos⟩, b.trans hhost,
            h1.1.1.trans hreads, ?_⟩
          rw [hpos, hlog] at d
          show t.log.length < _
          omega
        · exact absurd (live_iff.1 hlt) g1
      · rw [live_iff.1 hlt] at h; cases h
    · refine .inr ⟨_, E.length, by rw [hx, finish], stop _ _ _ (hbody.trans hp htm) (not_live_iff.1 hd) le_rfl ?_ ?_⟩
      · obtain ⟨t, hbt, ⟨ht, e⟩ | ⟨ht, e⟩⟩ :=
          issue_cases (finished (statusOf i s) (resultOf i s.sinkAvail (bodyOf i (startOf i s)))) _ hp
        · rw [e] at hd
          have hd : live t = false := hd
          rw [ht] at hd; cases hd
        · rw [e, hbt.block, p.proc.block _ hl hp, if_neg (lt_irrefl _)]
      · intro q hs
        have hs' : Silent q (bodyOf i (startOf i s)) := by
          rcases hs with hs | hs
          · exact .inl ((p.proc.echoing _ hl hp).trans hs)
          · exact .inr hs
        obtain ⟨t, hbt, ⟨ht, e⟩ | ⟨ht, e⟩⟩ :=
          issue_cases (finished (statusOf i s) (resultOf i s.sinkAvail (bodyOf i (startOf i s)))) _ hp
        · rw [e] at hd
          have hd : live t = false := hd
          rw [ht] at hd; cases hd
        · rw [e, hbt.trace q hs', p.proc.trace q _ hs hl hp, hE, List.take_length]

end Sys2Proof.Laws
end

