-- ==== Sys2Proof/Laws/Abandon.lean ====
section
/-! SUPPORT. A reset inside a command (70_reset_and_hazards.md R192): the state it leaves, and what it leaves in the
reference device and the byte source, by the event of the command it falls at. -/

namespace Sys2Proof.Laws

open Sys2Proof Sys2Proof.Machine Sys2Proof.Safety

/-! ## The reset sequence and the device -/

/-- The device once WE is back at 1: a write pulse that is still open commits (70_reset_and_hazards.md R192 (a)). -/
def settle (b : State) : RefDevice :=
  match b.lines.we.out with
  | .low => { b.dev with mem := Memory.write b.dev.mem b.dev.latchA.toNat b.dev.latchD }
  | _ => b.dev

/-- The reset sequence makes no falling edge; it makes a rising one where WE was low (R190). -/
theorem doReset_dev (c : PinConfig) (b : State) :
    (doReset c b).dev = settle b ∧ (doReset c b).source = b.source := by
  refine ⟨?_, applyOps_source resetOps (latchConfig c b)⟩
  show (applyOps resetOps (latchConfig c b)).dev = _
  have hl : (latchConfig c b).lines.we.out = b.lines.we.out := rfl
  have hd : (latchConfig c b).dev = b.dev := rfl
  generalize latchConfig c b = x at *
  have hsplit : resetOps = [.dir .we .output, .drv .we true] ++ resetOps.drop 2 := by decide
  have hsp : (resetOps.drop 2).all sparesWe = true := by decide
  rw [hsplit, applyOps_append, (applyOps_dev hsp _).1]
  show (opEffect (.drv .we true) (opEffect (.dir .we .output) x)).dev = _
  have h1 : (opEffect (.dir .we .output) x).lines.we.out = b.lines.we.out := by
    rw [we_eq_getLine, opEffect_getLine, ← we_eq_getLine]; simpa [onLine] using hl
  have h2 : (opEffect (.dir .we .output) x).dev = b.dev := hd
  generalize opEffect (.dir .we .output) x = y at *
  unfold settle
  cases ho : b.lines.we.out <;> rw [ho] at h1 <;> simp [opEffect, deviceOnDrive, deviceOnWe, h1, h2]

/-- A command that a reset has ended, with no later input inside the reset sequence: the state after it. -/
theorem abandoned {i : Instr} {s y m : State} {k n : Nat} {c : PinConfig} {rest : List TimedInput}
    (h : StoppedRun i s y k (.reset c) rest n m) (hne : s.host ≠ []) (hq : quiet { s with host := rest } = true) :
    ∃ t, conclude s.host.length y = .next t ∧ AfterReset c t ∧ t.host = rest ∧ t.reads = s.reads ∧
      (∀ q, view q t = view q y ++ (resetTrace c).filter q) ∧
      t.dev = (doReset c m).dev ∧ t.source = (doReset c m).source := by
  have hqy : quiet y = true := by
    have := h.host
    unfold quiet at hq ⊢
    rw [this]; exact hq
  obtain ⟨h1, h2, _⟩ := reset_run c y
  obtain ⟨hc, hh, hr⟩ := h2 hqy
  obtain ⟨len, hlen⟩ : ∃ len, s.host.length = len + 1 := by
    cases hs : s.host with
    | nil => exact absurd hs hne
    | cons a b => exact ⟨b.length, rfl⟩
  have e : conclude s.host.length y = .next (resetSequence c y) := by
    rw [hlen, conclude, h.cut]
    exact conclude_of_live hc
  rcases h1 with ⟨_, hb, hv, _⟩ | hcut
  · refine ⟨_, e, (reset_after hc).1, hh.trans h.host, hr.trans h.reads, hv, ?_⟩
    have hm : latchConfig c (blockOf y) = latchConfig c m := by
      have k1 : latchConfig c (blockOf y) = latchConfig c (noWork (blockOf y)) := rfl
      have k2 : latchConfig c m = latchConfig c (noWork m) := rfl
      rw [k1, k2, h.block]
    have h3 : doReset c (blockOf y) = doReset c m := by unfold doReset; rw [hm]
    rw [h3] at hb
    exact ⟨by simpa using congrArg State.dev hb, by simpa using congrArg State.source hb⟩
  · exact absurd hc hcut

/-! ## What a stopped byte write leaves in the device -/

/-- The operation makes no falling edge of WE. -/
def holdsWe : PinOp → Bool
  | .drv .we false => false
  | _ => true

theorem applyOps_holds {ops : List PinOp} (h : ops.all holdsWe = true) {s : State} (hw : s.lines.we.out = .high) :
    (applyOps ops s).dev = s.dev ∧ (applyOps ops s).lines.we.out = .high := by
  induction ops generalizing s with
  | nil => exact ⟨rfl, hw⟩
  | cons op ops ih =>
    simp only [List.all_cons, Bool.and_eq_true] at h
    have h1 : (opEffect op s).dev = s.dev ∧ (opEffect op s).lines.we.out = .high := by
      refine ⟨?_, ?_⟩
      · cases op with
        | dir l d => rfl
        | drv l b =>
          cases l with
          | we =>
            cases b with
            | false => simp [holdsWe] at h
            | true => simp [opEffect, deviceOnDrive, deviceOnWe, hw]
          | addr k => rfl
          | data p => rfl
          | oe => rfl
        | dly us => rfl
      · have hw' : (getLine s.lines .we).out = .high := hw
        rw [we_eq_getLine, opEffect_getLine]
        cases op with
        | dir l d => cases l <;> simpa [onLine] using hw'
        | drv l b =>
          cases l with
          | we =>
            cases b with
            | false => simp [holdsWe] at h
            | true => simp [onLine, outOf]
          | addr k => simpa [onLine] using hw'
          | data p => simpa [onLine] using hw'
          | oe => simpa [onLine] using hw'
        | dly us => exact hw
    obtain ⟨i1, i2⟩ := ih h.2 h1.2
    exact ⟨i1.trans h1.1, i2⟩

theorem pulseHead_holds (t : Nat) (v : Byte) (a : Addr) : (pulseHead t v a).all holdsWe = true := by
  simp [pulseHead, dataOps, setAddrOps, holdsWe]

theorem pulseHead_length (t : Nat) (v : Byte) (a : Addr) : (pulseHead t v a).length = 32 := by
  simp [pulseHead, dataOps, setAddrOps]

theorem all_take {α : Type} {q : α → Bool} {l : List α} (h : l.all q = true) (n : Nat) : (l.take n).all q = true := by
  rw [List.all_eq_true] at *
  exact fun x hx => h x (List.mem_of_mem_take hx)

theorem applyOps_cons (op : PinOp) (ops : List PinOp) (s : State) :
    applyOps (op :: ops) s = applyOps ops (opEffect op s) := rfl

/-- Inside the write pulse and after it the device settles the same way. -/
theorem settle_pulse (t j : Nat) {y : State} (h : y.lines.we.out = .low) :
    settle (applyOps ([PinOp.dly t, .drv .we true].take j) y) = settle y := by
  rcases j with _ | _ | j
  · rfl
  · rfl
  · rw [List.take_succ_cons, List.take_succ_cons, List.take_nil]
    have h4 : (opEffect (.drv .we true) y).lines.we.out = .high := by
      rw [we_eq_getLine, opEffect_getLine]; simp [onLine, outOf]
    show settle (opEffect (.drv .we true) y) = settle y
    unfold settle
    rw [h4, h]
    simp [opEffect, deviceOnDrive, deviceOnWe, h]

/-- The device, once WE is back at 1, after the first m operations of WriteByteProc: the byte is written exactly
when the falling edge, operation 33, was among them. -/
theorem writeOps_settle {t : Nat} {v : Byte} {a : Addr} {s : State} (h : Writing s.lines) (m : Nat) :
    settle (applyOps ((writeByteOps t v a).take m) s) =
      if 33 ≤ m then { mem := Memory.write s.dev.mem (location a) v, latchA := a.setWidth 15, latchD := v }
      else s.dev := by
  have hl := pulseHead_length t v a
  rw [writeByteOps_pulse]
  by_cases hm : 33 ≤ m
  · rw [if_pos hm]
    obtain ⟨d, h1, h2, h3⟩ := pulse_fall t v a s h.1
    have hd : d = v := h3 h.2
    subst hd
    have e1 : (pulseHead t d a ++ [PinOp.drv .we false, .dly t, .drv .we true]).take m =
        pulseHead t d a ++ (.drv .we false :: [PinOp.dly t, .drv .we true].take (m - 33)) := by
      rw [List.take_append, hl, List.take_of_length_le (by omega)]
      obtain ⟨j, rfl⟩ : ∃ j, m = 33 + j := ⟨m - 33, by omega⟩
      have : 33 + j - 32 = j + 1 := by omega
      rw [this, List.take_succ_cons, Nat.add_sub_cancel_left]
    rw [e1, applyOps_append, applyOps_cons, settle_pulse t _ h2]
    unfold settle
    rw [h2, h1, location_eq]
  · rw [if_neg hm, List.take_append_of_le_length (by omega)]
    obtain ⟨i1, i2⟩ := applyOps_holds (all_take (pulseHead_holds t v a) m) h.1
    unfold settle
    rw [i2]; exact i1

/-- The bus as every mode procedure leaves it: WE high, and in mode WRITE the data lines out. -/
def Ready (b : State) : Prop := b.lines.we.out = .high ∧ (b.mode = .write → ∀ p : Fin 8, b.lines.data[p].dir = .output)

theorem doNeedWrite_writing {b : State} (h : Ready b) : Writing (doNeedWrite b).lines := by
  refine ⟨?_, fun p => ?_⟩
  · rw [we_eq_getLine, doNeedWrite_getLine]; split <;> exact h.1
  · rw [data_eq_getLine, doNeedWrite_getLine]; split
    · rename_i hm; exact h.2 hm p
    · rfl

theorem enterWrite_settle {b : State} (h : Ready b) (n : Nat) :
    settle (applyOps (enterWriteOps.take n) b) = b.dev := by
  have hh : enterWriteOps.all holdsWe = true := by decide
  obtain ⟨i1, i2⟩ := applyOps_holds (all_take hh n) h.1
  unfold settle
  rw [i2]; exact i1

/-- A WriteByteProc stopped before its event n. -/
theorem writeStage_settle {v : Byte} {a : Addr} {b : State} (h : Ready b) (n : Nat) :
    settle (writeStage v a b n) =
        (if (needWriteTrace b).length + 33 ≤ n then
          { mem := Memory.write b.dev.mem (location a) v, latchA := a.setWidth 15, latchD := v }
        else b.dev) ∧
      (writeStage v a b n).source = b.source := by
  unfold writeStage
  split
  · rename_i hn
    exact ⟨by rw [if_neg (by omega)]; exact enterWrite_settle h n, applyOps_source _ _⟩
  · rename_i hn
    refine ⟨?_, (applyOps_source _ _).trans (doNeedWrite_source b)⟩
    rw [writeOps_settle (doNeedWrite_writing h), (doNeedWrite_dev b).1]
    have : (33 ≤ n - (needWriteTrace b).length) = ((needWriteTrace b).length + 33 ≤ n) := by
      apply propext; omega
    simp only [this]

/-! ## What a stopped PROGRAM leaves -/

theorem writeByteTrace_length (c : PinConfig) (v : Byte) (a : Addr) : (writeByteTrace c v a).length = 35 := by
  simp [writeByteTrace, setAddrTrace]

theorem ready_of_writing {b : State} (h : Writing b.lines) : Ready b := ⟨h.1, fun _ => h.2⟩

theorem settle_of_high {b : State} (h : b.lines.we.out = .high) : settle b = b.dev := by
  unfold settle; rw [h]

/-- PROGRAM's loop stopped before its event n: 37 events a byte, of which the second, `SrcR`, takes the byte from
the source and the 35th, the falling edge, commits it to the device. -/
theorem loopStage_settle (m : Nat) (b : State) (vs : List Byte) (n : Nat) (hw : b.work.isSome = true)
    (hm : b.mode = .write) (hr : Writing b.lines) (hB : (workOf b).bound.toNat ≤ 0x7FFE)
    (hn : m = (workOf b).bound.toNat + 1 - (workOf b).a.toNat) (hv : vs = (sourceBytes b.source).take m)
    (hlt : n < (programLoopTrace m b).length) :
    settle (loopStage m b n) = writesDev (workOf b).a.toNat (vs.take ((n + 2) / 37)) b.dev ∧
      (loopStage m b n).source.bytes = b.source.bytes.drop ((n + 35) / 37) := by
  induction m generalizing b vs n with
  | zero => exact absurd hlt (Nat.not_lt_zero _)
  | succ m ih =>
    have hle : (workOf b).a ≤ (workOf b).bound := by
      rw [BitVec.le_def]; omega
    cases hs : srcAvail b
    · have h0 : n = 0 := by
        have : programLoopTrace (m + 1) b = [.srcQ false] := by simp [programLoopTrace, hle, hs]
        rw [this] at hlt
        simpa using hlt
      subst h0
      have e : loopStage (m + 1) b 0 = b := by simp [loopStage, hs]
      rw [e]
      exact ⟨by simpa [writesDev] using settle_of_high hr.1, rfl⟩
    · have hsrc := sourceBytes_cons hs
      have q1 : workOf (doQuery b) = workOf b := rfl
      have q2 : srcNext (doQuery b) = srcNext b := rfl
      have hmq : (doQuery b).mode = .write := hm
      have hneed : needWriteTrace (doQuery b) = [] := by simp [needWriteTrace, hmq]
      have hneed' : needWriteTrace (doRead (doQuery b)) = [] := hneed
      have hlen : (programByteTrace (doQuery b)).length = 36 := by
        rw [programByteTrace, hneed]; simp [writeByteTrace_length]
      have hloop : programLoopTrace (m + 1) b =
          .srcQ true :: (programByteTrace (doQuery b) ++ programLoopTrace m (doProgramByte (doQuery b))) := by
        simp [programLoopTrace, hle, hs]
      have hstage : loopStage (m + 1) b n = if n < 1 then b else if n - 1 < 36 then byteStage (doQuery b) (n - 1)
          else loopStage m (doProgramByte (doQuery b)) (n - 1 - 36) := by
        simp [loopStage, hs, hlen]
      have ea : BitVec.ofNat 16 (workOf b).a.toNat = (workOf b).a := by simp
      rw [hloop] at hlt
      simp only [List.length_cons, List.length_append, hlen] at hlt
      rw [hstage]
      obtain ⟨k1, k2, k3, k4, k5, _, k7, k8, _⟩ := doProgramByte_spec (b := doQuery b) hw hmq
      rw [q1] at k2 k3
      rw [q1, q2] at k7 k8
      by_cases h1 : n < 1
      · have h0 : n = 0 := by omega
        subst h0
        exact ⟨by simpa [writesDev] using settle_of_high hr.1, rfl⟩
      · rw [if_neg h1]
        have hv' : vs = srcNext b :: (sourceBytes ⟨b.source.answers.tail, b.source.bytes.tail⟩).take m := by
          rw [hv, hsrc, List.take_succ_cons]
        by_cases h2 : n - 1 < 36
        · rw [if_pos h2, byteStage]
          by_cases h3 : n - 1 < 1
          · have h0 : n = 1 := by omega
            subst h0
            exact ⟨settle_of_high (b := doQuery b) hr.1, rfl⟩
          · rw [if_neg h3, q1, q2]
            obtain ⟨w1, w2⟩ := writeStage_settle (v := srcNext b) (a := (workOf b).a)
              (ready_of_writing (b := doRead (doQuery b)) hr) (n - 1 - 1)
            rw [w1, w2, hneed']
            have h5 : (n + 35) / 37 = 1 := by omega
            rw [h5]
            refine ⟨?_, by simp [doRead, doQuery]⟩
            by_cases h4 : 35 ≤ n
            · have h6 : (n + 2) / 37 = 1 := by omega
              rw [if_pos (by simp; omega), h6, hv', List.take_succ_cons, List.take_zero, writesDev, ea]
              rfl
            · have h6 : (n + 2) / 37 = 0 := by omega
              rw [if_neg (by simp; omega), h6]
              rfl
        · rw [if_neg h2]
          generalize doProgramByte (doQuery b) = y at *
          have ha : (workOf y).a.toNat = (workOf b).a.toNat + 1 := by
            rw [k2, BitVec.toNat_add]
            have : (workOf b).a.toNat ≤ 0x7FFE := by rw [BitVec.le_def] at hle; omega
            have h1 : (1 : BitVec 16).toNat = 1 := rfl
            omega
          have hys : y.source = ⟨b.source.answers.tail, b.source.bytes.tail⟩ := k5
          have hyw : Writing y.lines := by rw [k7]; exact writeByteOps_writing hr
          obtain ⟨i1, i2⟩ := ih y _ (n - 1 - 36) k1 k4 hyw (by rw [k3]; exact hB) (by rw [k3, ha]; omega) rfl (by omega)
          rw [i1, i2, hys, hv', ha, k8 hr]
          have h5 : (n + 35) / 37 = (n - 1 - 36 + 35) / 37 + 1 := by omega
          have h6 : (n + 2) / 37 = (n - 1 - 36 + 2) / 37 + 1 := by omega
          rw [h5, h6, List.take_succ_cons, writesDev, ea]
          refine ⟨rfl, ?_⟩
          simp [List.drop_tail]

theorem writeStage_cfg (v : Byte) (a : Addr) (b : State) (n : Nat) : (writeStage v a b n).cfg = b.cfg := by
  unfold writeStage
  split
  · exact (applyOps_core _ _).cfg
  · exact (applyOps_core _ _).cfg.trans (doNeedWrite_core b).cfg

theorem loopStage_cfg (m : Nat) (b : State) (n : Nat) : (loopStage m b n).cfg = b.cfg := by
  induction m generalizing b n with
  | zero => rfl
  | succ m ih =>
    unfold loopStage
    split
    · split
      · rfl
      · split
        · unfold byteStage
          split
          · rfl
          · exact writeStage_cfg _ _ _ _
        · rw [ih]; exact (doProgramByte_core _).cfg
    · rfl

theorem writeStage_end (v : Byte) (a : Addr) (b : State) :
    writeStage v a b ((needWriteTrace b).length + 35) = doWriteByte v a b := by
  unfold writeStage doWriteByte
  rw [if_neg (by omega), List.take_of_length_le]
  simp [writeByteOps_pulse, pulseHead_length]

end Sys2Proof.Laws
end

