-- ==== Sys2Proof/Laws/PerInstr.lean ====
section
/-! SUPPORT. The statements made of every command as syntax, one lemma per constructor. -/

namespace Sys2Proof.Laws.OpcodeInLowByte

open Sys2Proof

/-- The encoding carries the command's opcode in bits 7:0, and that opcode is no reserved one
(30_encoding.md R81, R83, R84). -/
def Statement (i : Instr) : Prop :=
  opField (encode i) = i.opcode ∧ i.opcode ≠ 0 ∧ i.opcode.toNat < 0x08

theorem opField_cmdWord (arg addr : BitVec 16) (data op : Byte) : opField (cmdWord arg addr data op) = op := by
  apply BitVec.eq_of_getLsbD_eq
  intro k hk
  simp only [opField, cmdWord, BitVec.getLsbD_extractLsb', BitVec.getLsbD_append, Nat.zero_add, hk, decide_true,
    Bool.true_and, if_true]

theorem setAddress (addr : Addr) : Statement (.setAddress addr) :=
  ⟨opField_cmdWord .., by simp [Instr.opcode], by simp [Instr.opcode]⟩

theorem enterWrite : Statement .enterWrite := ⟨opField_cmdWord .., by simp [Instr.opcode], by simp [Instr.opcode]⟩

theorem enterRead : Statement .enterRead := ⟨opField_cmdWord .., by simp [Instr.opcode], by simp [Instr.opcode]⟩

theorem writeByte (value : Byte) (addr : Addr) : Statement (.writeByte value addr) :=
  ⟨opField_cmdWord .., by simp [Instr.opcode], by simp [Instr.opcode]⟩

theorem readByte (addr : Addr) : Statement (.readByte addr) := ⟨opField_cmdWord .., by simp [Instr.opcode], by simp [Instr.opcode]⟩

theorem program (startAddr finalAddr : Addr) : Statement (.program startAddr finalAddr) :=
  ⟨opField_cmdWord .., by simp [Instr.opcode], by simp [Instr.opcode]⟩

theorem dump (startAddr : Addr) (lineCount : BitVec 16) : Statement (.dump startAddr lineCount) :=
  ⟨opField_cmdWord .., by simp [Instr.opcode], by simp [Instr.opcode]⟩

end Sys2Proof.Laws.OpcodeInLowByte
end

