-- ==== Sys2Proof/Tests/Slice0.lean ====
section
/-! SUPPORT. Tests: expected values from the vectors of 95_test_vectors.md, and for every statement with
hypotheses a witness that meets them all. -/

namespace Sys2Proof.Tests

open Sys2Proof Sys2Proof.Machine Sys2Proof.Safety Sys2Proof.Laws

/-! ## Helpers -/

/-- The outcome is a next state with the property. -/
def nextHas (p : State → Bool) : Host.Outcome State Fault Refusal → Bool
  | .next t => p t
  | .fault _ => false
  | .refused _ => false

/-- The outcome is the fault. -/
def faultIs (f : Fault) : Host.Outcome State Fault Refusal → Bool
  | .next _ => false
  | .fault g => f == g
  | .refused _ => false

/-- The outcome is the refusal. -/
def refusedIs (r : Refusal) : Host.Outcome State Fault Refusal → Bool
  | .next _ => false
  | .fault _ => false
  | .refused q => r == q

/-- The input is a reset. -/
def isReset (i : TimedInput) : Bool :=
  match i.act with
  | .reset _ => true
  | .write _ _ => false
  | .read _ => false
  | .setSink _ => false
  | .stall => false

/-- A next state with the inputs `later` still to come, where those before them hold no reset. -/
theorem noResetUsed_of {s : State} {o : Host.Outcome State Fault Refusal} (used later : List TimedInput)
    (hs : s.host = used ++ later) (hu : used.all (fun i => !isReset i) = true)
    (h : nextHas (fun t => t.host == later) o = true) : ∃ t, o = .next t ∧ noResetUsed s t := by
  cases o with
  | next t =>
    have ht : t.host = later := by simpa [nextHas] using h
    rw [List.all_eq_true] at hu
    exact ⟨t, rfl, used, by rw [ht]; exact hs, fun i hi c e => by have := hu i hi; simp [isReset, e] at this⟩
  | fault f => cases h
  | refused r => cases h

/-- A source that yields the bytes with no answer listed. -/
def yielding (bytes : List Byte) : ByteSource := { answers := [], bytes := bytes }

/-- ECHO text of one first chunk and then none for n places. -/
def speaking (first : List Byte) (n : Nat) : EchoText := { chunks := first :: List.replicate n [], drawn := 0 }

/-- The machine after reset, with the word as its next command. -/
def offer (w : Nat) (s : State) : State := s.withFetchWord 48 w

/-- With the inputs still to come. -/
def given (host : List TimedInput) (s : State) : State := { s with host := host }

/-- With the reference device answering, and its known bytes. -/
def withDevice (mem : Memory) (s : State) : State :=
  { s with refDevice := true, dev := { s.dev with mem := mem } }

/-- The bus in mode WRITE with the data lines at 0 (V2.1). -/
def inWrite (s : State) : State :=
  { s with mode := .write, lines := { s.lines with data := Vector.replicate 8 ⟨.output, .low⟩ } }

/-- The bus in mode READ (V3.1). -/
def inRead (s : State) : State :=
  { s with mode := .read, lines := { s.lines with oe := ⟨.output, .low⟩ } }

/-- STATUS as a number. -/
def status (t : State) : Nat := (statusByte t).toNat

/-- The codes of an ASCII text. -/
def ascii (text : String) : List Byte := text.toList.map fun c => BitVec.ofNat 8 c.toNat

/-- A configuration whose addrPin[3] and dataPin[5] are one pin (V0.2). -/
def doubled : PinConfig := { PinConfig.afterReset with addrPin := PinConfig.afterReset.addrPin.set 3 20 }

/-! ## Well-formedness. Every operand value is legal (30_encoding.md R82), so the only ill-formed term is a
configuration with two equal pin ids (10_state.md R33). -/

theorem test_doubled_pin_is_ill_formed : doubled.wellFormed = false := by decide

theorem test_distinct_pins_are_well_formed : PinConfig.afterReset.wellFormed = true := by decide

theorem test_extreme_operands_are_well_formed :
    Instr.wellFormed (.writeByte 0xFF 0xFFFF) = true ∧ Instr.wellFormed (.dump 0xFFFF 0xFFFF) = true := by decide

/-! ## Decoding, words written from the field table of 30_encoding.md R81 to R83: ARG, ADDR, DATA, OP -/

/-- V1.7. -/
theorem test_decode_setAddress :
    decode (0b0000000000000000#16 ++ 0b0001001000110100#16 ++ 0b00000000#8 ++ 0b00000001#8) =
      .ok (.setAddress 0x1234) := by decide

theorem test_decode_enterWrite :
    decode (0b1111111111111111#16 ++ 0b1010101010101010#16 ++ 0b01010101#8 ++ 0b00000010#8) = .ok .enterWrite := by
  decide

theorem test_decode_enterRead :
    decode (0b0000000000000001#16 ++ 0b1000000000000000#16 ++ 0b11111111#8 ++ 0b00000011#8) = .ok .enterRead := by
  decide

/-- V4.7: ARG is ignored. -/
theorem test_decode_writeByte :
    decode (0b1111111111111111#16 ++ 0b0000000000000001#16 ++ 0b11101010#8 ++ 0b00000100#8) =
      .ok (.writeByte 0xEA 0x0001) := by decide

/-- V5.8: ARG and DATA are ignored. -/
theorem test_decode_readByte :
    decode (0b1010101111001101#16 ++ 0b0000000000000101#16 ++ 0b01110111#8 ++ 0b00000101#8) =
      .ok (.readByte 0x0005) := by decide

/-- V6.5. -/
theorem test_decode_program :
    decode (0b1111111111111111#16 ++ 0b0111111111111100#16 ++ 0b00000000#8 ++ 0b00000110#8) =
      .ok (.program 0x7FFC 0xFFFF) := by decide

/-- V7.4. -/
theorem test_decode_dump :
    decode (0b0000000000000011#16 ++ 0b0111111111110101#16 ++ 0b00000000#8 ++ 0b00000111#8) =
      .ok (.dump 0x7FF5 3) := by decide

/-- V8.1, V8.2, V8.3, V8.12. -/
theorem test_decode_reserved :
    decode 0x000000000000 = .error (.reservedOpcode 0x00) ∧ decode 0x000000000008 = .error (.reservedOpcode 0x08) ∧
      decode 0x0000000000FF = .error (.reservedOpcode 0xFF) ∧
      decode 0x000000001081 = .error (.reservedOpcode 0x81) := by decide

/-- Bits above nbits are 0 in a word of the opcode table. -/
theorem test_table_word : decodeTableWord 8 0xFFFFFF04 = some (.writeByte 0 0) ∧
    decodeTableWord 48 0x00000001EA04 = some (.writeByte 0xEA 1) ∧ decodeTableWord 48 0x08 = none := by decide

/-! ## Reset and host registers -/

/-- V0.1: 42 events and the table of R49, from lines that were not in order. -/
theorem test_reset : nextHas (fun t => t.log.length == 42 && t.lines == Lines.afterReset && status t == 0x00)
    (step (given [⟨none, .reset PinConfig.afterReset⟩] (inWrite State.reset))) = true := by decide +kernel

/-- V0.3: a reset after event 33 of WRITE_BYTE commits the latched byte. -/
theorem test_reset_after_falling_edge : nextHas (fun t => t.dev.mem == [(0x0001, 0x22)] && status t == 0x00)
    (exec (.writeByte 0x22 0x0001) (given [⟨some 33, .reset PinConfig.afterReset⟩] (inWrite State.reset))) = true := by
  decide +kernel

/-- V0.4: one event earlier nothing is written. -/
theorem test_reset_before_falling_edge : nextHas (fun t => t.dev.mem == [] && status t == 0x00)
    (exec (.writeByte 0x22 0x0001) (given [⟨some 32, .reset PinConfig.afterReset⟩] (inWrite State.reset))) = true := by
  decide +kernel

/-- 70_reset_and_hazards.md R190: a reset that swaps the pins of WE and A[0], low before, writes nothing. -/
theorem test_reset_to_other_pins : nextHas (fun t => t.dev.mem == [] && t.lines == Lines.afterReset)
    (step (given [⟨none, .reset { PinConfig.afterReset with
      wePin := 0, addrPin := PinConfig.afterReset.addrPin.set 0 23 }⟩] State.reset)) = true := by decide +kernel

/-- R192 (a): a reset inside the write pulse that moves WE to another pin commits all the same. -/
theorem test_reset_in_pulse_to_other_pin : nextHas (fun t => t.dev.mem == [(0x0001, 0x22)])
    (exec (.writeByte 0x22 0x0001) (given [⟨some 34, .reset { PinConfig.afterReset with wePin := 40 }⟩]
      (inWrite State.reset))) = true := by decide +kernel

/-- V9.1, V9.2 and V9.8 (WRITE, NO_SINK). -/
theorem test_host_reads : readRegister 0 State.reset = 0 ∧ readRegister 3 State.reset = 0 ∧
    readRegister 1 { inWrite State.reset with last := .noSink } = 0x14 := by decide

/-- V9.5: STATUS read inside a PROGRAM from WRITE. -/
theorem test_status_inside_program : nextHas (fun t => t.reads == [(1, 0x05)])
    (exec (.program 0 0) (given [⟨some 3, .read 1⟩] { inWrite State.reset with
      source := yielding [1], echo := speaking [] 40 })) = true := by
  decide +kernel

/-- V8.1 from UNINIT: STATUS 0x08, no event. -/
theorem test_reserved_opcode : nextHas (fun t => status t == 0x08 && t.log == [] && t.result == 0)
    (step (offer 0x000000000000 State.reset)) = true := by decide +kernel

/-! ## Commands -/

/-- V1.8: address 0x8001 asserts 000000000000001, in 15 events. -/
theorem test_setAddress_truncates : nextHas (fun t => t.log.length == 15 && status t == 0x00 &&
      t.lines.addr == (Vector.replicate 15 ⟨.output, .low⟩).set 0 ⟨.output, .high⟩)
    (step (offer 0x000080010001 State.reset)) = true := by decide +kernel

/-- V1.5: the first event is Drv(A[0], 1), the second Drv(A[1], 0), the last Drv(A[14], 1). -/
theorem test_setAddress_order : nextHas (fun t => (traceOf t).take 2 == [.drv 0 true, .drv 1 false] &&
      t.log.head? == some (.drv 14 true))
    (step (offer 0x000055550001 State.reset)) = true := by decide +kernel

/-- V2.1. -/
theorem test_enterWrite : nextHas (fun t => status t == 0x04 && t.log.length == 17 &&
      (traceOf t).take 2 == [.dir 15 .output, .drv 15 false] && t.log.head? == some (.drv 24 true) &&
      t.lines.data == Vector.replicate 8 ⟨.output, .low⟩)
    (step (offer 0x000000000002 State.reset)) = true := by decide +kernel

/-- V2.3: the data lines go back to 0 after WRITE_BYTE 0xFF. -/
theorem test_enterWrite_again : nextHas (fun t => t.lines.data == Vector.replicate 8 ⟨.output, .low⟩)
    (execAll [.writeByte 0xFF 0x0000, .enterWrite] (inWrite State.reset)) = true := by decide +kernel

/-- V3.1. -/
theorem test_enterRead : nextHas (fun t => status t == 0x02 && t.log.length == 10 &&
      t.log.head? == some (.dly 5) && t.lines.oe == ⟨.output, .low⟩)
    (step (offer 0x000000000003 { State.reset with params := { State.reset.params with oeSettleUs := 5 } })) = true := by
  decide +kernel

/-- V3.2: the output latches are kept. -/
theorem test_enterRead_keeps_latches : nextHas (fun t => t.lines.data[0] == ⟨.input, .high⟩ &&
      t.lines.data[1] == ⟨.input, .low⟩)
    (execAll [.writeByte 0xA5 0x0000, .enterRead] (inWrite State.reset)) = true := by decide +kernel

/-- The data events of V4.1, with T = 7. -/
def dataEvents : List Event :=
  [.drv 15 true, .dly 7, .drv 16 true, .dly 7, .drv 17 true, .dly 7, .drv 18 false, .dly 7,
    .drv 19 true, .dly 7, .drv 20 false, .dly 7, .drv 21 true, .dly 7, .drv 22 false, .dly 7]

/-- The address and pulse events of V4.1. -/
def pulseEvents : List Event :=
  [.drv 23 true, .drv 0 true, .drv 1 false, .drv 2 false, .drv 3 false, .drv 4 false, .drv 5 false,
    .drv 6 false, .drv 7 false, .drv 8 false, .drv 9 false, .drv 10 false, .drv 11 false, .drv 12 false,
    .drv 13 false, .drv 14 false, .drv 23 false, .dly 7, .drv 23 true]

/-- V4.1: the 35 events of WRITE_BYTE 0xEA, 0x0001, with T = 7. -/
theorem test_writeByte_trace : nextHas (fun t => traceOf t == dataEvents ++ pulseEvents)
    (step (offer 0x00000001EA04 (inWrite { State.reset with cfg := { State.reset.cfg with tBit := 7 } }))) = true := by
  decide +kernel

/-- P2, step 3: 0x3C at 0x8005, from READ, 52 events. -/
theorem test_writeByte_stores : nextHas (fun t => t.dev.mem == [(0x0005, 0x3C)] && status t == 0x04 &&
      t.log.length == 52)
    (step (offer 0x000080053C04 (withDevice [(0x0005, 0xA5)] (inRead State.reset)))) = true := by decide +kernel

/-- V5.2: right after reset, with DevMem[5] = 0xA5: 146 events, RESULT 0x1A5. -/
theorem test_readByte_device : nextHas (fun t => t.result == 0x1A5 && status t == 0x02 && t.log.length == 146)
    (step (offer 0x000000050005 (withDevice [(0x0005, 0xA5)] State.reset))) = true := by decide +kernel

/-- V5.6: without a sink from WRITE, nothing but STATUS 0x14 and RESULT 0. -/
theorem test_readByte_without_sink : nextHas (fun t => t.result == 0 && status t == 0x14 && t.log == [] &&
      t.lines.data == Vector.replicate 8 ⟨.output, .low⟩)
    (step (offer 0x000000000005 (inWrite { State.reset with sinkAvail := false, result := 0x1A5 }))) = true := by
  decide +kernel

/-- V5.1: the samples 0,0,1,1,1,1,0,0 spell 0x3C. -/
theorem test_accumulate : [false, false, true, true, true, true, false, false].foldl accumulate 0 = 0x3C := by decide

/-- L1.7 (V6.1): four bytes, 165 events, no fifth query. -/
theorem test_program : nextHas (fun t => t.log.length == 165 && t.dev.mem == [(0, 0xEA), (1, 0x4C), (2, 0), (3, 0x80)] &&
      status t == 0x04 && t.source == yielding [0x55])
    (step (offer 0x000300000006
      { State.reset with source := yielding [0xEA, 0x4C, 0x00, 0x80, 0x55], echo := speaking [] 166 })) = true := by
  decide +kernel

/-- V6.1 with free ECHO text: what does not depend on the text. -/
theorem test_program_free_text : nextHas (fun t => t.dev.mem == [(0, 0xEA)] && status t == 0x04 &&
      t.source == yielding [])
    (step (offer 0x000000000006 { State.reset with source := yielding [0xEA] })) = true := by decide +kernel

/-- 60_exceptions.md R178: a source may answer false although a byte is left; no byte is used up. -/
theorem test_source_answers_false : nextHas (fun t => traceOf t == [.srcQ false] && t.source == yielding [1])
    (exec (.program 0 0) (inWrite { State.reset with
      sinkAvail := false, source := { answers := [false], bytes := [1] } })) = true := by decide +kernel

/-- R178: a query that answered true does not bind the next one: a reset falls before `SrcRead()`, and the next
PROGRAM's query answers false. -/
theorem test_source_after_abandoned_read : nextHas (fun t => t.log.head? == some (.srcQ false) &&
      (traceOf t).head? == some (.srcQ true) && t.source == yielding [1])
    (execAll [.program 0 0, .program 0 0] (given [⟨some 1, .reset PinConfig.afterReset⟩] (inWrite { State.reset with
      sinkAvail := false, source := { answers := [true, false], bytes := [1] } }))) = true := by decide +kernel

/-- 70_reset_and_hazards.md R192 (c): a reset inside PROGRAM, before and after the first byte's read (events 1, 2)
and falling edge (34, 35), and after the second's (72). -/
theorem test_reset_inside_program : ∀ x ∈ [(1, 2, []), (2, 1, []), (34, 1, []), (35, 1, [(5, 0xEA)]),
      (72, 0, [(5, 0xEA), (6, 0x4C)])],
    nextHas (fun t => t.source.bytes.length == x.2.1 && t.dev.mem == x.2.2 && t.log.length == x.1 + 42)
      (exec (.program 5 9) (given [⟨some x.1, .reset PinConfig.afterReset⟩] (inWrite { State.reset with
        sinkAvail := false, source := yielding [0xEA, 0x4C] }))) = true := by decide +kernel

/-- V6.3 with ECHO text before the first event: the source ends early, 75 events besides the text. -/
theorem test_program_short_source : nextHas (fun t => (nonTextTrace t).length == 75 && textOf t == [0x68, 0x69] &&
      (nonTextTrace t).getLast? == some (.srcQ false) && status t == 0x04)
    (step (offer 0x000300000006 (inWrite { State.reset with
      source := yielding [0x11, 0x22], echo := speaking [0x68, 0x69] 80 }))) = true := by decide +kernel

/-- V7.12: the cut row at 0x7FF0 has the bytes F0 to FE, 50 characters; L1.5: where the reads end. -/
theorem test_dump_cut_row :
    (dumpTrace State.reset.params State.reset.cfg 0x7FF0
      ((List.range (dumpCount 0x7FF0 3)).map fun i => BitVec.ofNat 8 (0xF0 + i))).filterMap outChar =
        ascii "7FF0 F0 F1 F2 F3 F4 F5 F6 F7  F8 F9 FA FB FC FD FE" ∧
      dumpCount 0x7FFF 1 = 15 ∧ dumpCount 0x8000 1 = 0 ∧ dumpCount 0x0007 1 = 16 ∧
      dumpCount 0x0000 0xFFFF = 32767 := by decide +kernel

/-- V7.7: no sink, no event, STATUS 0x10. -/
theorem test_dump_without_sink : nextHas (fun t => t.log == [] && status t == 0x10)
    (step (offer 0x000100000007 { State.reset with sinkAvail := false })) = true := by decide +kernel

/-- V7.11: the text before and after the first byte, and after the 8th and 16th (41_programmer.md R150). -/
theorem test_dump_text : textBefore true 0x0000 = ascii "0000" ∧ textAfter true [0x0A] 0x0000 0xAB = ascii " AB" ∧
    textAfter true [0x0A] 0x0007 0x07 = ascii " 07 " ∧ textAfter true [0x0A] 0x000F 0x0F = ascii " 0F\n" := by decide

/-! ## Witnesses: for every statement with hypotheses, terms that meet them all -/

/-- The bus invariant of a concrete state in mode WRITE. -/
theorem busInv_write (source : ByteSource) (host : List TimedInput) (echo : EchoText) :
    BusInv { inWrite (withDevice [(3, 7)] State.reset) with source := source, host := host, echo := echo } where
  pins := by show PinConfig.afterReset.wellFormed = true; decide
  idle := ⟨rfl, rfl, rfl, rfl⟩
  we := rfl
  oeDir := rfl
  addr := by
    show ∀ k : Fin 15, (Vector.replicate 15 (⟨.output, .low⟩ : Line))[k].dir = .output ∧
      (Vector.replicate 15 (⟨.output, .low⟩ : Line))[k].out ≠ .unknown
    decide
  uninit := fun h => by cases h
  read := fun h => by cases h
  write := fun _ => by
    refine ⟨rfl, ?_⟩
    show ∀ p : Fin 8, (Vector.replicate 8 (⟨.output, .low⟩ : Line))[p].dir = .output ∧
      (Vector.replicate 8 (⟨.output, .low⟩ : Line))[p].out ≠ .unknown
    decide
  result := fun _ => rfl
  valid := fun _ => rfl
  mem := by show Memory.wf [(3, 7)]; decide

/-- The bus invariant of a concrete state in mode READ. -/
theorem busInv_read (host : List TimedInput) : BusInv (given host (inRead (withDevice [(3, 7)] State.reset))) where
  pins := by show PinConfig.afterReset.wellFormed = true; decide
  idle := ⟨rfl, rfl, rfl, rfl⟩
  we := rfl
  oeDir := rfl
  addr := by
    show ∀ k : Fin 15, (Vector.replicate 15 (⟨.output, .low⟩ : Line))[k].dir = .output ∧
      (Vector.replicate 15 (⟨.output, .low⟩ : Line))[k].out ≠ .unknown
    decide
  uninit := fun h => by cases h
  read := fun _ => by
    refine ⟨rfl, ?_⟩
    show ∀ p : Fin 8, (Vector.replicate 8 (⟨.input, .unknown⟩ : Line))[p].dir = .input
    decide
  write := fun h => by cases h
  result := fun _ => rfl
  valid := fun _ => rfl
  mem := by show Memory.wf [(3, 7)]; decide

theorem witness_DecodeOfEncodeIsTheCommand : Instr.wellFormed (.program 0xFFFF 0x8000) = true := rfl

/-- Both ways of the equivalence are met: a word with ignored bits set, and an ill one. -/
theorem witness_WordDecodesByTheBitsRead :
    (0xABCD00057705 : CmdWord) &&& readMask (.readByte 0x0005) = encode (.readByte 0x0005) ∧
      (0xABCD00057706 : CmdWord) &&& readMask (.readByte 0x0005) ≠ encode (.readByte 0x0005) := by decide

/-- The boundaries of the reserved opcodes: 0x00 and 0x08 are, 0x01 and 0x07 are not. -/
theorem witness_ReservedOpcodesAreRejected : opField 0x00 = 0 ∧ 0x08 ≤ (opField 0x08).toNat ∧
    ¬ (opField 0x01 = 0 ∨ 0x08 ≤ (opField 0x01).toNat) ∧ ¬ (opField 0x07 = 0 ∨ 0x08 ≤ (opField 0x07).toNat) := by
  decide

theorem witness_StepRunsTheDecodedCommand :
    (given [⟨none, .write 0 0x02⟩] State.reset).busy = false ∧
      (given [⟨none, .write 0 0x02⟩] State.reset).host = ⟨none, .write 0 0x02⟩ :: [] ∧ decode 0x02 = .ok .enterWrite ∧
      decodeTableWord 48 0xFFFFFFFFFF01 = some (.setAddress 0xFFFF) := by decide

theorem witness_ReservedOpcodeFinishesIllegal :
    (given [⟨none, .write 0 0x08⟩] State.reset).busy = false ∧
      (given [⟨none, .write 0 0x08⟩] State.reset).host = ⟨none, .write 0 0x08⟩ :: [] ∧
      quiet (given [] State.reset) = true ∧ (opField 0x08 = 0 ∨ 0x08 ≤ (opField 0x08).toNat) ∧
      (opField 0x00 = 0 ∨ 0x08 ≤ (opField 0x00).toNat) := by decide

theorem witness_IdleBlockKeepsItsState : State.reset.host = [] := rfl

/-- One register number for each clause: STATUS, RESULT, CMD and the first number without a register. -/
theorem witness_HostRegistersReadAndIgnoreWrites :
    (∀ reg ∈ [0, 1, 2, 3], (given [⟨none, .read reg⟩] State.reset).host = ⟨none, .read reg⟩ :: []) ∧
      ∀ reg ∈ [1, 2, 3], reg ≠ 0 ∧ (given [⟨none, .write reg 0xFF⟩] State.reset).host = ⟨none, .write reg 0xFF⟩ :: [] :=
  ⟨fun _ _ => rfl, fun reg h => ⟨by revert h; revert reg; decide, rfl⟩⟩

/-- A busy block, and for the timed input the first boundary of ENTER_WRITE, its last, 17, and one it does not
reach. -/
theorem witness_CmdWriteWhileBusyIsAHostFault :
    ({ given [⟨none, .write 0 0x02⟩] State.reset with busy := true } : State).busy = true ∧
      ({ given [⟨none, .write 0 0x02⟩] State.reset with busy := true } : State).host = ⟨none, .write 0 0x02⟩ :: [] ∧
      (∀ k ∈ [0, 17], faultIs .cmdWriteWhileBusy
        (exec .enterWrite (given [⟨some k, .write 0 0x02⟩] State.reset)) = true) ∧
      nextHas (fun t => t.log.length == 17 && t.host.length == 1)
        (exec .enterWrite (given [⟨some 18, .write 0 0x02⟩] State.reset)) = true := by decide +kernel

/-- The same boundaries for a change of the sink level. -/
theorem witness_SinkChangeWhileBusyIsAHostFault :
    ({ given [⟨none, .setSink false⟩] State.reset with busy := true } : State).busy = true ∧
      false ≠ State.reset.sinkAvail ∧
      ({ given [⟨none, .setSink false⟩] State.reset with busy := true } : State).host = ⟨none, .setSink false⟩ :: [] ∧
      (∀ k ∈ [0, 17], faultIs .sinkChangeWhileBusy
        (exec .enterWrite (given [⟨some k, .setSink false⟩] State.reset)) = true) ∧
      nextHas (fun t => t.log.length == 17 && t.host.length == 1)
        (exec .enterWrite (given [⟨some 18, .setSink false⟩] State.reset)) = true := by decide +kernel

theorem witness_HostSetsTheSinkBetweenCommands :
    (given [⟨none, .setSink false⟩] State.reset).busy = false ∧
      (given [⟨none, .setSink false⟩] State.reset).host = ⟨none, .setSink false⟩ :: [] := by decide

/-- A STATUS read falls inside this ENTER_WRITE. -/
theorem witness_StatusReadsInsideACommandShowBusy :
    nextHas (fun t => t.reads == [(1, 1)]) (exec .enterWrite (given [⟨some 4, .read 1⟩] State.reset)) = true := by
  decide +kernel

theorem witness_DuplicatePinIdsAreRefused : ¬ doubled.pins.Nodup ∧
    (given [⟨none, .reset doubled⟩] State.reset).host = ⟨none, .reset doubled⟩ :: [] ∧
    (∀ k ∈ [0, 17], refusedIs .duplicatePinIds
      (exec .enterWrite (given [⟨some k, .reset doubled⟩] State.reset)) = true) ∧
    nextHas (fun t => t.log.length == 17 && t.host.length == 1)
      (exec .enterWrite (given [⟨some 18, .reset doubled⟩] State.reset)) = true := by decide +kernel

theorem witness_ResetRunsItsSequence : PinConfig.afterReset.pins.Nodup ∧
    (given [⟨none, .reset PinConfig.afterReset⟩, ⟨none, .read 1⟩] State.reset).host =
      ⟨none, .reset PinConfig.afterReset⟩ :: [⟨none, .read 1⟩] ∧
    quiet (given [⟨none, .read 1⟩] State.reset) = true ∧
    (given [⟨none, .reset PinConfig.afterReset⟩] (inRead State.reset)).lines.we.out = .high :=
  ⟨by decide, rfl, rfl, rfl⟩

/-- A reset before the first event of ENTER_WRITE, at its last boundary, 17, and timed after it. -/
theorem witness_ResetInsideACommandAbandonsIt : PinConfig.afterReset.pins.Nodup ∧ quiet (given [] State.reset) = true ∧
    (∀ k ∈ [0, 17], nextHas (fun t => t.mode == .uninit && t.log.length == k + 42)
      (exec .enterWrite (given [⟨some k, .reset PinConfig.afterReset⟩] State.reset)) = true) ∧
    nextHas (fun t => t.mode == .write && t.log.length == 17)
      (exec .enterWrite (given [⟨some 18, .reset PinConfig.afterReset⟩] State.reset)) = true := by decide +kernel

/-- Each side of the falling edge, the last boundary and one after it: from WRITE and from READ. -/
theorem witness_ResetInsideWriteByteCommitsAfterTheFallingEdge :
    (∀ k ∈ [32, 33, 35, 36], BusInv { inWrite (withDevice [(3, 7)] State.reset) with
      source := yielding [], host := [⟨some k, .reset PinConfig.afterReset⟩] }) ∧
    (∀ k ∈ [49, 50, 52, 53],
      BusInv (given [⟨some k, .reset PinConfig.afterReset⟩] (inRead (withDevice [(3, 7)] State.reset)))) ∧
    ∀ x ∈ [(49, 0), (50, 1), (53, 1)], nextHas (fun t => t.dev.mem.length == x.2 && t.host.length == x.1 / 53)
      (exec (.writeByte 0x22 0x0001) (given [⟨some x.1, .reset PinConfig.afterReset⟩] (inRead State.reset))) = true :=
  ⟨fun _ _ => busInv_write _ _ _, fun _ _ => busInv_read _, by decide +kernel⟩

/-- PROGRAM of two bytes from WRITE, whose 75 events end with a query that answers false. -/
theorem witness_ResetInsideProgramKeepsWhatItWrote :
    (∀ k ∈ [0, 34, 35, 75, 76], BusInv { inWrite (withDevice [(3, 7)] State.reset) with
      source := yielding [1, 2], host := [⟨some k, .reset PinConfig.afterReset⟩] }) ∧
    3 = min (7 : Addr).toNat 0x7FFE + 1 - (5 : Addr).toNat ∧ [1, 2] = (sourceBytes (yielding [1, 2])).take 3 ∧
    (needWriteTrace (inWrite State.reset) ++ (programTrace State.reset.cfg 5 [1, 2] ++ [Event.srcQ false])).length = 75 :=
  ⟨fun _ _ => busInv_write _ _ _, by decide, by decide, by decide +kernel⟩

theorem witness_quiet : quiet State.reset = true ∧ quiet (given [⟨none, .read 1⟩] State.reset) = true := by decide

/-- The hypotheses of SetAddressDrivesTheAddressLines, EnterWriteConfiguresTheBus, EnterWriteTwiceIsEnterWriteOnce,
EnterReadConfiguresTheBus, WriteByteDrivesByteAndAddress, BusDriverEventCounts, EveryCommandEndsWithinItsBound,
EchoTextChangesNothingElse and ControlFlowIgnoresDeviceData: a quiet state, in each mode. -/
theorem witness_quiet_in_each_mode : quiet (inWrite State.reset) = true ∧ quiet (inRead State.reset) = true := by
  decide

/-- Both with data lines that are outputs in WRITE, and in another mode. -/
theorem witness_WriteByteStoresAtItsLocation : quiet State.reset = true ∧ State.reset.lines.we.out = .high ∧
    (inWrite State.reset).lines.we.out = .high ∧ (∀ p : Fin 8, (inWrite State.reset).lines.data[p].dir = .output) := by
  refine ⟨rfl, rfl, rfl, ?_⟩
  show ∀ p : Fin 8, (Vector.replicate 8 (⟨.output, .low⟩ : Line))[p].dir = .output
  decide

theorem witness_ReadByteWithoutSinkTouchesNothing :
    quiet ({ State.reset with sinkAvail := false } : State) = true ∧
      ({ State.reset with sinkAvail := false } : State).sinkAvail = false := ⟨rfl, rfl⟩

theorem witness_ReadByteReturnsItsSamples : quiet State.reset = true ∧ State.reset.sinkAvail = true := ⟨rfl, rfl⟩

theorem witness_ReadByteSamplesAreTheBanksAnswers :
    ({ State.reset with samples := [true, false, true, false, false, true, false, true, true] } : State).samples =
      [(0xA5 : Byte).getLsbD 7, (0xA5 : Byte).getLsbD 6, (0xA5 : Byte).getLsbD 5, (0xA5 : Byte).getLsbD 4,
        (0xA5 : Byte).getLsbD 3, (0xA5 : Byte).getLsbD 2, (0xA5 : Byte).getLsbD 1, (0xA5 : Byte).getLsbD 0] ++ [true] ∧
      State.reset.refDevice = false := by decide

theorem witness_ReadByteReadsTheDevice : BusInv (inRead (withDevice [(3, 7)] State.reset)) ∧
    quiet (inRead (withDevice [(3, 7)] State.reset)) = true ∧
    (inRead (withDevice [(3, 7)] State.reset)).sinkAvail = true ∧
    (inRead (withDevice [(3, 7)] State.reset)).refDevice = true := ⟨busInv_read [], rfl, rfl, rfl⟩

/-- With b = a and with b = a ^ 0x8000; the same state serves WrittenByteReadsBack and DumpPrintsTheDevice. -/
theorem witness_WrittenByteReadsBack :
    BusInv { inWrite (withDevice [(3, 7)] State.reset) with source := yielding [], host := [] } ∧
      ({ inWrite (withDevice [(3, 7)] State.reset) with source := yielding [], host := [] } : State).refDevice = true ∧
      (0x8005 : Addr) = 0x0005 ^^^ 0x8000 ∧ (0 : Nat) = (0x0007 : Addr).toNat / 16 * 16 :=
  ⟨busInv_write _ _ _, rfl, by decide, by decide⟩

/-- A source whose bytes end early, one that answers false early, one that is longer than the span, and an empty
span. -/
theorem witness_ProgramWritesTheSourceInOrder :
    [(1 : Byte), 2] = (sourceBytes (yielding [1, 2])).take 4 ∧
      4 = min (0x0003 : Addr).toNat 0x7FFE + 1 - (0 : Addr).toNat ∧
      [(1 : Byte)] = (sourceBytes { answers := [true, false], bytes := [1, 2] }).take 4 ∧
      [(1 : Byte)] = (sourceBytes (yielding [1, 2])).take 1 ∧
      1 = min (0xFFFF : Addr).toNat 0x7FFE + 1 - (0x7FFE : Addr).toNat ∧
      ([] : List Byte) = (sourceBytes (yielding [1])).take 0 ∧
      0 = min (0x8005 : Addr).toNat 0x7FFE + 1 - (0x8000 : Addr).toNat := by
  decide

/-- The last byte of a list, for the clause on it. -/
theorem witness_ProgramLeavesTheLinesOfItsLastWrite :
    quiet ({ State.reset with source := yielding [1, 2] } : State) = true ∧
      (sourceBytes (yielding [1, 2])).take 4 = [1] ++ [(2 : Byte)] := by decide

/-- The hypotheses of ProgramStoresItsBytes and ProgramIsItsWriteBytes. -/
theorem witness_ProgramStoresItsBytes :
    BusInv { inWrite (withDevice [(3, 7)] State.reset) with source := yielding [1, 2], host := [] } ∧
      quiet ({ inWrite (withDevice [(3, 7)] State.reset) with source := yielding [1, 2], host := [] } : State) = true ∧
      [(1 : Byte), 2] = (sourceBytes (yielding [1, 2])).take (min (0x0003 : Addr).toNat 0x7FFE + 1 - (0 : Addr).toNat) :=
  ⟨busInv_write _ _ _, rfl, by decide⟩

/-- A host read falls inside the next command, and a reset waits for a later step. -/
def withRead : State :=
  { inWrite (withDevice [(3, 7)] State.reset) with
    source := yielding [1], host := [⟨some 2, .read 1⟩, ⟨none, .reset PinConfig.afterReset⟩], echo := speaking [] 40 }

theorem witness_ProgramStaysInsideItsBounds :
    BusInv withRead ∧ (∃ t, exec (.program 2 2) withRead = .next t ∧ noResetUsed withRead t) ∧
      1 < (2 : Addr).toNat ∧ min (2 : Addr).toNat 0x7FFE < 0x7FFF :=
  ⟨busInv_write _ _ _, noResetUsed_of [⟨some 2, .read 1⟩] [⟨none, .reset PinConfig.afterReset⟩] rfl rfl (by decide +kernel), by decide, by decide⟩

/-- The hypotheses of ProgramWithoutSinkEmitsNoText and DumpWithoutSinkTouchesNothing. -/
theorem witness_without_sink : quiet (inWrite { State.reset with sinkAvail := false }) = true ∧
    (inWrite { State.reset with sinkAvail := false }).sinkAvail = false := ⟨rfl, rfl⟩

/-- The hypotheses of DumpReadsRowsInOrder and DumpIsItsReadBytes, at a start inside a row, at the last row and
beyond the address space. -/
theorem witness_DumpReadsRowsInOrder : quiet State.reset = true ∧ State.reset.sinkAvail = true ∧
    0 = (0x0007 : Addr).toNat / 16 * 16 ∧ 0x7FF0 = (0x7FFF : Addr).toNat / 16 * 16 ∧
    0xFFF0 = (0xFFFF : Addr).toNat / 16 * 16 := by decide

/-- The hypotheses of CompleteRowText, at the first and the last complete row, and of CutRowText. -/
theorem witness_CompleteRowText : 0 % 16 = 0 ∧ 0 < 0x7FF0 ∧ 0x7FE0 % 16 = 0 ∧ 0x7FE0 < 0x7FF0 ∧
    (List.replicate 8 (0 : Byte)).length = 8 ∧ (List.replicate 7 (0 : Byte)).length = 7 := by decide

theorem witness_ProgramThenDumpRoundTrip :
    BusInv { inWrite (withDevice [(3, 7)] State.reset) with source := { answers := [true], bytes := [1, 2, 9] }, host := [] } ∧
      ([1, 2, 9] : List Byte) = [(1 : Byte), 2] ++ [9] ∧
      (∀ b ∈ [true].take [(1 : Byte), 2].length, b = true) ∧
      1 ≤ [(1 : Byte), 2].length ∧ [(1 : Byte), 2].length ≤ 0x7FFF :=
  ⟨busInv_write _ _ _, rfl, by decide, by decide, by decide⟩

theorem witness_DelaySums : quiet State.reset = true ∧ State.reset.sinkAvail = true := ⟨rfl, rfl⟩

/-- A WRITE_BYTE with a host read inside it takes the step. -/
theorem witness_StepKeepsTheBusInvariant :
    BusInv { inWrite (withDevice [(3, 7)] State.reset) with
        source := yielding [], host := [⟨none, .write 0 0x00000001EA04⟩, ⟨some 9, .read 1⟩] } ∧
      nextHas (fun t => t.reads == [(1, 5)]) (step { inWrite (withDevice [(3, 7)] State.reset) with
        source := yielding [], host := [⟨none, .write 0 0x00000001EA04⟩, ⟨some 9, .read 1⟩] }) = true :=
  ⟨busInv_write _ _ _, by decide +kernel⟩

/-- A command with the word, a host read inside it, and a reset that waits for a later step. -/
def beforeReset (w : CmdWord) : State :=
  given [⟨none, .write 0 w⟩, ⟨some 0, .read 1⟩, ⟨none, .reset PinConfig.afterReset⟩]
    { State.reset with samples := List.replicate 8 true }

/-- The step uses up the command and the read. -/
theorem beforeReset_used (w : CmdWord) (h : nextHas (fun t => t.host == [⟨none, .reset PinConfig.afterReset⟩]) (step (beforeReset w)) = true) :
    ∃ t, step (beforeReset w) = .next t ∧ noResetUsed (beforeReset w) t :=
  noResetUsed_of [⟨none, .write 0 w⟩, ⟨some 0, .read 1⟩] [⟨none, .reset PinConfig.afterReset⟩] rfl rfl h

/-- SET_ADDRESS in UNINIT leaves UNINIT, although a reset waits; a reset from WRITE leads to UNINIT and is used up. -/
theorem witness_ModeFollowsItsStateMachine :
    (∃ t, step (beforeReset 0x01) = .next t ∧ noResetUsed (beforeReset 0x01) t) ∧
      nextHas (fun t => t.mode == .uninit) (step (beforeReset 0x01)) = true ∧
      nextHas (fun t => t.mode == .uninit && t.host == [])
        (step (given [⟨none, .reset PinConfig.afterReset⟩] (inWrite State.reset))) = true :=
  ⟨beforeReset_used 0x01 (by decide +kernel), by decide +kernel, by decide +kernel⟩

/-- A READ_BYTE with a sink and a reserved word, each before a reset that waits. -/
theorem witness_EveryCommandFinishesWithItsStatus :
    (beforeReset 0x05).host =
        ⟨none, .write 0 0x05⟩ :: [⟨some 0, .read 1⟩, ⟨none, .reset PinConfig.afterReset⟩] ∧
      (∃ t, step (beforeReset 0x05) = .next t ∧ noResetUsed (beforeReset 0x05) t) ∧
      (∃ t, step (beforeReset 0x00) = .next t ∧ noResetUsed (beforeReset 0x00) t) ∧
      nextHas (fun t => t.result.getLsbD 8 && t.last == .ok) (step (beforeReset 0x05)) = true ∧
      nextHas (fun t => t.last == .illegal) (step (beforeReset 0x00)) = true :=
  ⟨rfl, beforeReset_used 0x05 (by decide +kernel), beforeReset_used 0x00 (by decide +kernel), by decide +kernel,
    by decide +kernel⟩

/-- A reset changes the configuration; where it waits for a later step, a step keeps it. -/
theorem witness_ConfigurationIsImmutable :
    nextHas (fun t => t.cfg.tBit == 9)
      (step (given [⟨none, .reset { PinConfig.afterReset with tBit := 9 }⟩] State.reset)) = true ∧
    nextHas (fun t => t.cfg.tBit == 0) (step (beforeReset 0x02)) = true ∧
    ∃ t, step (beforeReset 0x02) = .next t ∧ noResetUsed (beforeReset 0x02) t :=
  ⟨by decide +kernel, by decide +kernel, beforeReset_used 0x02 (by decide +kernel)⟩

theorem witness_SinkDoesNotGateTheOtherCommands : quiet State.reset = true ∧
    ((∃ a, (Instr.writeByte 1 2) = .setAddress a) ∨ (Instr.writeByte 1 2) = .enterWrite ∨
      (Instr.writeByte 1 2) = .enterRead ∨ ∃ v a, (Instr.writeByte 1 2) = .writeByte v a) :=
  ⟨rfl, .inr (.inr (.inr ⟨1, 2, rfl⟩))⟩

end Sys2Proof.Tests
end

/-! ## Host registers and the Bus Mode (10_state.md R36, R38, R42) -/

namespace Sys2Proof.Proofs

open Sys2Proof Sys2Proof.Machine Sys2Proof.Safety Sys2Proof.Laws

/-! ### What a step does with one input -/

/-- A step with an input to come admits that input. -/
theorem step_of_host {s : State} {j : TimedInput} {rest : List TimedInput} (h : s.host = j :: rest) :
    step s = admitInput j.act { s with host := rest } := by
  simp only [step, admitNext, h]

/-- A host read records what the register holds and uses up the input. -/
theorem step_read {s : State} {after : Option Nat} {reg : Nat} {rest : List TimedInput}
    (h : s.host = ⟨after, .read reg⟩ :: rest) :
    step s = .next { s with host := rest, reads := (reg, readRegister reg s) :: s.reads } := by
  have hr : readRegister reg { s with host := rest } = readRegister reg s := readRegister_block rfl reg
  rw [step_of_host h, ← hr]
  rfl

/-- A host write to a register other than CMD only uses up the input (R38). -/
theorem step_write_ignored {s : State} {after : Option Nat} {reg : Nat} {w : CmdWord} {rest : List TimedInput}
    (hreg : reg ≠ 0) (h : s.host = ⟨after, .write reg w⟩ :: rest) : step s = .next { s with host := rest } := by
  obtain ⟨n, rfl⟩ := Nat.exists_eq_succ_of_ne_zero hreg
  exact step_of_host h

/-- A host reset runs `resetMachine`. -/
theorem step_reset {s : State} {after : Option Nat} {c : PinConfig} {rest : List TimedInput}
    (h : s.host = ⟨after, .reset c⟩ :: rest) : step s = resetMachine c { s with host := rest } :=
  step_of_host h

/-! ### Register values -/

/-- The value of two fields side by side. -/
theorem toNat_append_eq_add {m n : Nat} (x : BitVec m) (y : BitVec n) :
    (x ++ y).toNat = x.toNat * 2 ^ n + y.toNat := by
  rw [BitVec.toNat_append, ← Nat.shiftLeft_add_eq_or_of_lt y.isLt, Nat.shiftLeft_eq]

/-- STATUS as a number: BUSY + 2·MODE + 8·LAST, with bits 7:6 zero (R42). -/
theorem statusByte_toNat (s : State) :
    (statusByte s).toNat = s.busy.toNat + 2 * s.mode.code.toNat + 8 * s.last.code.toNat := by
  have hreserved : (0 : BitVec 2).toNat = 0 := rfl
  simp only [statusByte, toNat_append_eq_add, BitVec.toNat_ofBool, hreserved]
  omega

theorem readRegister_status (s : State) : (readRegister 1 s).toNat = (statusByte s).toNat :=
  BitVec.toNat_setWidth_of_le (by decide)

theorem readRegister_result (s : State) : (readRegister 2 s).toNat = s.result.toNat :=
  BitVec.toNat_setWidth_of_le (by decide)

/-- CMD and every number from 3 up read as 0 (R38). -/
theorem readRegister_other {reg : Nat} (h1 : reg ≠ 1) (h2 : reg ≠ 2) (s : State) : readRegister reg s = 0 := by
  unfold readRegister
  split
  · exact absurd rfl h1
  · exact absurd rfl h2
  · rfl

/-- Settles O8: a read records `readRegister`, and `admitInput` has no effect for a write to a number from 1 up. -/
theorem hostRegistersReadAndIgnoreWrites : Obligations.HostRegistersReadAndIgnoreWrites := by
  intro s reg after rest
  refine ⟨fun h => ⟨readRegister reg s, step_read h, ?_, ?_, fun h1 h2 => readRegister_other h1 h2 s⟩,
    fun w hreg h => step_write_ignored hreg h⟩
  · rintro rfl
    rw [readRegister_status, statusByte_toNat]
    congr 2
    · cases s.busy <;> rfl
    · cases s.mode <;> rfl
    · cases s.last <;> rfl
  · rintro rfl
    exact readRegister_result s

/-! ### The mode each procedure leaves -/

@[simp] theorem doWriteByte_mode (v : Byte) (a : Addr) (b : State) : (doWriteByte v a b).mode = .write :=
  (applyOps_mode _ _).trans (doNeedWrite_mode b)

@[simp] theorem doReadByte_mode (a : Addr) (b : State) : (doReadByte a b).mode = .read :=
  (doReadByte_fields a b).1

@[simp] theorem doProgramByte_mode (b : State) : (doProgramByte b).mode = .write :=
  doWriteByte_mode (srcNext b) (workOf b).a (doRead b)

@[simp] theorem doDumpByte_mode (b : State) : (doDumpByte b).mode = .read :=
  doReadByte_mode (workOf b).a (setColumn (workOf b).a b)

/-- PROGRAM's loop stays in mode WRITE, however many turns it takes. -/
theorem doProgramLoop_mode (n : Nat) {b : State} (h : b.mode = .write) : (doProgramLoop n b).mode = .write := by
  induction n generalizing b with
  | zero => exact h
  | succ n ih =>
    unfold doProgramLoop
    split
    · split
      · exact ih (doProgramByte_mode _)
      · exact h
    · exact h

/-- DUMP's loop stays in mode READ, however many turns it takes. -/
theorem doDumpLoop_mode (n : Nat) {b : State} (h : b.mode = .read) : (doDumpLoop n b).mode = .read := by
  induction n generalizing b with
  | zero => exact h
  | succ n ih =>
    unfold doDumpLoop
    split
    · exact ih (doDumpByte_mode _)
    · exact h

/-- Every command's effect on the mode is its row of the table of R36. -/
theorem effectOf_mode (i : Instr) {b s : State} (hmode : b.mode = s.mode) (hsink : (workOf b).sink = s.sinkAvail) :
    (effectOf i b).mode = modeAfter i s := by
  cases i with
  | setAddress a => exact (applyOps_mode _ _).trans hmode
  | enterWrite => rfl
  | enterRead => rfl
  | writeByte v a => exact doWriteByte_mode v a b
  | readByte a =>
    simp only [effectOf, modeAfter, hsink]
    split
    · exact doReadByte_mode a b
    · exact hmode
  | program a f => exact doProgramLoop_mode _ (doNeedWrite_mode b)
  | dump a n =>
    simp only [effectOf, modeAfter, hsink]
    split
    · exact doDumpLoop_mode _ (doNeedRead_mode b)
    · exact hmode

theorem startOf_mode (i : Instr) (s : State) : (startOf i s).mode = s.mode := by rw [startOf_eq]; rfl

theorem mode_of_finished {i : Instr} {s t : State} (h : Finished i s t) : t.mode = modeAfter i s :=
  (h.field State.mode fun _ => rfl).trans (effectOf_mode i (startOf_mode i s) (startOf_sink i s))

/-- Where a reset sequence has run to its end, the mode is UNINIT (R49). -/
theorem mode_of_resetSequence {c : PinConfig} {x t : State} (h : t = resetSequence c x) (cut : t.cut = none) :
    t.mode = .uninit := by
  rw [h] at cut ⊢
  exact (reset_after cut).1.mode

/-! ### The mode the table gives for a step -/

/-- The input admitted is a CMD write of a command, and its row of the table gives the mode; or it is not, and the
mode stays. -/
theorem modeAfterStep_cases (s : State) :
    (∃ after w rest i, s.host = ⟨after, .write 0 w⟩ :: rest ∧ decode w = .ok i ∧ modeAfterStep s = modeAfter i s) ∨
      (∀ after w rest i, s.host = ⟨after, .write 0 w⟩ :: rest → decode w ≠ .ok i) ∧ modeAfterStep s = s.mode := by
  unfold modeAfterStep
  split
  · rename_i after w rest hh
    split
    · rename_i i hi
      exact .inl ⟨after, w, rest, i, hh, hi, rfl⟩
    · rename_i e he
      refine .inr ⟨fun after' w' rest' i' hh' hi' => ?_, rfl⟩
      rw [hh] at hh'
      cases hh'
      rw [he] at hi'
      cases hi'
  · rename_i hno
    exact .inr ⟨fun after w rest i hh => absurd hh (hno after w rest), rfl⟩

theorem modeAfterStep_of_decode {s : State} {after : Option Nat} {w : CmdWord} {rest : List TimedInput} {i : Instr}
    (h : s.host = ⟨after, .write 0 w⟩ :: rest) (hw : decode w = .ok i) : modeAfterStep s = modeAfter i s := by
  rcases modeAfterStep_cases s with ⟨after', w', rest', i', h', hw', hm⟩ | ⟨hno, _⟩
  · rw [h] at h'
    cases h'
    rw [hw] at hw'
    cases hw'
    exact hm
  · exact absurd hw (hno after w rest i h)

theorem modeAfterStep_of_no_command {s : State}
    (h : ∀ after w rest i, s.host = ⟨after, .write 0 w⟩ :: rest → decode w ≠ .ok i) : modeAfterStep s = s.mode := by
  rcases modeAfterStep_cases s with ⟨after, w, rest, i, hh, hw, _⟩ | ⟨_, hm⟩
  · exact absurd hw (h after w rest i hh)
  · exact hm

/-- No row of the table leads to UNINIT from another mode. -/
theorem mode_of_modeAfter_uninit {i : Instr} {s : State} (h : modeAfter i s = .uninit) : s.mode = .uninit := by
  have readRow : (if s.sinkAvail = true then BusMode.read else s.mode) = .uninit → s.mode = .uninit := by
    split
    · exact nofun
    · exact id
  cases i with
  | setAddress a => exact h
  | readByte a => exact readRow h
  | dump a n => exact readRow h
  | enterWrite | enterRead | writeByte | program => cases h

theorem mode_of_modeAfterStep_uninit {s : State} (h : modeAfterStep s = .uninit) : s.mode = .uninit := by
  rcases modeAfterStep_cases s with ⟨_, _, _, i, _, _, hm⟩ | ⟨_, hm⟩
  · exact mode_of_modeAfter_uninit (hm.symm.trans h)
  · exact hm.symm.trans h

/-! ### The state machine -/

/-- A step leaves the mode the table gives, or a reset was used up and the mode is UNINIT. -/
theorem step_mode {s t : State} (h : step s = .next t) :
    t.mode = modeAfterStep s ∨ resetUsed s t ∧ t.mode = .uninit := by
  cases step_next h with
  | idle host same =>
    have hstep : modeAfterStep s = s.mode :=
      modeAfterStep_of_no_command fun _ _ _ _ hh => by rw [host] at hh; cases hh
    exact .inl (by rw [hstep, same])
  | command after w rest i host _ word run =>
    exact .inl ((mode_of_finished run).trans (modeAfterStep_of_decode host word).symm)
  | reserved after w rest e host _ word run =>
    have hstep : modeAfterStep s = s.mode := modeAfterStep_of_no_command fun _ _ _ _ hh hi => by
      rw [host] at hh
      cases hh
      rw [word] at hi
      cases hi
    exact .inl ((run.field State.mode fun _ => rfl).trans hstep.symm)
  | other j rest host act same =>
    have hstep : modeAfterStep s = s.mode := modeAfterStep_of_no_command fun _ w _ _ hh => by
      rw [host] at hh
      cases hh
      exact absurd rfl (act.1 w)
    exact .inl (by rw [hstep, same])
  | reset seq cut used =>
    obtain ⟨c, x, _, _, ht⟩ := seq
    exact .inr ⟨used, mode_of_resetSequence ht cut⟩

/-- A host reset that is not refused leads to UNINIT. -/
theorem step_reset_mode {s t : State} {c : PinConfig} {after : Option Nat} {rest : List TimedInput}
    (hh : s.host = ⟨after, .reset c⟩ :: rest) (h : step s = .next t) : t.mode = .uninit := by
  rw [step_reset hh] at h
  obtain ⟨⟨d, x, _, _, ht⟩, cut, _⟩ := resetMachine_next h
  exact mode_of_resetSequence ht cut

/-- Settles O51: by `step_mode`, and because no row of the table leads to UNINIT from another mode. -/
theorem modeFollowsItsStateMachine : Obligations.ModeFollowsItsStateMachine := by
  refine ⟨fun s t => step_mode, fun s t c after rest => step_reset_mode, fun s t h hno hu => ?_⟩
  rcases step_mode h with hm | ⟨hused, _⟩
  · exact mode_of_modeAfterStep_uninit (hm.symm.trans hu)
  · exact absurd hused (noResetUsed_not hno)

end Sys2Proof.Proofs

/-! ## Reading and writing through the reference device (20_memory.md R72, R73, R75) -/

namespace Sys2Proof.Proofs

open Sys2Proof Sys2Proof.Machine Sys2Proof.Safety Sys2Proof.Laws

/-! ### Commands on a quiet state -/

/-- A finished command keeps what `Kept` lists; the host's side, which inputs may change, is given. -/
theorem kept_of_finished {i : Instr} {s t : State} (h : Finished i s t) (hhost : t.host = s.host)
    (hreads : t.reads = s.reads) : Kept s t := by
  have hcore := effectOf_core i (blockOf (startOf i s))
  unfold Finished at h
  rw [startOf_eq] at h hcore
  exact
    { params := (h.field State.params fun _ => rfl).trans hcore.params
      cfg := (h.field State.cfg fun _ => rfl).trans hcore.cfg
      sinkAvail := (h.field State.sinkAvail fun _ => rfl).trans hcore.sinkAvail
      host := hhost
      reads := hreads
      refDevice := (h.field State.refDevice fun _ => rfl).trans hcore.refDevice }

theorem exec_quiet_kept (i : Instr) {s : State} (hq : quiet s = true) :
    ∃ t, exec i s = .next t ∧ Finished i s t ∧ Kept s t := by
  obtain ⟨t, hexec, hfin, hhost, hreads⟩ := exec_quiet i hq
  exact ⟨t, hexec, hfin, kept_of_finished hfin hhost hreads⟩

/-! ### WRITE_BYTE -/

theorem ready_of_busInv {s : State} (h : BusInv s) : Ready s :=
  ⟨congrArg Line.out h.we, fun hm p => ((h.write hm).2 p).1⟩

/-- WriteByteProc on a bus in order leaves it as mode WRITE has it. -/
theorem doWriteByte_writing (v : Byte) (a : Addr) {b : State} (h : Ready b) : Writing (doWriteByte v a b).lines := by
  rw [doWriteByte, applyOps_lines]
  exact writeByteOps_writing (doNeedWrite_writing h)

/-- WriteByteProc on a bus in order stores its byte at the location of its address (R72). -/
theorem doWriteByte_dev (v : Byte) (a : Addr) {b : State} (h : Ready b) :
    (doWriteByte v a b).dev =
      { mem := Memory.write b.dev.mem (location a) v, latchA := a.setWidth 15, latchD := v } := by
  rw [doWriteByte, writeByteOps_dev_writing (doNeedWrite_writing h), (doNeedWrite_dev b).1]

/-- WRITE_BYTE(v, a) ends in mode WRITE with WE high, and has stored v at the location of a. -/
theorem exec_writeByte_quiet (v : Byte) (a : Addr) {s : State} (hq : quiet s = true) (h : Ready s) :
    ∃ t, exec (.writeByte v a) s = .next t ∧ Kept s t ∧ t.mode = .write ∧ Writing t.lines ∧
      t.dev.mem = Memory.write s.dev.mem (location a) v := by
  obtain ⟨t, hexec, hfin, hkept⟩ := exec_quiet_kept (.writeByte v a) hq
  have hb : Ready (blockOf (accept s)) := h
  have hl : t.lines = (doWriteByte v a (blockOf (accept s))).lines := hfin.field State.lines fun _ => rfl
  have hd : t.dev = (doWriteByte v a (blockOf (accept s))).dev := hfin.field State.dev fun _ => rfl
  refine ⟨t, hexec, hkept, mode_of_finished hfin, ?_, ?_⟩
  · rw [hl]
    exact doWriteByte_writing v a hb
  · rw [hd, doWriteByte_dev v a hb]
    rfl

/-! ### READ_BYTE -/

/-- The reference device is fitted, and drives the data lines once the bus is in mode READ (R73). -/
def Readable (b : State) : Prop :=
  b.refDevice = true ∧ b.lines.we.out = .high ∧
    (b.mode = .read → b.lines.oe.out = .low ∧ ∀ p : Fin 8, b.lines.data[p].dir = .input)

theorem readable_of_write {s : State} (hr : s.refDevice = true) (hm : s.mode = .write) (hw : s.lines.we.out = .high) :
    Readable s :=
  ⟨hr, hw, fun h => absurd (hm.symm.trans h) nofun⟩

theorem doNeedRead_driving {b : State} (h : Readable b) : Driving (doNeedRead b) := by
  obtain ⟨hr, hw, hread⟩ := h
  refine ⟨(doNeedRead_core b).refDevice.trans hr, ?_, ?_, fun p => ?_⟩
  · rw [oe_eq_getLine, doNeedRead_getLine]
    split
    · rename_i hm; exact (hread hm).1
    · rfl
  · rw [we_eq_getLine, doNeedRead_getLine]
    split <;> exact hw
  · rw [data_eq_getLine, doNeedRead_getLine]
    split
    · rename_i hm; exact (hread hm).2 p
    · rfl

theorem validResult_eq_or (v : Byte) : validResult v = 0x100#9 ||| BitVec.setWidth 9 v := by
  rw [validResult, BitVec.append_def]
  rfl

/-- READ_BYTE(a) with the reference device returns the byte at the location of a, uses no draw and leaves the device
alone (R73). -/
theorem exec_readByte_quiet (a : Addr) {s : State} (hq : quiet s = true) (hsink : s.sinkAvail = true)
    (h : Readable s) :
    ∃ t, exec (.readByte a) s = .next t ∧
      t.result = 0x100#9 ||| BitVec.setWidth 9 (deviceByte s.dev.mem (location a)) ∧
      t.dev = s.dev ∧ t.samples = s.samples := by
  obtain ⟨t, hexec, hfin, -, -⟩ := exec_quiet (.readByte a) hq
  have hdrive : Driving (doNeedRead (blockOf (accept s))) := doNeedRead_driving h
  have heff : effectOf (.readByte a) (blockOf (accept s)) = doReadByte a (blockOf (accept s)) := if_pos hsink
  have hacc : (workOf (doReadByte a (blockOf (accept s)))).acc = deviceByte s.dev.mem (location a) :=
    (doReadByte_acc a _ rfl).trans (readValue_driving hdrive)
  refine ⟨t, hexec, ?_, ?_, ?_⟩
  · have hres : t.result = resultOf (.readByte a) s.sinkAvail (effectOf (.readByte a) (blockOf (accept s))) :=
      hfin.with.result
    rw [hres, heff, resultOf, if_pos hsink, hacc, validResult_eq_or]
  · exact (hfin.field State.dev fun _ => rfl).trans ((congrArg State.dev heff).trans (doReadByte_fields a _).2.2)
  · exact (hfin.field State.samples fun _ => rfl).trans
      ((congrArg State.samples heff).trans (doReadByte_driving hdrive).2.1)

/-! ### A written byte reads back -/

/-- Address bit 15 has no line (R61). -/
theorem location_flip (a : Addr) : location (a ^^^ 0x8000) = location a := by
  have h : (a ^^^ 0x8000).setWidth 15 = a.setWidth 15 := by
    rw [BitVec.setWidth_xor]
    exact BitVec.xor_zero
  rw [location_eq, h, location_eq]

/-- Settles O30: the write leaves a bus in mode WRITE, from which READ_BYTE makes the device drive the written
location; the two read addresses have one location. -/
theorem writtenByteReadsBack : Obligations.WrittenByteReadsBack := by
  intro s v a b hinv hq hsink hdev hb
  have hloc : location b = location a := by
    rcases hb with rfl | rfl
    · rfl
    · exact location_flip a
  obtain ⟨t, hwrite, hkept, hmode, hlines, hmem⟩ := exec_writeByte_quiet v a hq (ready_of_busInv hinv)
  have hreadable : Readable t := readable_of_write (hkept.refDevice.trans hdev) hmode hlines.1
  obtain ⟨u, hread, hres, hsame, -⟩ :=
    exec_readByte_quiet b (quiet_of_host hkept.host hq) (hkept.sinkAvail.trans hsink) hreadable
  have hbyte : deviceByte t.dev.mem (location a) = v := by rw [hmem, deviceByte_write_same]
  refine ⟨t, u, hwrite, hread, ?_, hsame, hbyte, fun x hx => ?_⟩
  · rw [hres, hloc, hbyte]
  · rw [hmem, deviceByte_write_other _ _ _ _ hx]

end Sys2Proof.Proofs

/-! ## The command word (30_encoding.md R81, R83, R85) -/

namespace Sys2Proof.Proofs

open Sys2Proof Sys2Proof.Safety Sys2Proof.Laws.OpcodeInLowByte

/-! ### The four fields of a word -/

theorem dataField_cmdWord (arg addr : BitVec 16) (data op : Byte) : dataField (cmdWord arg addr data op) = data :=
  (BitVec.extractLsb'_append_eq_of_le (Nat.le_refl 8)).trans BitVec.extractLsb'_append_eq_right

theorem addrField_cmdWord (arg addr : BitVec 16) (data op : Byte) : addrField (cmdWord arg addr data op) = addr :=
  calc addrField (cmdWord arg addr data op)
    _ = (arg ++ addr ++ data).extractLsb' 8 16 := BitVec.extractLsb'_append_eq_of_le (by decide)
    _ = (arg ++ addr).extractLsb' 0 16 := BitVec.extractLsb'_append_eq_of_le (by decide)
    _ = addr := BitVec.extractLsb'_append_eq_right

theorem argField_cmdWord (arg addr : BitVec 16) (data op : Byte) : argField (cmdWord arg addr data op) = arg :=
  calc argField (cmdWord arg addr data op)
    _ = (arg ++ addr ++ data).extractLsb' 24 16 := BitVec.extractLsb'_append_eq_of_le (by decide)
    _ = (arg ++ addr).extractLsb' 16 16 := BitVec.extractLsb'_append_eq_of_le (by decide)
    _ = arg := BitVec.extractLsb'_append_eq_left

/-- The fields cover the word: it is put together from the values read out of it. -/
theorem cmdWord_fields (w : CmdWord) : cmdWord (argField w) (addrField w) (dataField w) (opField w) = w := by
  have high : argField w ++ addrField w = w.extractLsb' 16 32 :=
    BitVec.extractLsb'_append_extractLsb'_eq_extractLsb' rfl
  have operands : w.extractLsb' 16 32 ++ dataField w = w.extractLsb' 8 40 :=
    BitVec.extractLsb'_append_extractLsb'_eq_extractLsb' rfl
  have whole : w.extractLsb' 8 40 ++ opField w = w.extractLsb' 0 48 :=
    BitVec.extractLsb'_append_extractLsb'_eq_extractLsb' rfl
  rw [cmdWord, high, operands, whole, BitVec.extractLsb'_eq_self]

theorem cmdWord_inj {arg addr arg' addr' : BitVec 16} {data op data' op' : Byte} :
    cmdWord arg addr data op = cmdWord arg' addr' data' op' ↔
      arg = arg' ∧ addr = addr' ∧ data = data' ∧ op = op' := by
  refine ⟨fun h => ⟨?_, ?_, ?_, ?_⟩, ?_⟩
  · simpa only [argField_cmdWord] using congrArg argField h
  · simpa only [addrField_cmdWord] using congrArg addrField h
  · simpa only [dataField_cmdWord] using congrArg dataField h
  · simpa only [opField_cmdWord] using congrArg opField h
  · rintro ⟨rfl, rfl, rfl, rfl⟩
    rfl

theorem opField_and (v w : CmdWord) : opField (v &&& w) = opField v &&& opField w := BitVec.extractLsb'_and

theorem dataField_and (v w : CmdWord) : dataField (v &&& w) = dataField v &&& dataField w := BitVec.extractLsb'_and

theorem addrField_and (v w : CmdWord) : addrField (v &&& w) = addrField v &&& addrField w := BitVec.extractLsb'_and

theorem argField_and (v w : CmdWord) : argField (v &&& w) = argField v &&& argField w := BitVec.extractLsb'_and

/-- Masking a word masks each of its fields. -/
theorem and_cmdWord (w : CmdWord) (arg addr : BitVec 16) (data op : Byte) :
    w &&& cmdWord arg addr data op =
      cmdWord (argField w &&& arg) (addrField w &&& addr) (dataField w &&& data) (opField w &&& op) := by
  rw [← cmdWord_fields (w &&& _), argField_and, addrField_and, dataField_and, opField_and, argField_cmdWord,
    addrField_cmdWord, dataField_cmdWord, opField_cmdWord]

/-! ### The four masks of the opcode map -/

/-- A masked word is a given one when each field, masked, has the given value. -/
theorem and_cmdWord_eq_iff {w : CmdWord} {arg addr : BitVec 16} {data op : Byte} (marg maddr : BitVec 16)
    (mdata mop : Byte) :
    w &&& cmdWord marg maddr mdata mop = cmdWord arg addr data op ↔
      argField w &&& marg = arg ∧ addrField w &&& maddr = addr ∧ dataField w &&& mdata = data ∧
        opField w &&& mop = op := by
  rw [and_cmdWord, cmdWord_inj]

theorem and_opMask_eq_iff {w : CmdWord} {op : Byte} : w &&& 0xFF = cmdWord 0 0 0 op ↔ opField w = op :=
  (and_cmdWord_eq_iff 0#16 0#16 0#8 (.allOnes 8)).trans <| by
    simp only [BitVec.and_zero, BitVec.and_allOnes, BitVec.ofNat_eq_ofNat, true_and]

theorem and_addrMask_eq_iff {w : CmdWord} {addr : Addr} {op : Byte} :
    w &&& 0xFFFF00FF = cmdWord 0 addr 0 op ↔ addrField w = addr ∧ opField w = op :=
  (and_cmdWord_eq_iff 0#16 (.allOnes 16) 0#8 (.allOnes 8)).trans <| by
    simp only [BitVec.and_zero, BitVec.and_allOnes, BitVec.ofNat_eq_ofNat, true_and]

theorem and_dataAddrMask_eq_iff {w : CmdWord} {addr : Addr} {data op : Byte} :
    w &&& 0xFFFFFFFF = cmdWord 0 addr data op ↔ (addrField w = addr ∧ dataField w = data) ∧ opField w = op :=
  (and_cmdWord_eq_iff 0#16 (.allOnes 16) (.allOnes 8) (.allOnes 8)).trans <| by
    simp only [BitVec.and_zero, BitVec.and_allOnes, BitVec.ofNat_eq_ofNat, true_and, and_assoc]

theorem and_addrArgMask_eq_iff {w : CmdWord} {arg : BitVec 16} {addr : Addr} {op : Byte} :
    w &&& 0xFFFFFFFF00FF = cmdWord arg addr 0 op ↔ (argField w = arg ∧ addrField w = addr) ∧ opField w = op :=
  (and_cmdWord_eq_iff (.allOnes 16) (.allOnes 16) 0#8 (.allOnes 8)).trans <| by
    simp only [BitVec.and_zero, BitVec.and_allOnes, BitVec.ofNat_eq_ofNat, true_and, and_assoc]

/-! ### The operands of a command -/

/-- The fields a command reads hold its operands (R83, "fields read"). -/
def ReadsOperands (w : CmdWord) : Instr → Prop
  | .setAddress addr => addrField w = addr
  | .enterWrite => True
  | .enterRead => True
  | .writeByte value addr => addrField w = addr ∧ dataField w = value
  | .readByte addr => addrField w = addr
  | .program startAddr finalAddr => argField w = finalAddr ∧ addrField w = startAddr
  | .dump startAddr lineCount => argField w = lineCount ∧ addrField w = startAddr

/-- The decoder's arms are the rows of the opcode map: OP selects the command, the fields give its operands. -/
theorem decode_eq_ok_iff {w : CmdWord} {i : Instr} :
    decode w = .ok i ↔ ReadsOperands w i ∧ opField w = i.opcode := by
  constructor
  · intro h
    unfold decode at h
    split at h <;> cases h <;> rename_i hop <;>
      exact ⟨by simp only [ReadsOperands, and_self], BitVec.eq_of_toNat_eq hop⟩
  · rintro ⟨hread, hop⟩
    unfold decode
    rw [hop]
    cases i with
    | enterWrite | enterRead => rfl
    | setAddress | readByte =>
      cases hread
      rfl
    | writeByte | program | dump =>
      obtain ⟨rfl, rfl⟩ := hread
      rfl

/-- A command's mask keeps OP and the fields the command reads and clears the others, which its encoding has 0. -/
theorem and_readMask_eq_encode_iff {w : CmdWord} {i : Instr} :
    w &&& readMask i = encode i ↔ ReadsOperands w i ∧ opField w = i.opcode := by
  cases i with
  | enterWrite | enterRead => exact and_opMask_eq_iff.trans (iff_of_eq (true_and _)).symm
  | setAddress | readByte => exact and_addrMask_eq_iff
  | writeByte => exact and_dataAddrMask_eq_iff
  | program | dump => exact and_addrArgMask_eq_iff

/-- Settles O2: both sides say that OP is the command's opcode and the fields it reads hold its operands. -/
theorem wordDecodesByTheBitsRead : Obligations.WordDecodesByTheBitsRead := by
  intro w i
  rw [decode_eq_ok_iff, and_readMask_eq_encode_iff]

end Sys2Proof.Proofs

/-! ## Address truncation and repeated ENTER_WRITE (40_bus_driver.md R105, R116) -/

namespace Sys2Proof.Proofs

open Sys2Proof Sys2Proof.Machine Sys2Proof.Safety Sys2Proof.Laws

/-! ### Only the 15 address lines see an address -/

theorem addrLevel_truncated (a : Addr) (k : Fin 15) : addrLevel (a &&& 0x7FFF) k = addrLevel a k := by
  have hmask : ∀ k : Fin 15, (0x7FFF : Addr).getLsbD k = true := by decide
  rw [addrLevel, BitVec.getLsbD_and, hmask k, Bool.and_true, addrLevel]

theorem setAddrOps_truncated (a : Addr) : setAddrOps (a &&& 0x7FFF) = setAddrOps a := by
  simp only [setAddrOps, addrLevel_truncated]

theorem writeByteProc_truncated (v : Byte) (a : Addr) (s : State) :
    writeByteProc v (a &&& 0x7FFF) s = writeByteProc v a s := by
  simp only [writeByteProc, writeByteOps, setAddrOps_truncated]

theorem readPass_truncated (a : Addr) : readPass (a &&& 0x7FFF) = readPass a := by
  funext s p
  simp only [readPass, readPassOps, setAddrOps_truncated]

theorem readByteProc_truncated (a : Addr) (s : State) : readByteProc (a &&& 0x7FFF) s = readByteProc a s := by
  simp only [readByteProc, readPass_truncated]

/-- Two commands with the same parts are the same command, whatever inputs fall around their events. -/
theorem exec_congr {i j : Instr} {s : State} (hbody : ∀ x, bodyOf i x = bodyOf j x)
    (hstart : startOf i s = startOf j s) (hstatus : statusOf i s = statusOf j s) (hresult : resultOf i = resultOf j) :
    exec i s = exec j s := by
  rw [exec_eq, exec_eq, hbody, hstart, hstatus, hresult]

/-- Settles O20: the address lines, 0 to 14, are all that the procedures read of an address, and each command is its
procedure between acceptance and finish. -/
theorem addressesAreTruncated : Obligations.AddressesAreTruncated := by
  intro s a v
  refine ⟨?_, (writeByteProc_truncated v a s).symm, (readByteProc_truncated a s).symm, ?_, ?_, ?_⟩
  · rw [setAddrOps_truncated]
  · exact exec_congr (fun x => congrArg (runOps · x) (setAddrOps_truncated a).symm) rfl rfl rfl
  · exact exec_congr (fun x => (writeByteProc_truncated v a x).symm) rfl rfl rfl
  · exact exec_congr (fun x => by simp only [bodyOf, readByteProc_truncated]) rfl rfl rfl

/-! ### ENTER_WRITE -/

/-- A finished command that emits no ECHO text appends exactly its events. -/
theorem trace_of_finished {i : Instr} {s t : State} (h : Finished i s t) (hi : ∀ a f, i ≠ .program a f) :
    traceOf t = traceOf s ++ eventsOf i (blockOf (startOf i s)) := by
  have hsilent : (workOf (startOf i s)).echoing = false := by
    refine Bool.eq_false_iff.2 fun hecho => ?_
    obtain ⟨-, a, f, hprogram⟩ := startOf_echoing i s hecho
    exact hi a f hprogram
  simpa only [view, List.filter_true] using h.trace (fun _ => true) (.inl hsilent)

/-- What ENTER_WRITE, accepted in s and undisturbed, leaves in t (R101, R115). -/
structure EnteredWrite (s t : State) : Prop where
  finish : FinishedWith .ok 0 t
  kept : Kept s t
  mode : t.mode = .write
  lines : t.lines = opsLines enterWriteOps s.lines
  dev : t.dev = s.dev
  source : t.source = s.source
  samples : t.samples = s.samples
  trace : traceOf t = traceOf s ++ enterWriteTrace s.cfg

theorem doEnterWrite_lines (b : State) : (doEnterWrite b).lines = opsLines enterWriteOps b.lines :=
  applyOps_lines enterWriteOps b

theorem doEnterWrite_dev (b : State) : (doEnterWrite b).dev = b.dev := (applyOps_dev enterWrite_spares b).1

theorem doEnterWrite_source (b : State) : (doEnterWrite b).source = b.source := applyOps_source enterWriteOps b

theorem doEnterWrite_samples (b : State) : (doEnterWrite b).samples = b.samples := applyOps_samples enterWriteOps b

theorem exec_enterWrite_quiet {s : State} (hq : quiet s = true) :
    ∃ t, exec .enterWrite s = .next t ∧ EnteredWrite s t := by
  obtain ⟨t, hexec, hfin, hkept⟩ := exec_quiet_kept .enterWrite hq
  exact ⟨t, hexec,
    { finish := hfin.with
      kept := hkept
      mode := mode_of_finished hfin
      lines := (hfin.field State.lines fun _ => rfl).trans (doEnterWrite_lines (blockOf (accept s)))
      dev := (hfin.field State.dev fun _ => rfl).trans (doEnterWrite_dev (blockOf (accept s)))
      source := (hfin.field State.source fun _ => rfl).trans (doEnterWrite_source (blockOf (accept s)))
      samples := (hfin.field State.samples fun _ => rfl).trans (doEnterWrite_samples (blockOf (accept s)))
      trace := trace_of_finished hfin nofun }⟩

/-- The lines after EnterWrite, whatever record it starts from. -/
theorem opsLines_enterWrite_getLine (ls : Lines) (l : LineId) :
    getLine (opsLines enterWriteOps ls) l =
      match l with
      | .data _ => ⟨.output, .low⟩
      | .oe => { getLine ls .oe with out := .high }
      | m => getLine ls m := by
  have h := enterWrite_getLine { State.reset with lines := ls } l
  rw [applyOps_lines] at h
  cases l <;> exact h

/-- EnterWrite finds the lines a first EnterWrite left already in place. -/
theorem opsLines_enterWrite_idem (ls : Lines) :
    opsLines enterWriteOps (opsLines enterWriteOps ls) = opsLines enterWriteOps ls :=
  lines_ext fun l => by cases l <;> simp only [opsLines_enterWrite_getLine]

theorem EnteredWrite.data_low {s t : State} (h : EnteredWrite s t) (p : Fin 8) :
    t.lines.data[p] = ⟨.output, .low⟩ := by
  rw [h.lines, data_eq_getLine, opsLines_enterWrite_getLine]

/-- Settles O22: the second ENTER_WRITE leaves what any ENTER_WRITE leaves, and its line operations change nothing. -/
theorem enterWriteTwiceIsEnterWriteOnce : Obligations.EnterWriteTwiceIsEnterWriteOnce := by
  intro s hq
  obtain ⟨t, hfirst, ht⟩ := exec_enterWrite_quiet hq
  obtain ⟨u, hsecond, hu⟩ := exec_enterWrite_quiet (quiet_of_host ht.kept.host hq)
  have hlines : u.lines = t.lines := by rw [hu.lines, ht.lines, opsLines_enterWrite_idem]
  have htrace : traceOf u = traceOf s ++ enterWriteTrace s.cfg ++ enterWriteTrace s.cfg := by
    rw [hu.trace, ht.trace, ht.kept.cfg]
  exact ⟨t, u, hfirst, hsecond, ht.mode, ht.finish, hu.finish, hu.kept, hlines, ht.data_low,
    hu.mode.trans ht.mode.symm, hu.dev, hu.source, hu.samples, htrace, rfl⟩

end Sys2Proof.Proofs

/-! ## The text of a dump (41_programmer.md R149, R150) -/

namespace Sys2Proof.Proofs

open Sys2Proof Sys2Proof.Machine Sys2Proof.Safety Sys2Proof.Laws

/-! ### Hex digits -/

/-- The ASCII code of the digit of a number below 16, in the words of R149. -/
def digitCode (upper : Bool) (d : Nat) : Byte :=
  BitVec.ofNat 8 (if d ≤ 9 then 0x30 + d else if upper then 0x41 + (d - 10) else 0x61 + (d - 10))

theorem hexDigit_eq_digitCode (upper : Bool) (d : BitVec 4) : hexDigit upper d = digitCode upper d.toNat := by
  unfold hexDigit digitCode
  split
  · rfl
  · rename_i hd
    have hten : 10 ≤ d.toNat := by omega
    cases upper <;> exact congrArg (BitVec.ofNat 8) (Nat.add_sub_assoc hten _)

theorem hex2_eq_digitCodes (upper : Bool) (v : Byte) :
    hex2 upper v = [v.toNat / 16, v.toNat % 16].map (digitCode upper) := by
  have hhigh : v.toNat / 16 % 16 = v.toNat / 16 := Nat.mod_eq_of_lt (by omega)
  simp [hex2, hexDigit_eq_digitCode, Nat.shiftRight_eq_div_pow, hhigh]

theorem hex4_eq_digitCodes (upper : Bool) (a : BitVec 16) :
    hex4 upper a =
      [a.toNat / 4096, a.toNat / 256 % 16, a.toNat / 16 % 16, a.toNat % 16].map (digitCode upper) := by
  have hhigh : a.toNat / 4096 % 16 = a.toNat / 4096 := Nat.mod_eq_of_lt (by omega)
  simp [hex4, hexDigit_eq_digitCode, Nat.shiftRight_eq_div_pow, hhigh]

/-- Settles O40: each digit's four bits, read as a number, are the quotient and remainder that R149 names. -/
theorem hexDigitsAreAscii : Obligations.HexDigitsAreAscii :=
  ⟨rfl, rfl, rfl, fun upper v a => ⟨hex2_eq_digitCodes upper v, hex4_eq_digitCodes upper a⟩⟩

/-! ### What DUMP prints for one byte -/

theorem column_eq_iff (a : Nat) {j : Nat} (hj : j < 16) :
    (BitVec.ofNat 16 a).extractLsb' 0 4 = BitVec.ofNat 4 j ↔ a % 16 = j := by
  rw [← BitVec.toNat_inj]
  simp only [BitVec.extractLsb'_toNat, BitVec.toNat_ofNat, Nat.shiftRight_zero]
  omega

theorem textBefore_ofNat (upper : Bool) (a : Nat) :
    textBefore upper (BitVec.ofNat 16 a) = if a % 16 = 0 then hex4 upper (BitVec.ofNat 16 a) else [] :=
  if_congr (column_eq_iff a (by decide)) rfl rfl

theorem textAfter_ofNat (upper : Bool) (eol : List Byte) (a : Nat) (v : Byte) :
    textAfter upper eol (BitVec.ofNat 16 a) v = 0x20 :: hex2 upper v ++
      ((if a % 16 = 7 then [0x20] else []) ++ (if a % 16 = 15 then eol else [])) := by
  have hspace := column_eq_iff a (j := 7) (by decide)
  have hbreak := column_eq_iff a (j := 15) (by decide)
  exact congrArg (_ ++ ·) (congrArg₂ (· ++ ·) (if_congr hspace rfl rfl) (if_congr hbreak rfl rfl))

/-- The pin events of a read are no text. -/
theorem readByteTrace_text (us : Nat) (c : PinConfig) (a : Addr) (v : Byte) :
    (readByteTrace us c a v).filterMap outChar = [] := by
  rw [List.filterMap_eq_nil_iff]
  intro e he
  simp only [readByteTrace, setAddrTrace, List.mem_flatMap, List.mem_append, List.mem_map, List.mem_cons,
    List.not_mem_nil, or_false] at he
  obtain ⟨p, -, ⟨k, -, rfl⟩ | rfl | rfl⟩ := he <;> rfl

theorem filterMap_outChar_out (text : List Byte) : (text.map Event.out).filterMap outChar = text := by
  rw [List.filterMap_map]
  exact List.filterMap_some

/-- The text of a dump is each byte's label, cell and marks in turn. -/
theorem dumpTrace_text_cons (q : Params) (c : PinConfig) (a : Nat) (v : Byte) (vs : List Byte) :
    (dumpTrace q c a (v :: vs)).filterMap outChar =
      textBefore q.hexUpper (BitVec.ofNat 16 a) ++ textAfter q.hexUpper q.eolSeq (BitVec.ofNat 16 a) v ++
        (dumpTrace q c (a + 1) vs).filterMap outChar := by
  simp only [dumpTrace, List.filterMap_append, filterMap_outChar_out, readByteTrace_text, List.append_nil]

theorem dumpTrace_append (q : Params) (c : PinConfig) (a : Nat) (us vs : List Byte) :
    dumpTrace q c a (us ++ vs) = dumpTrace q c a us ++ dumpTrace q c (a + us.length) vs := by
  induction us generalizing a with
  | nil => rfl
  | cons u us ih =>
    simp only [List.cons_append, dumpTrace, ih, List.append_assoc, List.length_cons, Nat.add_assoc, Nat.add_comm 1]

/-! ### Half rows -/

/-- The cells of a row's bytes: a space and two digits for each. -/
def cells (upper : Bool) (vs : List Byte) : List Byte := vs.flatMap fun b => 0x20 :: hex2 upper b

theorem cells_length (upper : Bool) (vs : List Byte) : (cells upper vs).length = 3 * vs.length := by
  simp [cells, hex2, Nat.mul_comm]

/-- What ends a half row whose columns include that of address a: one more space or the line break (R150). -/
def halfRowEnd (eol : List Byte) (a : Nat) : List Byte := if a % 16 < 8 then [0x20] else eol

/-- From a column other than 0 to the end of its half row, DUMP prints the cells and what ends the half row. -/
theorem dumpTrace_text_halfRow (q : Params) (c : PinConfig) (a : Nat) (vs : List Byte) (hlabel : a % 16 ≠ 0)
    (hlen : a % 8 + vs.length = 8) :
    (dumpTrace q c a vs).filterMap outChar = cells q.hexUpper vs ++ halfRowEnd q.eolSeq a := by
  induction vs generalizing a with
  | nil =>
    rw [List.length_nil] at hlen
    omega
  | cons v vs ih =>
    rw [List.length_cons] at hlen
    rw [dumpTrace_text_cons, textBefore_ofNat, if_neg hlabel, textAfter_ofNat]
    cases vs with
    | nil =>
      have hlast : a % 16 = 7 ∨ a % 16 = 15 := by rw [List.length_nil] at hlen; omega
      rcases hlast with h | h <;> simp [h, cells, halfRowEnd, dumpTrace]
    | cons w ws =>
      rw [List.length_cons] at hlen
      have hinner : a % 16 ≠ 7 ∧ a % 16 ≠ 15 := by omega
      have hend : halfRowEnd q.eolSeq (a + 1) = halfRowEnd q.eolSeq a := if_congr (by omega) rfl rfl
      rw [ih (a + 1) (by omega) (by rw [List.length_cons]; omega), hend, if_neg hinner.1, if_neg hinner.2]
      simp [cells]

/-- The first half of a row: the label, eight cells and one more space. -/
theorem dumpTrace_text_firstHalf (q : Params) (c : PinConfig) (r : Nat) (bs : List Byte) (hr : r % 16 = 0)
    (hlen : bs.length = 8) :
    (dumpTrace q c r bs).filterMap outChar = hex4 q.hexUpper (BitVec.ofNat 16 r) ++ cells q.hexUpper bs ++ [0x20] := by
  cases bs with
  | nil => cases hlen
  | cons b bs =>
    rw [List.length_cons] at hlen
    have hinner : r % 16 ≠ 7 ∧ r % 16 ≠ 15 := by omega
    have hend : halfRowEnd q.eolSeq (r + 1) = [0x20] := if_pos (by omega)
    rw [dumpTrace_text_cons, textBefore_ofNat, if_pos hr, textAfter_ofNat, if_neg hinner.1, if_neg hinner.2,
      dumpTrace_text_halfRow q c (r + 1) bs (by omega) (by omega), hend]
    simp [cells]

/-- The text of a row is that of its two halves. -/
theorem dumpTrace_text_row (q : Params) (c : PinConfig) (r : Nat) (bs ds : List Byte) (hr : r % 16 = 0)
    (hbs : bs.length = 8) (hds : ds.length = 8) :
    (dumpTrace q c r (bs ++ ds)).filterMap outChar =
      hex4 q.hexUpper (BitVec.ofNat 16 r) ++ cells q.hexUpper bs ++ [0x20] ++ cells q.hexUpper ds ++ q.eolSeq := by
  have hend : halfRowEnd q.eolSeq (r + 8) = q.eolSeq := if_neg (by omega)
  rw [dumpTrace_append, List.filterMap_append, dumpTrace_text_firstHalf q c r bs hr hbs, hbs,
    dumpTrace_text_halfRow q c (r + 8) ds (by omega) (by omega), hend, List.append_assoc _ (cells _ ds)]

/-- Settles O41: a row is a label and two half rows of eight cells; 4 + 24 + 1 + 24 + 1 characters. -/
theorem completeRowText : Obligations.CompleteRowText := by
  intro q c r bs ds hr _ hbs hds
  have htext := dumpTrace_text_row q c r bs ds hr hbs hds
  refine ⟨htext, fun heol => ?_⟩
  have hlabel : (hex4 q.hexUpper (BitVec.ofNat 16 r)).length = 4 := rfl
  rw [htext, heol]
  simp only [List.length_append, cells_length, hlabel, hbs, hds, List.length_singleton]

end Sys2Proof.Proofs

/-! ## DUMP, and PROGRAM before it (41_programmer.md R146, R147, R153) -/

namespace Sys2Proof.Proofs

open Sys2Proof Sys2Proof.Machine Sys2Proof.Safety Sys2Proof.Laws

/-! ### The loop's registers -/

/-- The row base drops the column (R145). -/
theorem dumpBase_toNat (a : Addr) : (dumpBase a).toNat = a.toNat / 16 * 16 := by
  have hshift : dumpBase a = a >>> 4 <<< 4 := by
    apply BitVec.eq_of_getLsbD_eq
    intro i hi
    simp only [dumpBase, BitVec.getLsbD_and, BitVec.getLsbD_shiftLeft, BitVec.getLsbD_ushiftRight]
    interval_cases i <;> simp
  rw [hshift, BitVec.toNat_shiftLeft, BitVec.toNat_ushiftRight, Nat.shiftLeft_eq, Nat.shiftRight_eq_div_pow]
  have hlt := a.isLt
  omega

theorem dumpEnd_toNat (a : Addr) (n : BitVec 16) : (dumpEnd a n).toNat = (dumpBase a).toNat + 16 * n.toNat := by
  rw [dumpEnd, BitVec.toNat_ofNat]
  omega

theorem programBound_toNat (f : Addr) : (programBound f).toNat = min f.toNat 0x7FFE := by
  rw [programBound, BitVec.toNat_ofNat]
  omega

/-! ### DUMP -/

theorem driven_eq (x : Line) (b : Bool) : driven x b = { x with out := outOf b } := by cases b <;> rfl

/-- What DUMP with a sink, accepted in s and undisturbed, leaves in t where its reads from address norm up gave the
bytes vs (R145 to R148). -/
structure Dumped (norm : Nat) (vs : List Byte) (s t : State) : Prop where
  finish : FinishedWith .ok 0 t
  kept : Kept s t
  mode : t.mode = .read
  trace : traceOf t = traceOf s ++ (needReadTrace s ++ dumpTrace s.params s.cfg norm vs)
  we : t.lines.we = s.lines.we
  oe : t.lines.oe = if s.mode = .read then s.lines.oe else driven s.lines.oe false
  data : ∀ p : Fin 8, t.lines.data[p] = if s.mode = .read then s.lines.data[p] else ⟨.input, s.lines.data[p].out⟩
  addr : ∀ k : Fin 15, t.lines.addr[k] =
    if vs = [] then s.lines.addr[k] else driven s.lines.addr[k] ((norm + vs.length - 1).testBit k)
  source : t.source = s.source
  dev : t.dev = s.dev
  bytes : Readable s → vs = (List.range' norm vs.length).map (deviceByte s.dev.mem)

/-- The block DUMP's loop starts in. -/
def dumpLoopStart (a : Addr) (n : BitVec 16) (b : State) : State := dumpStart a n (doNeedRead b)

theorem dumpLoopStart_core (a : Addr) (n : BitVec 16) (b : State) : Core b (dumpLoopStart a n b) :=
  (doNeedRead_core b).trans (core_setWork _ _)

theorem dumpLoopStart_work (a : Addr) (n : BitVec 16) {b : State} (h : b.work.isSome = true) :
    (dumpLoopStart a n b).work.isSome = true ∧ (workOf (dumpLoopStart a n b)).a = dumpBase a ∧
      (workOf (dumpLoopStart a n b)).endAddr = dumpEnd a n := by
  have hw : (doNeedRead b).work.isSome = true := ((doNeedRead_work b).regs h).1
  rw [dumpLoopStart, dumpStart, workOf_setWork hw]
  exact ⟨by simpa using hw, rfl, rfl⟩

/-- The block after DUMP with a sink. -/
def doDump (a : Addr) (n : BitVec 16) (b : State) : State := doDumpLoop (dumpCount a n) (dumpLoopStart a n b)

/-- DUMP's loop, from the block DUMP was accepted in: as many reads as its read set has addresses (R147), and the
lines of the last one. -/
theorem doDump_spec (a : Addr) (n : BitVec 16) {b : State} (h : b.work.isSome = true) :
    ∃ vs : List Byte, vs.length = dumpCount a n ∧
      dumpLoopTrace (dumpCount a n) (dumpLoopStart a n b) = dumpTrace b.params b.cfg (dumpBase a).toNat vs ∧
      (doDump a n b).source = b.source ∧ (doDump a n b).dev = b.dev ∧
      (∀ l, getLine (doDump a n b).lines l =
        match l with
        | .addr k => if vs = [] then getLine b.lines (.addr k)
            else driven (getLine b.lines (.addr k)) (((dumpBase a).toNat + vs.length - 1).testBit k)
        | m => getLine (doNeedRead b).lines m) ∧
      (Readable b → vs = (List.range' (dumpBase a).toNat vs.length).map (deviceByte b.dev.mem)) := by
  obtain ⟨hwork, hbase, hend⟩ := dumpLoopStart_work a n h
  have hcore := dumpLoopStart_core a n b
  have hdev : (dumpLoopStart a n b).dev = b.dev := (doNeedRead_dev b).1
  have haddr : ∀ k, getLine (dumpLoopStart a n b).lines (.addr k) = getLine b.lines (.addr k) := fun k =>
    (doNeedRead_getLine b (.addr k)).trans (ite_self _)
  obtain ⟨vs, hlen, htrace, -, hsource, hsame, hlines, hbytes, -⟩ :=
    doDumpLoop_spec (dumpCount a n) (dumpLoopStart a n b) hwork (doNeedRead_mode b)
      (by rw [hbase, hend, dumpEnd_toNat, dumpCount])
  refine ⟨vs, hlen, ?_, hsource.trans (doNeedRead_source b), hsame.trans hdev, fun l => ?_, fun hread => ?_⟩
  · rw [htrace, hbase, hcore.params, hcore.cfg]
  · rw [hlen, doDump, hlines]
    cases l with
    | addr k => simp only [haddr, driven_eq, hbase]
    | data | we | oe => rfl
  · rw [hlen, ← hbase, ← hdev]
    exact (hbytes (doNeedRead_driving hread)).1

theorem exec_dump_quiet (a : Addr) (n : BitVec 16) {s : State} (hq : quiet s = true) (hsink : s.sinkAvail = true) :
    ∃ t vs, exec (.dump a n) s = .next t ∧ vs.length = dumpCount a n ∧ Dumped (dumpBase a).toNat vs s t := by
  obtain ⟨t, hexec, hfin, hkept⟩ := exec_quiet_kept (.dump a n) hq
  obtain ⟨vs, hlen, htrace, hsource, hdev, hlines, hbytes⟩ :=
    doDump_spec a n (b := blockOf (accept s)) rfl
  have heffect : effectOf (.dump a n) (blockOf (accept s)) = doDump a n (blockOf (accept s)) := if_pos hsink
  have hevents : eventsOf (.dump a n) (blockOf (accept s)) = needReadTrace s ++ dumpTrace s.params s.cfg _ vs :=
    (if_pos hsink).trans (congrArg (needReadTrace s ++ ·) htrace)
  have hstatus : statusOf (.dump a n) s = .ok := if_pos hsink
  have hrun : FinishedRun (accept s) s t .ok 0 (doDump a n (blockOf (accept s)))
      (eventsOf (.dump a n) (blockOf (accept s))) := by
    rw [← heffect, ← hstatus]
    exact hfin
  have htlines := hrun.field State.lines fun _ => rfl
  have hline : ∀ l, getLine (doNeedRead (blockOf (accept s))).lines l =
      if s.mode = .read then getLine s.lines l else _ :=
    doNeedRead_getLine (blockOf (accept s))
  exact ⟨t, vs, hexec, hlen,
    { finish := hrun.with
      kept := hkept
      mode := (mode_of_finished hfin).trans (if_pos hsink)
      trace := (trace_of_finished hfin nofun).trans (congrArg (traceOf s ++ ·) hevents)
      we := htlines ▸ (hlines .we).trans ((hline .we).trans (ite_self _))
      oe := htlines ▸ (hlines .oe).trans (hline .oe)
      data := fun p => htlines ▸ (hlines (.data p)).trans (hline (.data p))
      addr := fun k => htlines ▸ hlines (.addr k)
      source := (hrun.field State.source fun _ => rfl).trans hsource
      dev := (hrun.field State.dev fun _ => rfl).trans hdev
      bytes := hbytes }⟩

/-- Settles O38: the row base and the read count are those of DUMP's registers, `dumpBase` and `dumpCount`. -/
theorem dumpReadsRowsInOrder : Obligations.DumpReadsRowsInOrder := by
  intro s a n norm hq hsink hnorm
  obtain rfl : norm = (dumpBase a).toNat := hnorm.trans (dumpBase_toNat a).symm
  obtain ⟨t, vs, hexec, hlen, h⟩ := exec_dump_quiet a n hq hsink
  exact ⟨t, vs, hexec, h.finish, h.kept, h.mode, hlen, h.trace, h.we, h.oe, h.data, h.addr, h.source, h.dev⟩

/-! ### PROGRAM -/

/-- The block PROGRAM's loop starts in. -/
def programLoopStart (a f : Addr) (b : State) : State := programStart a f (doNeedWrite b)

theorem programLoopStart_work (a f : Addr) {b : State} (h : b.work.isSome = true) :
    (programLoopStart a f b).work.isSome = true ∧ (workOf (programLoopStart a f b)).a = a ∧
      (workOf (programLoopStart a f b)).bound = programBound f := by
  have hw : (doNeedWrite b).work.isSome = true := ((doNeedWrite_work b).regs h).1
  rw [programLoopStart, programStart, workOf_setWork hw]
  exact ⟨by simpa using hw, rfl, rfl⟩

/-- The block after PROGRAM. -/
def doProgram (a f : Addr) (b : State) : State := doProgramLoop (programSpan a f) (programLoopStart a f b)

/-- PROGRAM's loop on a bus in order, from the block PROGRAM was accepted in: it writes the bytes the source yields,
as many as its range has addresses (R141, R142), and leaves the bus as mode WRITE has it. -/
theorem doProgram_spec (a f : Addr) {b : State} (hwork : b.work.isSome = true) (h : Ready b) :
    Writing (doProgram a f b).lines ∧
      (doProgram a f b).dev = writesDev a.toNat ((sourceBytes b.source).take (programSpan a f)) b.dev := by
  obtain ⟨hstart, ha, hbound⟩ := programLoopStart_work a f hwork
  have hwriting : Writing (programLoopStart a f b).lines := doNeedWrite_writing h
  have hsource : (programLoopStart a f b).source = b.source := doNeedWrite_source b
  have hsame : (programLoopStart a f b).dev = b.dev := (doNeedWrite_dev b).1
  obtain ⟨-, -, -, -, hlines, hdev, -⟩ :=
    doProgramLoop_spec (programSpan a f) (programLoopStart a f b) _ hstart (doNeedWrite_mode b)
      (by rw [hbound, programBound_toNat]; exact Nat.min_le_right _ _)
      (by rw [ha, hbound, programBound_toNat, programSpan]) rfl
  exact ⟨hlines ▸ writesLines_writing hwriting, by rw [doProgram, hdev hwriting, ha, hsource, hsame]⟩

theorem exec_program_quiet (a f : Addr) {s : State} (hq : quiet s = true) (h : Ready s) :
    ∃ t, exec (.program a f) s = .next t ∧ Kept s t ∧ t.mode = .write ∧ Writing t.lines ∧
      t.dev = writesDev a.toNat ((sourceBytes s.source).take (programSpan a f)) s.dev := by
  obtain ⟨t, hexec, hfin, hkept⟩ := exec_quiet_kept (.program a f) hq
  obtain ⟨hwriting, hdev⟩ := doProgram_spec a f (b := blockOf (allowEcho (accept s))) rfl h
  have hlines := hfin.field State.lines fun _ => rfl
  have htdev := hfin.field State.dev fun _ => rfl
  exact ⟨t, hexec, hkept, mode_of_finished hfin, hlines ▸ hwriting, htdev.trans hdev⟩

/-- While the listed answers are true, the source yields the bytes it has to yield. -/
theorem bytesBefore_take {answers : List Bool} {bytes : List Byte} {n : Nat} (h : ∀ b ∈ answers.take n, b = true) :
    (bytesBefore answers bytes).take n = bytes.take n := by
  induction answers, bytes using bytesBefore.induct generalizing n with
  | case1 => simp [bytesBefore]
  | case2 => rfl
  | case3 answers v vs ih =>
    cases n with
    | zero => rfl
    | succ n => simp [bytesBefore, ih fun b hb => h b (List.mem_cons_of_mem _ hb)]
  | case4 =>
    cases n with
    | zero => rfl
    | succ n => exact absurd (h false (by simp)) nofun

/-! ### The round trip -/

/-- Bytes written from address 0 up are what the device then holds there. -/
theorem deviceByte_writesDev_zero {vs : List Byte} {d : RefDevice} {a : Nat} (hlen : vs.length ≤ 0x8000)
    (ha : a < vs.length) : some (deviceByte (writesDev 0 vs d).mem a) = vs[a]? := by
  have hread := writesDev_read 0 vs d (by omega) a
  rw [if_pos (Nat.zero_le a), Nat.sub_zero, List.getElem?_eq_getElem ha] at hread
  rw [deviceByte, hread, List.getElem?_eq_getElem ha]
  rfl

/-- Settles O43: PROGRAM stores B from address 0 up and leaves the bus in mode WRITE, from which DUMP makes the device
drive each address it reads; its rows cover B. -/
theorem programThenDumpRoundTrip : Obligations.ProgramThenDumpRoundTrip := by
  intro s B later hinv hq hsink hdevice hbytes hanswers hpos hmax
  have hzero : (0 : Addr).toNat = 0 := rfl
  have hspan : programSpan 0 (BitVec.ofNat 16 (B.length - 1)) = B.length := by
    rw [programSpan, BitVec.toNat_ofNat, hzero]
    omega
  have hyield : (sourceBytes s.source).take B.length = B := by
    rw [sourceBytes, bytesBefore_take hanswers, hbytes, List.take_left]
  obtain ⟨t, hprogram, hkept, hmode, hwriting, hdev⟩ :=
    exec_program_quiet 0 (BitVec.ofNat 16 (B.length - 1)) hq (ready_of_busInv hinv)
  rw [hspan, hyield, hzero] at hdev
  obtain ⟨u, vs, hdump, hcount, hdumped⟩ := exec_dump_quiet 0 (BitVec.ofNat 16 ((B.length + 15) / 16))
    (quiet_of_host hkept.host hq) (hkept.sinkAvail.trans hsink)
  have hbase : (dumpBase 0).toNat = 0 := rfl
  have hcover : B.length ≤ vs.length := by
    rw [hcount, dumpCount, hbase, BitVec.toNat_ofNat]
    omega
  have hread := hdumped.bytes (readable_of_write (hkept.refDevice.trans hdevice) hmode hwriting.1)
  have htrace := hdumped.trace
  rw [hbase, hkept.params, hkept.cfg, needReadTrace, hmode, if_neg nofun, hkept.params, hkept.cfg] at htrace
  refine ⟨t, u, vs, hprogram, hdump, htrace, hcover, fun a ha => ?_⟩
  have hprinted : vs[a]? = some (deviceByte t.dev.mem a) := by
    rw [hread, hbase, List.getElem?_map, List.getElem?_range' (ha.trans_le hcover), Nat.one_mul, Nat.zero_add]
    rfl
  rw [hprinted, hdev]
  exact deviceByte_writesDev_zero (by omega) ha

end Sys2Proof.Proofs

/-! ## The reset sequence (70_reset_and_hazards.md R190) and the delays of every command (R210) -/

namespace Sys2Proof.Proofs

open Sys2Proof Sys2Proof.Machine Sys2Proof.Safety Sys2Proof.Laws

/-! ### The host's reset -/

/-- A configuration with two equal pin ids is refused before anything else happens (R33). -/
theorem resetMachine_refused {c : PinConfig} (h : ¬ c.pins.Nodup) (s : State) :
    resetMachine c s = .refused .duplicatePinIds :=
  if_neg fun hw => h (of_decide_eq_true hw)

/-- What a reset sequence that no input cuts short leaves in t: besides the table of R49, its effect on the parts of
the state the table does not name. -/
structure ResetFrom (c : PinConfig) (s t : State) : Prop where
  table : AfterReset c t
  trace : traceOf t = traceOf s ++ resetTrace c
  host : t.host = s.host
  reads : t.reads = s.reads
  params : t.params = s.params
  sinkAvail : t.sinkAvail = s.sinkAvail
  source : t.source = s.source
  samples : t.samples = s.samples
  dev : t.dev = settle s

@[simp] theorem settle_blockOf (b : State) : settle (blockOf b) = settle b := rfl

/-- No operation of the sequence changes the parameters, the sink level or the samples to come. -/
theorem doReset_fields (c : PinConfig) (b : State) :
    (doReset c b).params = b.params ∧ (doReset c b).sinkAvail = b.sinkAvail ∧ (doReset c b).samples = b.samples :=
  have hcore := applyOps_core resetOps (latchConfig c b)
  ⟨hcore.params, hcore.sinkAvail, applyOps_samples resetOps (latchConfig c b)⟩

theorem resetSequence_quiet (c : PinConfig) {s : State} (hq : quiet s = true) :
    (resetSequence c s).cut = none ∧ ResetFrom c s (resetSequence c s) := by
  obtain ⟨hrun, hquiet, -⟩ := reset_run c s
  obtain ⟨hcut, hhost, hreads⟩ := hquiet hq
  obtain ⟨-, hblock, hview, -⟩ := hrun.resolve_right (not_not_intro hcut)
  obtain ⟨hparams, hsink, hsamples⟩ := doReset_fields c (blockOf s)
  obtain ⟨hdev, hsource⟩ := doReset_dev c (blockOf s)
  exact ⟨hcut,
    { table := (reset_after hcut).1
      trace := by simpa only [view, List.filter_true] using hview fun _ => true
      host := hhost
      reads := hreads
      params := by simpa [hparams] using congrArg State.params hblock
      sinkAvail := by simpa [hsink] using congrArg State.sinkAvail hblock
      source := by simpa [hsource] using congrArg State.source hblock
      samples := by simpa [hsamples] using congrArg State.samples hblock
      dev := by simpa [hdev] using congrArg State.dev hblock }⟩

theorem resetMachine_quiet {c : PinConfig} (h : c.pins.Nodup) {s : State} (hq : quiet s = true) :
    ∃ t, resetMachine c s = .next t ∧ ResetFrom c s t := by
  obtain ⟨hcut, hfrom⟩ := resetSequence_quiet c hq
  exact ⟨_, (if_pos (decide_eq_true h)).trans (conclude_of_live hcut), hfrom⟩

/-- With WE high no write pulse is open. -/
theorem settle_of_high {s : State} (h : s.lines.we.out = .high) : settle s = s.dev := by
  rw [settle, h]

/-- 4 events for WE and OE, 30 for the address lines and 8 for the data lines (R190). -/
theorem resetTrace_length (c : PinConfig) : (resetTrace c).length = 42 := by
  simp [resetTrace]

/-- Settles O14: a reset is refused, or runs its sequence, in which the device sees no edge of WE but a rising one. -/
theorem resetRunsItsSequence : Obligations.ResetRunsItsSequence := by
  intro s c after rest hhost hq
  rw [step_reset hhost]
  refine ⟨fun hdup => resetMachine_refused hdup _, fun hnodup => ?_⟩
  obtain ⟨t, hstep, h⟩ := resetMachine_quiet hnodup hq
  exact ⟨t, hstep, h.table, h.trace, resetTrace_length c, h.host, h.reads, h.params, h.sinkAvail, h.source, h.samples,
    fun hwe => h.dev.trans (settle_of_high (s := { s with host := rest }) hwe)⟩

/-! ### The delays of lists of events -/

@[simp] theorem delaySum_nil : delaySum [] = 0 := rfl

@[simp] theorem delaySum_cons (e : Event) (es : List Event) : delaySum (e :: es) = delayOf e + delaySum es :=
  List.sum_cons

@[simp] theorem delaySum_append (xs ys : List Event) : delaySum (xs ++ ys) = delaySum xs + delaySum ys := by
  rw [delaySum, List.map_append, List.sum_append, delaySum, delaySum]

theorem delaySum_flatMap {α : Type} (xs : List α) (f : α → List Event) :
    delaySum (xs.flatMap f) = (xs.map fun x => delaySum (f x)).sum := by
  rw [delaySum, List.map_flatMap, List.flatMap_def, List.sum_flatten, List.map_map]
  rfl

/-- Lists with one delay sum each, one for every line of a group. -/
theorem delaySum_flatMap_finRange {n d : Nat} {f : Fin n → List Event} (h : ∀ k, delaySum (f k) = d) :
    delaySum ((List.finRange n).flatMap f) = n * d := by
  simp only [delaySum_flatMap, h, List.map_const', List.sum_replicate, List.length_finRange, smul_eq_mul]

theorem delaySum_eq_zero {es : List Event} (h : ∀ e ∈ es, delayOf e = 0) : delaySum es = 0 :=
  List.sum_eq_zero (List.forall_mem_map.2 h)

theorem delaySum_map_eq_zero {α : Type} {f : α → Event} (h : ∀ x, delayOf (f x) = 0) (xs : List α) :
    delaySum (xs.map f) = 0 :=
  delaySum_eq_zero (List.forall_mem_map.2 fun x _ => h x)

@[simp] theorem delaySum_text (text : List Byte) : delaySum (text.map .out) = 0 :=
  delaySum_map_eq_zero (fun _ => rfl) text

theorem delayOf_of_isText {e : Event} (h : isText e = true) : delayOf e = 0 := by
  cases e with
  | out c => rfl
  | _ => cases h

/-- Text asks for no delay, so the rest of a trace has its delay sum. -/
theorem delaySum_filter_not_isText (es : List Event) : delaySum (es.filter fun e => !isText e) = delaySum es := by
  induction es with
  | nil => rfl
  | cons e es ih =>
    cases h : isText e
    · rw [List.filter_cons_of_pos (by simp [h]), delaySum_cons, delaySum_cons, ih]
    · rw [List.filter_cons_of_neg (by simp [h]), ih, delaySum_cons, delayOf_of_isText h, Nat.zero_add]

/-! ### The delays of the procedures -/

@[simp] theorem delaySum_setAddrTrace (c : PinConfig) (a : Addr) : delaySum (setAddrTrace c a) = 0 :=
  delaySum_map_eq_zero (fun _ => rfl) _

@[simp] theorem delaySum_enterWriteTrace (c : PinConfig) : delaySum (enterWriteTrace c) = 0 := by
  rw [enterWriteTrace, delaySum_append, delaySum_flatMap_finRange (d := 0) fun _ => rfl]
  rfl

@[simp] theorem delaySum_enterReadTrace (us : Nat) (c : PinConfig) : delaySum (enterReadTrace us c) = us := by
  rw [enterReadTrace, delaySum_append, delaySum_map_eq_zero fun _ => rfl]
  simp [delayOf]

/-- Eight delays for the data lines and one inside the write pulse (R103). -/
@[simp] theorem delaySum_writeByteTrace (c : PinConfig) (v : Byte) (a : Addr) :
    delaySum (writeByteTrace c v a) = 9 * c.tBit.toNat := by
  have hdata : ∀ p : Fin 8, delaySum [.drv c.dataPin[p] (v.getLsbD (7 - p)), .dly c.tBit.toNat] = c.tBit.toNat :=
    fun _ => by simp [delayOf]
  simp only [writeByteTrace, delaySum_append, delaySum_flatMap_finRange hdata, delaySum_setAddrTrace, delaySum_cons,
    delaySum_nil, delayOf]
  omega

/-- One delay before each of the eight samples (R104). -/
@[simp] theorem delaySum_readByteTrace (us : Nat) (c : PinConfig) (a : Addr) (v : Byte) :
    delaySum (readByteTrace us c a v) = 8 * us :=
  delaySum_flatMap_finRange fun _ => by simp [delayOf]

@[simp] theorem delaySum_needWriteTrace (s : State) : delaySum (needWriteTrace s) = 0 := by
  unfold needWriteTrace
  split
  · rfl
  · exact delaySum_enterWriteTrace s.cfg

@[simp] theorem delaySum_needReadTrace (s : State) :
    delaySum (needReadTrace s) = if s.mode = .read then 0 else s.params.oeSettleUs := by
  unfold needReadTrace
  split
  · rfl
  · exact delaySum_enterReadTrace s.params.oeSettleUs s.cfg

/-- The reset sequence asks for no delay. -/
theorem delaySum_resetTrace (c : PinConfig) : delaySum (resetTrace c) = 0 := by
  rw [resetTrace, delaySum_append, delaySum_append, delaySum_flatMap_finRange (d := 0) fun _ => rfl,
    delaySum_map_eq_zero fun _ => rfl]
  rfl

@[simp] theorem delaySum_programTrace (c : PinConfig) (a : Nat) (vs : List Byte) :
    delaySum (programTrace c a vs) = 9 * c.tBit.toNat * vs.length := by
  induction vs generalizing a with
  | nil => rfl
  | cons v vs ih =>
    simp only [programTrace, delaySum_append, delaySum_cons, delaySum_nil, delayOf, delaySum_writeByteTrace, ih,
      List.length_cons]
    ring

@[simp] theorem delaySum_dumpTrace (q : Params) (c : PinConfig) (a : Nat) (vs : List Byte) :
    delaySum (dumpTrace q c a vs) = 8 * q.readSettleUs * vs.length := by
  induction vs generalizing a with
  | nil => rfl
  | cons v vs ih =>
    simp only [dumpTrace, delaySum_append, delaySum_text, delaySum_readByteTrace, ih, List.length_cons]
    ring

/-! ### The delays of the commands -/

/-- A finished command asks for the delays of its own events: ECHO text, which these leave out, asks for none. -/
theorem delaySum_of_finished {x s t e : State} {st : StatusCode} {res : BitVec 9} {es : List Event}
    (h : FinishedRun x s t st res e es) : delaySum (traceOf t) = delaySum (traceOf s) + delaySum es := by
  have hview := congrArg delaySum (h.trace (fun e => !isText e) (.inr fun _ => rfl))
  simpa only [view, delaySum_append, delaySum_filter_not_isText] using hview

theorem exec_quiet_delaySum {i : Instr} {s : State} {d : Nat} (hq : quiet s = true)
    (hd : delaySum (eventsOf i (blockOf (startOf i s))) = d) :
    ∃ t, exec i s = .next t ∧ delaySum (traceOf t) = delaySum (traceOf s) + d := by
  obtain ⟨t, hexec, hfin, -⟩ := exec_quiet i hq
  exact ⟨t, hexec, (delaySum_of_finished hfin).trans (congrArg _ hd)⟩

/-- A word with a reserved opcode that no input disturbs finishes without an event (R84). -/
theorem execReserved_quiet {s : State} (hq : quiet s = true) :
    ∃ t, execReserved s = .next t ∧ FinishedRun (accept s) s t .illegal 0 (blockOf (accept s)) [] := by
  obtain ⟨t, hexec, hfin, -⟩ :=
    command_quiet Proc.id .illegal (fun _ => 0) (fun _ => rfl) (fun s => s) (fun _ => rfl) hq
  exact ⟨t, hexec, hfin.cut, hfin.block, hfin.trace, hfin.pos⟩

theorem delaySum_eventsOf_writeByte (v : Byte) (a : Addr) (b : State) :
    delaySum (eventsOf (.writeByte v a) b) = 9 * b.cfg.tBit.toNat := by
  rw [eventsOf, delaySum_append, delaySum_needWriteTrace, delaySum_writeByteTrace, Nat.zero_add]

/-- With a sink, one delay before each of the eight samples, and ENTER_READ's where the mode asks for it (R104). -/
theorem delaySum_eventsOf_readByte (a : Addr) (b : State) :
    delaySum (eventsOf (.readByte a) b) =
      if (workOf b).sink = true then
        8 * b.params.readSettleUs + (if b.mode = .read then 0 else b.params.oeSettleUs)
      else 0 := by
  rw [eventsOf]
  split
  · rw [readTrace_eq, delaySum_append, delaySum_needReadTrace, delaySum_readByteTrace, Nat.add_comm]
  · rfl

/-- PROGRAM's events: the writes of the bytes the source yields, at most as many as its range has addresses, and the
query that answers "false", if any (R140, R142). -/
theorem eventsOf_program (a f : Addr) {b : State} (h : b.work.isSome = true) {vs : List Byte}
    (hvs : vs = (sourceBytes b.source).take (programSpan a f)) :
    eventsOf (.program a f) b =
      needWriteTrace b ++
        (programTrace b.cfg a.toNat vs ++ if vs.length < programSpan a f then [.srcQ false] else []) := by
  obtain ⟨hwork, ha, hbound⟩ := programLoopStart_work a f h
  have hsource : (programLoopStart a f b).source = b.source := doNeedWrite_source b
  have hcfg : (programLoopStart a f b).cfg = b.cfg := (doNeedWrite_core b).cfg
  obtain ⟨htrace, -⟩ :=
    doProgramLoop_spec (programSpan a f) (programLoopStart a f b) vs hwork (doNeedWrite_mode b)
      (by rw [hbound, programBound_toNat]; exact Nat.min_le_right _ _)
      (by rw [ha, hbound, programBound_toNat, programSpan]) (by rw [hsource, hvs])
  rw [ha, hcfg] at htrace
  exact congrArg (needWriteTrace b ++ ·) htrace

theorem delaySum_eventsOf_program (a f : Addr) {b : State} (h : b.work.isSome = true) :
    delaySum (eventsOf (.program a f) b) =
      9 * b.cfg.tBit.toNat * ((sourceBytes b.source).take (programSpan a f)).length := by
  rw [eventsOf_program a f h rfl, delaySum_append, delaySum_append, delaySum_needWriteTrace, delaySum_programTrace,
    Nat.zero_add]
  split <;> rfl

/-- With a sink, the delays of as many reads as DUMP's range has addresses (R147), and ENTER_READ's where needed. -/
theorem delaySum_eventsOf_dump (a : Addr) (n : BitVec 16) {b : State} (h : b.work.isSome = true) :
    delaySum (eventsOf (.dump a n) b) =
      if (workOf b).sink = true then
        8 * b.params.readSettleUs * dumpCount a n + (if b.mode = .read then 0 else b.params.oeSettleUs)
      else 0 := by
  obtain ⟨vs, hlen, htrace, -⟩ := doDump_spec a n h
  unfold dumpLoopStart at htrace
  rw [eventsOf]
  split
  · rw [htrace, delaySum_append, delaySum_needReadTrace, delaySum_dumpTrace, hlen, Nat.add_comm]
  · rfl

/-- Settles O48: the delay sum of a command is that of its own events, which are known for each. -/
theorem delaySums : Obligations.DelaySums := by
  intro s a f v n c hq
  have hdump := exec_quiet_delaySum hq (delaySum_eventsOf_dump a n (b := blockOf (accept s)) rfl)
  rw [dumpCount, dumpBase_toNat] at hdump
  obtain ⟨t, hreserved, hfin⟩ := execReserved_quiet hq
  exact ⟨exec_quiet_delaySum (d := 0) hq (delaySum_setAddrTrace s.cfg a),
    exec_quiet_delaySum (d := 0) hq (delaySum_enterWriteTrace s.cfg),
    exec_quiet_delaySum hq (delaySum_enterReadTrace s.params.oeSettleUs s.cfg),
    exec_quiet_delaySum hq (delaySum_eventsOf_writeByte v a (blockOf (accept s))),
    exec_quiet_delaySum hq (delaySum_eventsOf_readByte a (blockOf (accept s))),
    exec_quiet_delaySum hq (delaySum_eventsOf_program a f (b := blockOf (allowEcho (accept s))) rfl),
    hdump, ⟨t, hreserved, delaySum_of_finished hfin⟩, delaySum_resetTrace c⟩

end Sys2Proof.Proofs

/-! ## Decoding (30_encoding.md R81 to R84) and the steps between commands (R86, 60_exceptions.md R179, R182) -/

namespace Sys2Proof.Proofs

open Sys2Proof Sys2Proof.Machine Sys2Proof.Safety Sys2Proof.Laws Sys2Proof.Laws.OpcodeInLowByte

/-! ### The encoder and the reserved opcodes -/

/-- The encoder puts each operand into the field its command reads it from (R83). -/
theorem encode_readsOperands (i : Instr) : ReadsOperands (encode i) i := by
  cases i with
  | enterWrite | enterRead => trivial
  | setAddress | readByte => exact addrField_cmdWord ..
  | writeByte => exact ⟨addrField_cmdWord .., dataField_cmdWord ..⟩
  | program | dump => exact ⟨argField_cmdWord .., addrField_cmdWord ..⟩

theorem opField_encode (i : Instr) : opField (encode i) = i.opcode := by
  cases i <;> exact opField_cmdWord ..

/-- Settles O1: the encoding has the command's opcode and its operands in the fields the decoder reads. -/
theorem decodeOfEncodeIsTheCommand : Obligations.DecodeOfEncodeIsTheCommand := fun i _ =>
  decode_eq_ok_iff.2 ⟨encode_readsOperands i, opField_encode i⟩

/-- The decoder's last arm is that of the reserved opcodes (R84). -/
theorem decode_eq_error_iff {w : CmdWord} :
    decode w = .error (.reservedOpcode (opField w)) ↔ opField w = 0 ∨ 0x08 ≤ (opField w).toNat := by
  rw [← BitVec.toNat_inj, BitVec.ofNat_eq_ofNat, BitVec.toNat_ofNat]
  unfold decode
  split
  case h_8 =>
    refine iff_of_true rfl ?_
    simp only [imp_false] at *
    omega
  all_goals exact iff_of_false nofun (by omega)

/-- Settles O3: every other arm of `decode` is for an OP from 1 to 7. -/
theorem reservedOpcodesAreRejected : Obligations.ReservedOpcodesAreRejected := fun _ => decode_eq_error_iff

/-- Settles O4: seven words, evaluated. -/
theorem writtenWordsDecode : Obligations.WrittenWordsDecode := by
  unfold Obligations.WrittenWordsDecode
  decide

/-! ### Between commands -/

/-- A CMD write to the idle block issues its word. -/
theorem step_command {s : State} {after : Option Nat} {w : CmdWord} {rest : List TimedInput} (hidle : s.busy = false)
    (hhost : s.host = ⟨after, .write 0 w⟩ :: rest) : step s = issueWord w { s with host := rest } :=
  (step_of_host hhost).trans (if_neg (by simp [hidle]))

theorem issueWord_of_ok {w : CmdWord} {i : Instr} (h : decode w = .ok i) (s : State) : issueWord w s = exec i s := by
  rw [issueWord, h]

theorem issueWord_of_error {w : CmdWord} {e : DecodeError} (h : decode w = .error e) (s : State) :
    issueWord w s = execReserved s := by
  rw [issueWord, h]

theorem decode_of_decodeTableWord {n w : Nat} {i : Instr} (h : decodeTableWord n w = some i) :
    decode (tableWord n w) = .ok i := by
  unfold decodeTableWord at h
  cases hw : decode (tableWord n w) with
  | ok j => rw [hw] at h; exact congrArg Except.ok (Option.some.inj h)
  | error e => rw [hw] at h; cases h

/-- Settles O5: an accepted word is decoded and dispatched; `withFetchWord` offers the word of the opcode table. -/
theorem stepRunsTheDecodedCommand : Obligations.StepRunsTheDecodedCommand := by
  refine ⟨fun s i w after rest hidle hhost hw => ?_, fun s i n hidle hw => ?_⟩
  · rw [step_command hidle hhost, issueWord_of_ok hw]
  · have hfetch : (s.withFetchWord 48 n).host = ⟨none, .write 0 (tableWord 48 n)⟩ :: s.host := rfl
    rw [step_command (s := s.withFetchWord 48 n) hidle hfetch, issueWord_of_ok (decode_of_decodeTableWord hw)]
    rfl

/-- Settles O7: with no input to come nothing is taken in. -/
theorem idleBlockKeepsItsState : Obligations.IdleBlockKeepsItsState := by
  intro s hhost
  rw [step, admitNext, hhost]

/-- Settles O11: the idle block takes the level as it is. -/
theorem hostSetsTheSinkBetweenCommands : Obligations.HostSetsTheSinkBetweenCommands := by
  intro s b after rest hidle hhost
  rw [step_of_host hhost]
  exact if_neg (by simp [hidle])

/-! ### Commands without an event -/

/-- The block after a command that issued no event: STATUS, RESULT, and one free value taken at acceptance. -/
def finishedAtOnce (st : StatusCode) (s : State) : State :=
  { s with last := st, result := 0, busy := false, work := none, pos := 0, cut := none, draws := s.draws + 1 }

/-- A command that finishes at its acceptance, where no input disturbs it. -/
theorem conclude_finish_accept (st : StatusCode) {s : State} (hq : quiet s = true) :
    conclude s.host.length (finish st 0 (accept s)) = .next (finishedAtOnce st s) := by
  rw [finish, issue_quiet (accept_quiet s ▸ hq) (accept_live s) (accept_echoing s)]
  exact conclude_of_live rfl

theorem finishedAtOnce_with (st : StatusCode) (s : State) : FinishedWith st 0 (finishedAtOnce st s) :=
  ⟨rfl, rfl, rfl, rfl, rfl⟩

/-- Settles O6: a reserved word is `finish(ILLEGAL)` at its acceptance. -/
theorem reservedOpcodeFinishesIllegal : Obligations.ReservedOpcodeFinishesIllegal := by
  intro s w after rest hidle hhost hq hop
  refine ⟨finishedAtOnce .illegal { s with host := rest }, ?_, finishedAtOnce_with _ _, rfl⟩
  rw [step_command hidle hhost, issueWord_of_error (decode_eq_error_iff.2 hop)]
  exact conclude_finish_accept .illegal hq

/-- READ_BYTE and DUMP without a sink are `finish(NO_SINK)` at their acceptance (60_exceptions.md R173, R174). -/
theorem exec_without_sink {i : Instr} (hi : (∃ a, i = .readByte a) ∨ ∃ a n, i = .dump a n) {s : State}
    (hq : quiet s = true) (hsink : s.sinkAvail = false) : exec i s = .next (finishedAtOnce .noSink s) := by
  have hnosink : ¬ (workOf (accept s)).sink = true := by simp [hsink]
  rcases hi with ⟨a, rfl⟩ | ⟨a, n, rfl⟩
  · rw [exec, execReadByte, command, if_neg hnosink, conclude_finish_accept .noSink hq]
  · rw [exec, execDump, command, if_neg hnosink, conclude_finish_accept .noSink hq]

/-- Settles O26: READ_BYTE without a sink finishes at its acceptance. -/
theorem readByteWithoutSinkTouchesNothing : Obligations.ReadByteWithoutSinkTouchesNothing := fun s a hq hsink =>
  ⟨_, exec_without_sink (.inl ⟨a, rfl⟩) hq hsink, finishedAtOnce_with .noSink s, rfl⟩

/-- Settles O37: DUMP without a sink finishes at its acceptance. -/
theorem dumpWithoutSinkTouchesNothing : Obligations.DumpWithoutSinkTouchesNothing := fun s a n hq hsink =>
  ⟨_, exec_without_sink (.inr ⟨a, n, rfl⟩) hq hsink, finishedAtOnce_with .noSink s, rfl⟩

end Sys2Proof.Proofs

/-! ## The events of the commands (00_scope.md R14 to R16; 40_bus_driver.md R100 to R104, R135) -/

namespace Sys2Proof.Proofs

open Sys2Proof Sys2Proof.Machine Sys2Proof.Safety Sys2Proof.Laws

/-! ### Pin events, text and answers -/

/-- The events are all of the pin bank. -/
def AllPins (es : List Event) : Prop := ∀ e ∈ es, isPin e = true

theorem AllPins.nil : AllPins [] := nofun

theorem allPins_append {xs ys : List Event} : AllPins (xs ++ ys) ↔ AllPins xs ∧ AllPins ys := List.forall_mem_append

theorem allPins_cons {e : Event} {es : List Event} : AllPins (e :: es) ↔ isPin e = true ∧ AllPins es :=
  List.forall_mem_cons

theorem allPins_map {α : Type} {f : α → Event} (h : ∀ x, isPin (f x) = true) (xs : List α) :
    AllPins (xs.map f) :=
  List.forall_mem_map.2 fun x _ => h x

theorem allPins_flatMap {α : Type} {f : α → List Event} (h : ∀ x, AllPins (f x)) (xs : List α) :
    AllPins (xs.flatMap f) := fun e he => by
  obtain ⟨x, -, hx⟩ := List.mem_flatMap.1 he
  exact h x e hx

theorem outChar_of_isPin {e : Event} (h : isPin e = true) : outChar e = none := by
  cases e with
  | out c => cases h
  | _ => rfl

theorem AllPins.filter_isPin {es : List Event} (h : AllPins es) : es.filter isPin = es := List.filter_eq_self.2 h

theorem AllPins.text {es : List Event} (h : AllPins es) : es.filterMap outChar = [] :=
  List.filterMap_eq_nil_iff.2 fun e he => outChar_of_isPin (h e he)

/-- A list with no text is seen as it is where text is left out. -/
theorem filter_not_isText_of_text {es : List Event} (h : es.filterMap outChar = []) :
    (es.filter fun e => !isText e) = es :=
  List.filter_eq_self.2 fun e he => by simp [isText, List.filterMap_eq_nil_iff.1 h e he]

theorem filter_text (p : Event → Bool) (hp : ∀ c, p (.out c) = false) (text : List Byte) :
    (text.map Event.out).filter p = [] :=
  List.filter_eq_nil_iff.2 (List.forall_mem_map.2 fun c _ => by simp [hp c])

theorem setAddrTrace_pins (c : PinConfig) (a : Addr) : AllPins (setAddrTrace c a) := allPins_map (fun _ => rfl) _

theorem enterWriteTrace_pins (c : PinConfig) : AllPins (enterWriteTrace c) :=
  allPins_append.2 ⟨allPins_flatMap (fun _ => by simp [AllPins, isPin]) _, by simp [AllPins, isPin]⟩

theorem enterReadTrace_pins (us : Nat) (c : PinConfig) : AllPins (enterReadTrace us c) :=
  allPins_append.2 ⟨allPins_map (fun _ => rfl) _, by simp [AllPins, isPin]⟩

theorem writeByteTrace_pins (c : PinConfig) (v : Byte) (a : Addr) : AllPins (writeByteTrace c v a) := by
  simp only [writeByteTrace, allPins_append, allPins_cons]
  have hdata := allPins_flatMap (α := Fin 8) (f := fun p =>
    [.drv c.dataPin[p] (v.getLsbD (7 - p)), .dly c.tBit.toNat]) (fun _ => by simp [AllPins, isPin]) (List.finRange 8)
  exact ⟨⟨⟨hdata, rfl, .nil⟩, setAddrTrace_pins c a⟩, rfl, rfl, rfl, .nil⟩

theorem readByteTrace_pins (us : Nat) (c : PinConfig) (a : Addr) (v : Byte) : AllPins (readByteTrace us c a v) :=
  allPins_flatMap (fun _ => allPins_append.2 ⟨setAddrTrace_pins c a, by simp [AllPins, isPin]⟩) _

theorem needWriteTrace_pins (s : State) : AllPins (needWriteTrace s) := by
  unfold needWriteTrace
  split
  · exact .nil
  · exact enterWriteTrace_pins s.cfg

theorem needReadTrace_pins (s : State) : AllPins (needReadTrace s) := by
  unfold needReadTrace
  split
  · exact .nil
  · exact enterReadTrace_pins s.params.oeSettleUs s.cfg

theorem programTrace_text (c : PinConfig) (a : Nat) (vs : List Byte) :
    (programTrace c a vs).filterMap outChar = [] := by
  induction vs generalizing a with
  | nil => rfl
  | cons v vs ih =>
    rw [programTrace, List.filterMap_append, List.filterMap_append, (writeByteTrace_pins c v _).text, ih]
    rfl

/-- The pin events of the writes of bytes vs from address a up: those of PROGRAM without its queries and reads. -/
def writesTrace (c : PinConfig) : Nat → List Byte → List Event
  | _, [] => []
  | a, v :: vs => writeByteTrace c v (BitVec.ofNat 16 a) ++ writesTrace c (a + 1) vs

theorem programTrace_filter_isPin (c : PinConfig) (a : Nat) (vs : List Byte) :
    (programTrace c a vs).filter isPin = writesTrace c a vs := by
  induction vs generalizing a with
  | nil => rfl
  | cons v vs ih =>
    rw [programTrace, List.filter_append, List.filter_append, (writeByteTrace_pins c v _).filter_isPin, ih]
    rfl

/-- The pin events of reads of n addresses from a up, with the answers left out. -/
def readsTrace (us : Nat) (c : PinConfig) : Nat → Nat → List Event
  | _, 0 => []
  | a, n + 1 => readByteTrace us c (BitVec.ofNat 16 a) 0 ++ readsTrace us c (a + 1) n

/-- Without its answers a read's events do not depend on the byte read: those of the byte 0 remain. -/
theorem readByteTrace_unanswered (us : Nat) (c : PinConfig) (a : Addr) (v : Byte) :
    (readByteTrace us c a v).map unanswered = readByteTrace us c a 0 := by
  simp [readByteTrace, setAddrTrace, List.map_flatMap, Function.comp_def, unanswered]

/-- Through a filter that keeps the pin events and hides text, DUMP's events without answers are those of its reads. -/
theorem dumpTrace_unanswered {p : Event → Bool} (hpin : ∀ e, isPin e = true → p e = true)
    (htext : ∀ c, p (.out c) = false) (q : Params) (c : PinConfig) (a : Nat) (vs : List Byte) :
    ((dumpTrace q c a vs).filter p).map unanswered = readsTrace q.readSettleUs c a vs.length := by
  induction vs generalizing a with
  | nil => rfl
  | cons v vs ih =>
    have hread : (readByteTrace q.readSettleUs c (BitVec.ofNat 16 a) v).filter p = _ :=
      List.filter_eq_self.2 fun e he => hpin e (readByteTrace_pins _ _ _ _ e he)
    simp only [dumpTrace, List.filter_append, filter_text p htext, hread, List.map_append, readByteTrace_unanswered, ih,
      List.nil_append, List.append_nil, List.length_cons, readsTrace]

/-! ### The traces of finished commands -/

/-- ECHO text is not seen where text is left out. -/
theorem silent_nonText (x : State) : Silent (fun e => !isText e) x := .inr fun _ => rfl

theorem nonTextTrace_of_finished {i : Instr} {s t : State} (h : Finished i s t) :
    nonTextTrace t = nonTextTrace s ++ (eventsOf i (blockOf (startOf i s))).filter fun e => !isText e :=
  h.trace _ (silent_nonText _)

/-- Without a sink, and in every command but PROGRAM, there is no ECHO text (41_programmer.md R143). -/
theorem startOf_not_echoing {i : Instr} {s : State} (hi : s.sinkAvail = false ∨ ∀ a f, i ≠ .program a f) :
    (workOf (startOf i s)).echoing = false := by
  refine Bool.eq_false_iff.2 fun hecho => ?_
  obtain ⟨hsink, a, f, hprogram⟩ := startOf_echoing i s hecho
  rcases hi with hnosink | hno
  · exact absurd (hnosink.symm.trans hsink) nofun
  · exact hno a f hprogram

/-- Where there is no ECHO text, a finished command appends exactly its events. -/
theorem traceOf_of_finished {i : Instr} {s t : State} (h : Finished i s t)
    (hi : s.sinkAvail = false ∨ ∀ a f, i ≠ .program a f) :
    traceOf t = traceOf s ++ eventsOf i (blockOf (startOf i s)) := by
  simpa only [view, List.filter_true] using h.trace (fun _ => true) (.inl (startOf_not_echoing hi))

/-! ### How many events -/

@[simp] theorem setAddrTrace_length (c : PinConfig) (a : Addr) : (setAddrTrace c a).length = 15 := by
  simp [setAddrTrace]

@[simp] theorem enterWriteTrace_length (c : PinConfig) : (enterWriteTrace c).length = 17 := by
  simp [enterWriteTrace]

@[simp] theorem enterReadTrace_length (us : Nat) (c : PinConfig) : (enterReadTrace us c).length = 10 := by
  simp [enterReadTrace]

@[simp] theorem readByteTrace_length (us : Nat) (c : PinConfig) (a : Addr) (v : Byte) :
    (readByteTrace us c a v).length = 136 := by
  simp [readByteTrace]

@[simp] theorem needWriteTrace_length (s : State) : (needWriteTrace s).length = if s.mode = .write then 0 else 17 := by
  unfold needWriteTrace
  split <;> simp

@[simp] theorem needReadTrace_length (s : State) : (needReadTrace s).length = if s.mode = .read then 0 else 10 := by
  unfold needReadTrace
  split <;> simp

/-- A query, a read and a write for each byte (41_programmer.md R140). -/
@[simp] theorem programTrace_length (c : PinConfig) (a : Nat) (vs : List Byte) :
    (programTrace c a vs).length = 37 * vs.length := by
  induction vs generalizing a with
  | nil => rfl
  | cons v vs ih =>
    simp only [programTrace, List.length_append, ih, writeByteTrace_length, List.length_cons, List.length_nil]
    omega

@[simp] theorem readsTrace_length (us : Nat) (c : PinConfig) (a n : Nat) : (readsTrace us c a n).length = 136 * n := by
  induction n generalizing a with
  | zero => rfl
  | succ n ih =>
    rw [readsTrace, List.length_append, readByteTrace_length, ih]
    omega

end Sys2Proof.Proofs

/-! ## What a finished command leaves on the lines and in the source (10_state.md R40; 41_programmer.md R141) -/

namespace Sys2Proof.Proofs

open Sys2Proof Sys2Proof.Machine Sys2Proof.Safety Sys2Proof.Laws

/-! ### Line records -/

theorem opsLines_setAddr_getLine (a : Addr) (ls : Lines) (l : LineId) :
    getLine (opsLines (setAddrOps a) ls) l =
      match l with
      | .addr k => { getLine ls (.addr k) with out := outOf (a.getLsbD k) }
      | m => getLine ls m := by
  have h := setAddr_getLine a { State.reset with lines := ls } l
  rw [applyOps_lines] at h
  cases l <;> exact h

theorem opsLines_enterRead_getLine (us : Nat) (ls : Lines) (l : LineId) :
    getLine (opsLines (enterReadOps us) ls) l =
      match l with
      | .data p => { getLine ls (.data p) with dir := .input }
      | .oe => { getLine ls .oe with out := .low }
      | m => getLine ls m := by
  have h := enterRead_getLine us { State.reset with lines := ls } l
  rw [applyOps_lines] at h
  cases l <;> exact h

theorem data_eq_of_getLine {a b : Lines} (h : ∀ p, getLine a (.data p) = getLine b (.data p)) : a.data = b.data :=
  Vector.ext fun i hi => h ⟨i, hi⟩

theorem addr_eq_of_getLine {a b : Lines} (h : ∀ k, getLine a (.addr k) = getLine b (.addr k)) : a.addr = b.addr :=
  Vector.ext fun i hi => h ⟨i, hi⟩

theorem outOf_eq_ite (b : Bool) : outOf b = if b = true then .high else .low := by cases b <;> rfl

/-- The lines once the mode is WRITE (40_bus_driver.md R103, first line). -/
def linesForWrite (s : State) : Lines := if s.mode = .write then s.lines else opsLines enterWriteOps s.lines

/-- The lines once the mode is READ (R104, first line). -/
def linesForRead (s : State) : Lines :=
  if s.mode = .read then s.lines else opsLines (enterReadOps s.params.oeSettleUs) s.lines

theorem doNeedWrite_lines (b : State) : (doNeedWrite b).lines = linesForWrite b := by
  unfold doNeedWrite linesForWrite
  split
  · rfl
  · exact applyOps_lines enterWriteOps b

theorem doNeedRead_lines (b : State) : (doNeedRead b).lines = linesForRead b := by
  unfold doNeedRead linesForRead
  split
  · rfl
  · exact applyOps_lines (enterReadOps b.params.oeSettleUs) b

theorem linesForWrite_getLine (s : State) (l : LineId) :
    getLine (linesForWrite s) l = if s.mode = .write then getLine s.lines l else
      match l with
      | .data _ => ⟨.output, .low⟩
      | .oe => { getLine s.lines .oe with out := .high }
      | m => getLine s.lines m := by
  have h := doNeedWrite_getLine s l
  rw [doNeedWrite_lines] at h
  exact h

theorem linesForRead_getLine (s : State) (l : LineId) :
    getLine (linesForRead s) l = if s.mode = .read then getLine s.lines l else
      match l with
      | .data p => { getLine s.lines (.data p) with dir := .input }
      | .oe => { getLine s.lines .oe with out := .low }
      | m => getLine s.lines m := by
  have h := doNeedRead_getLine s l
  rw [doNeedRead_lines] at h
  exact h

/-- The lines after reads of n addresses from a up, in mode READ. -/
def readsLines : Nat → Nat → Lines → Lines
  | _, 0, ls => ls
  | a, n + 1, ls => readsLines (a + 1) n (opsLines (setAddrOps (BitVec.ofNat 16 a)) ls)

theorem ofNat_getLsbD (a : Nat) (k : Fin 15) : (BitVec.ofNat 16 a).getLsbD k = a.testBit k := by
  rw [BitVec.getLsbD_ofNat, decide_eq_true (by omega), Bool.true_and]

/-- The last address stays on the address lines; no other line changes. -/
theorem readsLines_getLine (a n : Nat) (ls : Lines) (l : LineId) :
    getLine (readsLines a n ls) l =
      match l with
      | .addr k => if n = 0 then getLine ls (.addr k)
          else { getLine ls (.addr k) with out := outOf ((a + n - 1).testBit k) }
      | m => getLine ls m := by
  induction n generalizing a ls with
  | zero => cases l <;> rfl
  | succ n ih =>
    rw [readsLines, ih]
    cases l with
    | addr k =>
      simp only [opsLines_setAddr_getLine, ofNat_getLsbD]
      rcases Nat.eq_zero_or_pos n with rfl | hn
      · rfl
      · rw [if_neg (by omega), if_neg (by omega), show a + 1 + n - 1 = a + (n + 1) - 1 by omega]
    | data | we | oe => simp only [opsLines_setAddr_getLine]

/-! ### PROGRAM and DUMP -/

/-- The bytes PROGRAM writes: those the source yields, at most as many as its range has addresses (R142). -/
def programBytes (a f : Addr) (src : ByteSource) : List Byte := (sourceBytes src).take (programSpan a f)

/-- The source after PROGRAM: it is advanced by the bytes written, and by one answer for each query (log 16). -/
def programSource (a f : Addr) (src : ByteSource) : ByteSource where
  answers := src.answers.drop ((programBytes a f src).length +
    if (programBytes a f src).length < programSpan a f then 1 else 0)
  bytes := src.bytes.drop (programBytes a f src).length

/-- PROGRAM's block, whatever bus it finds. -/
theorem doProgram_fields (a f : Addr) {b : State} (hwork : b.work.isSome = true) :
    (doProgram a f b).source = programSource a f b.source ∧ (doProgram a f b).samples = b.samples ∧
      (doProgram a f b).lines =
        writesLines b.cfg.tBit.toNat a.toNat (programBytes a f b.source) (linesForWrite b) := by
  obtain ⟨hstart, ha, hbound⟩ := programLoopStart_work a f hwork
  have hsource : (programLoopStart a f b).source = b.source := doNeedWrite_source b
  have hlines : (programLoopStart a f b).lines = linesForWrite b := doNeedWrite_lines b
  have hcfg : (programLoopStart a f b).cfg = b.cfg := (doNeedWrite_core b).cfg
  obtain ⟨-, -, hs, hsamples, hl, -⟩ :=
    doProgramLoop_spec (programSpan a f) (programLoopStart a f b) (programBytes a f b.source) hstart
      (doNeedWrite_mode b) (by rw [hbound, programBound_toNat]; exact Nat.min_le_right _ _)
      (by rw [ha, hbound, programBound_toNat, programSpan]) (by rw [hsource]; rfl)
  rw [hsource] at hs
  rw [ha, hcfg, hlines] at hl
  exact ⟨hs, hsamples.trans (doNeedWrite_samples b), hl⟩

theorem doDump_lines (a : Addr) (n : BitVec 16) {b : State} (hwork : b.work.isSome = true) :
    (doDump a n b).lines = readsLines (dumpBase a).toNat (dumpCount a n) (linesForRead b) := by
  obtain ⟨vs, hlen, -, -, -, hlines, -⟩ := doDump_spec a n hwork
  refine lines_ext fun l => ?_
  rw [hlines, readsLines_getLine, ← hlen]
  cases l with
  | addr k => simp only [linesForRead_getLine, ite_self, driven_eq, List.length_eq_zero_iff]
  | data | we | oe => simp only [doNeedRead_lines]

theorem doReadByte_lines (a : Addr) (b : State) :
    (doReadByte a b).lines = opsLines (setAddrOps a) (linesForRead b) :=
  lines_ext fun l => by
    cases l <;> simp only [doReadByte_getLine, opsLines_setAddr_getLine, doNeedRead_lines]

/-! ### What every command leaves -/

theorem doEnterRead_lines (b : State) :
    (doEnterRead b).lines = opsLines (enterReadOps b.params.oeSettleUs) b.lines :=
  applyOps_lines (enterReadOps b.params.oeSettleUs) b

theorem doEnterRead_source (b : State) : (doEnterRead b).source = b.source :=
  applyOps_source (enterReadOps b.params.oeSettleUs) b

theorem doEnterRead_samples (b : State) : (doEnterRead b).samples = b.samples :=
  applyOps_samples (enterReadOps b.params.oeSettleUs) b

theorem doEnterRead_dev (b : State) : (doEnterRead b).dev = b.dev :=
  (applyOps_dev (enterRead_spares b.params.oeSettleUs) b).1

/-- The lines a command leaves when it finishes. -/
def linesAfter (i : Instr) (s : State) : Lines :=
  match i with
  | .setAddress a => opsLines (setAddrOps a) s.lines
  | .enterWrite => opsLines enterWriteOps s.lines
  | .enterRead => opsLines (enterReadOps s.params.oeSettleUs) s.lines
  | .writeByte v a => opsLines (writeByteOps s.cfg.tBit.toNat v a) (linesForWrite s)
  | .readByte a => if s.sinkAvail then opsLines (setAddrOps a) (linesForRead s) else s.lines
  | .program a f => writesLines s.cfg.tBit.toNat a.toNat (programBytes a f s.source) (linesForWrite s)
  | .dump a n =>
    if s.sinkAvail then readsLines (dumpBase a).toNat (dumpCount a n) (linesForRead s) else s.lines

/-- The source a command leaves: only PROGRAM asks it. -/
def sourceAfter (i : Instr) (s : State) : ByteSource :=
  match i with
  | .program a f => programSource a f s.source
  | _ => s.source

theorem doWriteByte_lines (v : Byte) (a : Addr) (b : State) :
    (doWriteByte v a b).lines = opsLines (writeByteOps b.cfg.tBit.toNat v a) (linesForWrite b) := by
  rw [doWriteByte, applyOps_lines, doNeedWrite_lines]

theorem lines_of_finished {i : Instr} {s t : State} (h : Finished i s t) : t.lines = linesAfter i s := by
  refine (h.field State.lines fun _ => rfl).trans ?_
  cases i with
  | setAddress a => exact applyOps_lines (setAddrOps a) (blockOf (accept s))
  | enterWrite => exact doEnterWrite_lines (blockOf (accept s))
  | enterRead => exact doEnterRead_lines (blockOf (accept s))
  | writeByte v a => exact doWriteByte_lines v a (blockOf (accept s))
  | readByte a =>
    exact (apply_ite State.lines _ _ _).trans (if_congr Iff.rfl (doReadByte_lines a (blockOf (accept s))) rfl)
  | program a f => exact (doProgram_fields a f (b := blockOf (allowEcho (accept s))) rfl).2.2
  | dump a n =>
    exact (apply_ite State.lines _ _ _).trans
      (if_congr Iff.rfl (doDump_lines a n (b := blockOf (accept s)) rfl) rfl)

theorem source_of_finished {i : Instr} {s t : State} (h : Finished i s t) : t.source = sourceAfter i s := by
  refine (h.field State.source fun _ => rfl).trans ?_
  cases i with
  | setAddress a => exact applyOps_source (setAddrOps a) (blockOf (accept s))
  | enterWrite => exact doEnterWrite_source (blockOf (accept s))
  | enterRead => exact doEnterRead_source (blockOf (accept s))
  | writeByte v a => exact (applyOps_source _ _).trans (doNeedWrite_source _)
  | readByte a =>
    exact (apply_ite State.source _ _ _).trans (ite_eq_right_iff.2 fun _ => (doReadByte_fields a _).2.1)
  | program a f => exact (doProgram_fields a f (b := blockOf (allowEcho (accept s))) rfl).1
  | dump a n =>
    obtain ⟨-, -, -, hsource, -⟩ := doDump_spec a n (b := blockOf (accept s)) rfl
    exact (apply_ite State.source _ _ _).trans (ite_eq_right_iff.2 fun _ => hsource)

/-- A command that writes no byte, so that WE makes no falling edge. -/
def writesNothing : Instr → Bool
  | .writeByte _ _ => false
  | .program _ _ => false
  | _ => true

theorem dev_of_finished {i : Instr} {s t : State} (h : Finished i s t) (hi : writesNothing i = true) :
    t.dev = s.dev := by
  refine (h.field State.dev fun _ => rfl).trans ?_
  cases i with
  | setAddress a => exact (applyOps_dev (setAddr_spares a) (blockOf (accept s))).1
  | enterWrite => exact doEnterWrite_dev (blockOf (accept s))
  | enterRead => exact doEnterRead_dev (blockOf (accept s))
  | writeByte v a => cases hi
  | readByte a => exact (apply_ite State.dev _ _ _).trans (ite_eq_right_iff.2 fun _ => (doReadByte_fields a _).2.2)
  | program a f => cases hi
  | dump a n =>
    obtain ⟨-, -, -, -, hdev, -⟩ := doDump_spec a n (b := blockOf (accept s)) rfl
    exact (apply_ite State.dev _ _ _).trans (ite_eq_right_iff.2 fun _ => hdev)

/-- A command that samples no line. -/
def samplesNothing : Instr → Bool
  | .readByte _ => false
  | .dump _ _ => false
  | _ => true

theorem samples_of_finished {i : Instr} {s t : State} (h : Finished i s t) (hi : samplesNothing i = true) :
    t.samples = s.samples := by
  refine (h.field State.samples fun _ => rfl).trans ?_
  cases i with
  | setAddress a => exact applyOps_samples (setAddrOps a) (blockOf (accept s))
  | enterWrite => exact doEnterWrite_samples (blockOf (accept s))
  | enterRead => exact doEnterRead_samples (blockOf (accept s))
  | writeByte v a => exact (applyOps_samples _ _).trans (doNeedWrite_samples _)
  | readByte a => cases hi
  | program a f => exact (doProgram_fields a f (b := blockOf (allowEcho (accept s))) rfl).2.1
  | dump a n => cases hi

end Sys2Proof.Proofs

/-! ## The bus invariant (10_state.md R36, R41, R46, R49) -/

namespace Sys2Proof.Proofs

open Sys2Proof Sys2Proof.Machine Sys2Proof.Safety Sys2Proof.Laws

/-! ### The lines in a mode -/

/-- How the invariant has one line in mode m. -/
def LineInOrder (m : BusMode) : LineId → Line → Prop
  | .addr _, x => x.dir = .output ∧ known x
  | .data _, x => if m = .write then x.dir = .output ∧ known x else x.dir = .input
  | .we, x => x = ⟨.output, .high⟩
  | .oe, x => x.dir = .output ∧ x.out = if m = .read then .low else .high

/-- The lines are as the invariant has them in mode m. -/
def InOrder (m : BusMode) (ls : Lines) : Prop := ∀ l, LineInOrder m l (getLine ls l)

/-- The invariant's clauses on the lines say that every line is as its mode has it. -/
theorem inOrder_of_busInv {s : State} (h : BusInv s) : InOrder s.mode s.lines
  | .addr k => h.addr k
  | .data p => by
    cases hm : s.mode with
    | uninit => exact (h.uninit hm).2 p
    | read => exact (h.read hm).2 p
    | write => exact (h.write hm).2 p
  | .we => h.we
  | .oe => by
    refine ⟨h.oeDir, ?_⟩
    show s.lines.oe.out = _
    cases hm : s.mode with
    | uninit => exact (h.uninit hm).1
    | read => exact (h.read hm).1
    | write => exact (h.write hm).1

theorem busInv_of_inOrder {s : State} (hlines : InOrder s.mode s.lines) (pins : s.cfg.wellFormed = true)
    (idle : s.busy = false ∧ s.work = none ∧ s.cut = none ∧ s.pos = 0)
    (result : s.result.getLsbD 8 = false → s.result = 0) (valid : s.result.getLsbD 8 = true → s.last = .ok)
    (mem : Memory.wf s.dev.mem) : BusInv s where
  pins := pins
  idle := idle
  we := hlines .we
  oeDir := (hlines .oe).1
  addr := fun k => hlines (.addr k)
  uninit := fun hm => by rw [hm] at hlines; exact ⟨(hlines .oe).2, fun p => hlines (.data p)⟩
  read := fun hm => by rw [hm] at hlines; exact ⟨(hlines .oe).2, fun p => hlines (.data p)⟩
  write := fun hm => by rw [hm] at hlines; exact ⟨(hlines .oe).2, fun p => hlines (.data p)⟩
  result := result
  valid := valid
  mem := mem

theorem known_outOf (d : LineDir) (b : Bool) : known ⟨d, outOf b⟩ := outOf_ne_unknown b

/-! ### Every procedure keeps the order -/

theorem InOrder.setAddr {m : BusMode} {ls : Lines} (h : InOrder m ls) (a : Addr) :
    InOrder m (opsLines (setAddrOps a) ls) := fun l => by
  rw [opsLines_setAddr_getLine]
  cases l with
  | addr k => exact ⟨(h (.addr k)).1, known_outOf _ _⟩
  | data p => exact h (.data p)
  | we => exact h .we
  | oe => exact h .oe

theorem InOrder.enterWrite {m : BusMode} {ls : Lines} (h : InOrder m ls) :
    InOrder .write (opsLines enterWriteOps ls) := fun l => by
  rw [opsLines_enterWrite_getLine]
  cases l with
  | addr k => exact h (.addr k)
  | data p => exact ⟨rfl, known_outOf .output false⟩
  | we => exact h .we
  | oe => exact ⟨(h .oe).1, rfl⟩

theorem InOrder.enterRead {m : BusMode} {ls : Lines} (h : InOrder m ls) (us : Nat) :
    InOrder .read (opsLines (enterReadOps us) ls) := fun l => by
  rw [opsLines_enterRead_getLine]
  cases l with
  | addr k => exact h (.addr k)
  | data p => rfl
  | we => exact h .we
  | oe => exact ⟨(h .oe).1, rfl⟩

theorem InOrder.writeByte {ls : Lines} (h : InOrder .write ls) (t : Nat) (v : Byte) (a : Addr) :
    InOrder .write (opsLines (writeByteOps t v a) ls) := fun l => by
  rw [writeByte_getLine]
  cases l with
  | addr k => exact ⟨(h (.addr k)).1, known_outOf _ _⟩
  | data p => exact ⟨(h (.data p)).1, known_outOf _ _⟩
  | we => exact congrArg (fun x : Line => { x with out := .high }) (h .we)
  | oe => exact h .oe

theorem InOrder.writes {ls : Lines} (h : InOrder .write ls) (t a : Nat) (vs : List Byte) :
    InOrder .write (writesLines t a vs ls) := by
  induction vs generalizing a ls with
  | nil => exact h
  | cons v vs ih => exact ih (h.writeByte t v _) (a + 1)

theorem InOrder.reads {m : BusMode} {ls : Lines} (h : InOrder m ls) (a n : Nat) : InOrder m (readsLines a n ls) := by
  induction n generalizing a ls with
  | zero => exact h
  | succ n ih => exact ih (h.setAddr _) (a + 1)

theorem InOrder.forWrite {s : State} (h : InOrder s.mode s.lines) : InOrder .write (linesForWrite s) := by
  unfold linesForWrite
  split
  · rename_i hm; exact hm ▸ h
  · exact h.enterWrite

theorem InOrder.forRead {s : State} (h : InOrder s.mode s.lines) : InOrder .read (linesForRead s) := by
  unfold linesForRead
  split
  · rename_i hm; exact hm ▸ h
  · exact h.enterRead _

/-- Every command leaves the lines as the mode it leaves has them. -/
theorem linesAfter_inOrder (i : Instr) {s : State} (h : InOrder s.mode s.lines) :
    InOrder (modeAfter i s) (linesAfter i s) := by
  cases i with
  | setAddress a => exact h.setAddr a
  | enterWrite => exact h.enterWrite
  | enterRead => exact h.enterRead _
  | writeByte v a => exact h.forWrite.writeByte _ v a
  | readByte a =>
    simp only [modeAfter, linesAfter]
    split
    · exact h.forRead.setAddr a
    · exact h
  | program a f => exact h.forWrite.writes _ _ _
  | dump a n =>
    simp only [modeAfter, linesAfter]
    split
    · exact h.forRead.reads _ _
    · exact h

/-! ### RESULT -/

theorem validResult_valid (v : Byte) : (validResult v).getLsbD 8 = true := by
  rw [validResult_eq_or, BitVec.getLsbD_or]
  rfl

/-- RESULT is VALID after a READ_BYTE with a sink, and 0 after every other command (R46). -/
theorem resultOf_cases (i : Instr) (sink : Bool) (b : State) :
    (∃ a, i = .readByte a) ∧ sink = true ∧ (resultOf i sink b).getLsbD 8 = true ∨
      ((∃ a, i = .readByte a) → sink = false) ∧ resultOf i sink b = 0 := by
  cases i with
  | readByte a =>
    cases sink with
    | true => exact .inl ⟨⟨a, rfl⟩, rfl, validResult_valid _⟩
    | false => exact .inr ⟨fun _ => rfl, rfl⟩
  | _ => exact .inr ⟨nofun, rfl⟩

/-- RESULT presents no byte where it is not VALID. -/
theorem resultOf_eq_zero {i : Instr} {sink : Bool} {b : State} (h : (resultOf i sink b).getLsbD 8 = false) :
    resultOf i sink b = 0 := by
  rcases resultOf_cases i sink b with ⟨-, -, hvalid⟩ | ⟨-, hzero⟩
  · rw [hvalid] at h; cases h
  · exact hzero

/-- RESULT is VALID after a READ_BYTE with a sink, and after nothing else. -/
theorem resultOf_valid_iff {i : Instr} {sink : Bool} {b : State} :
    (resultOf i sink b).getLsbD 8 = true ↔ sink = true ∧ ∃ a, i = .readByte a := by
  rcases resultOf_cases i sink b with ⟨hi, hsink, hvalid⟩ | ⟨hno, hzero⟩
  · exact iff_of_true hvalid ⟨hsink, hi⟩
  · refine iff_of_false (by simp [hzero]) fun ⟨hsink, hi⟩ => ?_
    rw [hno hi] at hsink; cases hsink

/-! ### The invariant at reset and along every step -/

/-- The table of R49 is in order for mode UNINIT. -/
theorem busInv_of_afterReset {c : PinConfig} {t : State} (h : AfterReset c t) (hpins : c.wellFormed = true)
    (hpos : t.pos = 0) (hmem : Memory.wf t.dev.mem) : BusInv t := by
  refine busInv_of_inOrder ?_ (h.cfg ▸ hpins) ⟨h.busy, h.work, h.cut, hpos⟩ (fun _ => h.result) (fun _ => h.last)
    hmem
  rw [h.mode]
  intro l
  cases l with
  | addr k => exact (congrArg (LineInOrder .uninit (.addr k)) (h.addr k)).mpr ⟨rfl, known_outOf .output false⟩
  | data p => exact congrArg Line.dir (h.data p)
  | we => exact h.we
  | oe => exact (congrArg (LineInOrder .uninit .oe) h.oe).mpr ⟨rfl, rfl⟩

/-- Settles O15: `Lines.afterReset` is written from the table. -/
theorem resetStateIsTheTable : Obligations.ResetStateIsTheTable where
  cfg := rfl
  mode := rfl
  busy := rfl
  last := rfl
  result := rfl
  we := rfl
  oe := rfl
  addr := fun k => Vector.getElem_replicate k.isLt
  data := fun p => Vector.getElem_replicate p.isLt
  work := rfl
  cut := rfl

/-- Settles O50: the state after reset is the table of R49, with distinct pins and no known byte in the device. -/
theorem busInvariantAtReset : Obligations.BusInvariantAtReset :=
  busInv_of_afterReset resetStateIsTheTable (by decide) rfl ⟨.nil, nofun⟩

/-- A command that finished from the invariant finished in it. -/
theorem busInv_of_finished {i : Instr} {s t : State} (h : BusInv s) (hfin : Finished i s t) : BusInv t := by
  have hcore := effectOf_core i (blockOf (startOf i s))
  have hstart := startOf_eq i s
  obtain ⟨hlast, hresult, hbusy, hwork, hcut⟩ := FinishedRun.with hfin
  refine busInv_of_inOrder ?_ ?_ ⟨hbusy, hwork, hcut, hfin.pos⟩ (fun hv => ?_) (fun hv => ?_) ?_
  · rw [mode_of_finished hfin, lines_of_finished hfin]
    exact linesAfter_inOrder i (inOrder_of_busInv h)
  · rw [hfin.field State.cfg fun _ => rfl, finished_cfg, hcore.cfg, hstart]
    exact h.pins
  · rw [hresult] at hv ⊢
    exact resultOf_eq_zero hv
  · rw [hresult] at hv
    obtain ⟨hsink, a, rfl⟩ := resultOf_valid_iff.1 hv
    exact hlast.trans (if_pos hsink)
  · rw [hfin.field State.dev fun _ => rfl, finished_dev]
    refine hcore.mem ?_
    rw [hstart]
    exact h.mem

/-- Settles O49: by what a step may leave (`StepEnd`). A command keeps the lines in the order of its mode, a reset
sequence ends in the table of R49, and every other input leaves the bus alone. -/
theorem stepKeepsTheBusInvariant : Obligations.StepKeepsTheBusInvariant := by
  intro s t h hstep
  cases step_next hstep with
  | idle host same => exact same ▸ h
  | command after w rest i host busy word run =>
    exact busInv_of_finished (s := { s with host := rest }) ⟨h.pins, h.idle, h.we, h.oeDir, h.addr, h.uninit, h.read,
      h.write, h.result, h.valid, h.mem⟩ run
  | reserved after w rest e host busy word run =>
    obtain ⟨hlast, hresult, hbusy, hwork, hcut⟩ := run.with
    refine busInv_of_inOrder ?_ ?_ ⟨hbusy, hwork, hcut, run.pos⟩ (fun _ => hresult) (fun hv => ?_) ?_
    · rw [run.field State.mode fun _ => rfl, run.field State.lines fun _ => rfl]
      exact inOrder_of_busInv (s := s) h
    · rw [run.field State.cfg fun _ => rfl]
      exact h.pins
    · rw [hresult] at hv; cases hv
    · rw [run.field State.dev fun _ => rfl]
      exact h.mem
  | other j rest host act same =>
    rw [same]
    exact ⟨h.pins, h.idle, h.we, h.oeDir, h.addr, h.uninit, h.read, h.write, h.result, h.valid, h.mem⟩
  | reset seq cut used =>
    obtain ⟨c, x, hpins, hcutoff, ht⟩ := seq
    rw [ht] at cut ⊢
    obtain ⟨htable, hpos, hmem⟩ := reset_after cut
    exact busInv_of_afterReset htable hpins hpos (hmem (hcutoff.mem h.mem))

end Sys2Proof.Proofs

/-! ## What every step keeps, and what a command depends on (60_exceptions.md R173; 20_memory.md R69; D14) -/

namespace Sys2Proof.Proofs

open Sys2Proof Sys2Proof.Machine Sys2Proof.Safety Sys2Proof.Laws

/-! ### Status and configuration -/

/-- Settles O52: `exec` finishes with `statusOf` and `resultOf`, a reserved word with ILLEGAL and 0. -/
theorem everyCommandFinishesWithItsStatus : Obligations.EveryCommandFinishesWithItsStatus := by
  intro s t w after rest hhost hstep hno
  cases step_next hstep with
  | idle host same => rw [hhost] at host; cases host
  | command after' w' rest' i host busy word run =>
    rw [hhost] at host
    cases host
    obtain ⟨hlast, hresult, hbusy, hwork, -⟩ := FinishedRun.with run
    rw [word, hlast, hresult]
    refine ⟨hbusy, hwork, ?_, resultOf_valid_iff.trans ?_, resultOf_eq_zero⟩
    · cases i <;> rfl
    · simp only [Except.ok.injEq]
  | reserved after' w' rest' e host busy word run =>
    rw [hhost] at host
    cases host
    obtain ⟨hlast, hresult, hbusy, hwork, -⟩ := run.with
    rw [word, hlast, hresult]
    exact ⟨hbusy, hwork, rfl, iff_of_false nofun fun ⟨_, _, ha⟩ => (nomatch ha), fun _ => rfl⟩
  | other j rest' host act same =>
    rw [hhost] at host
    cases host
    exact absurd rfl (act.1 w)
  | reset seq cut used => exact absurd used (noResetUsed_not hno)

/-- A reset sequence that ends has kept the parameters. -/
theorem params_of_resetSequence {c : PinConfig} {x : State} (cut : (resetSequence c x).cut = none) :
    (resetSequence c x).params = x.params := by
  obtain ⟨-, hblock, -⟩ := (reset_run c x).1.resolve_right (not_not_intro cut)
  obtain ⟨hparams, -⟩ := doReset_fields c (blockOf x)
  simpa [hparams] using congrArg State.params hblock

/-- A finished command keeps the parameters and the configuration, whatever inputs fell inside it. -/
theorem config_of_finished {i : Instr} {s t : State} (h : Finished i s t) : t.params = s.params ∧ t.cfg = s.cfg := by
  have hcore := effectOf_core i (blockOf (startOf i s))
  have hstart := startOf_eq i s
  refine ⟨(h.field State.params fun _ => rfl).trans (hcore.params.trans ?_),
    (h.field State.cfg fun _ => rfl).trans (hcore.cfg.trans ?_)⟩ <;> rw [hstart] <;> rfl

/-- Settles O53: a command keeps both, and a reset sequence, which latches a configuration, keeps the parameters. -/
theorem configurationIsImmutable : Obligations.ConfigurationIsImmutable := by
  intro s t hstep
  cases step_next hstep with
  | idle host same => exact same ▸ ⟨rfl, fun _ => rfl⟩
  | command after w rest i host busy word run =>
    obtain ⟨hparams, hcfg⟩ := config_of_finished run
    exact ⟨hparams, fun _ => hcfg⟩
  | reserved after w rest e host busy word run =>
    exact ⟨run.field State.params fun _ => rfl, fun _ => run.field State.cfg fun _ => rfl⟩
  | other j rest host act same => rw [same]; exact ⟨rfl, fun _ => rfl⟩
  | reset seq cut used =>
    obtain ⟨c, x, -, hcutoff, ht⟩ := seq
    refine ⟨?_, fun hno => absurd used (noResetUsed_not hno)⟩
    rw [ht] at cut ⊢
    exact (params_of_resetSequence cut).trans hcutoff.params

/-! ### STATUS inside a command -/

theorem host_le_of_ends {s t : State} (h : Ends s t) : t.host.length ≤ s.host.length := by
  rcases h with ⟨-, hle⟩ | ⟨-, -, -, hlt⟩
  · exact hle
  · exact hlt.le

theorem cutOk_of_ends {s t : State} (h : Ends s t) {c : Cut} (hc : t.cut = some c) : cutOk c := by
  rcases h with ⟨hnone, -⟩ | ⟨d, hd, hok, -⟩
  · rw [hnone] at hc; cases hc
  · rw [hd] at hc; cases hc; exact hok

/-- A reset sequence that follows a busy block is busy itself (10_state.md R43). -/
theorem busyReads_resetSequence {s x : State} (hbusy : s.busy = true) (h : BusyReads s x)
    (c : PinConfig) :
    BusyReads s (resetSequence c x) := by
  obtain ⟨-, -, -, hreads, -⟩ := reset_run c x
  have hlatch : BusyReads s (latchConfig c x) := h
  exact hlatch.trans hbusy.symm hreads

/-- Settles O12: the block is busy from acceptance to finish, and in every reset sequence after it. -/
theorem statusReadsInsideACommandShowBusy : Obligations.StatusReadsInsideACommandShowBusy := by
  intro i s t h
  have hstart : startOf i s = { accept s with work := (startOf i s).work } := startOf_eq i s
  obtain ⟨-, -, hends, hreads, -⟩ := finish_run (proc_body i) (statusOf i s) (resultOf i s.sinkAvail)
    (resultOf_block i s.sinkAvail) (startOf i s) (startOf_live i s)
  have hhost : (startOf i s).host = s.host := by rw [hstart]; rfl
  have hbusy : (startOf i s).busy = true := by rw [hstart]; rfl
  have hold : (startOf i s).reads = s.reads := by rw [hstart]; rfl
  rw [exec_eq] at h
  have hbusyReads : BusyReads (startOf i s) t := by
    rcases conclude_next (I := BusyReads (startOf i s)) (Q := BusyReads (startOf i s))
        (fun c x _ hx _ => busyReads_resetSequence hbusy hx c) (fun c x _ hx _ => busyReads_resetSequence hbusy hx c)
        (hhost ▸ host_le_of_ends hends) (fun c hc => ⟨cutOk_of_ends hends hc, hreads⟩) h with ⟨-, rfl⟩ | ⟨-, ht⟩
    · exact hreads
    · exact ht
  obtain ⟨new, hnew, hbit⟩ := hbusyReads
  exact ⟨new, hold ▸ hnew, fun r hr hstatus => (hbit r hr hstatus).trans hbusy⟩

/-! ### ECHO text -/

/-- Two states with one block, at one place among their inputs, differ in trace and ECHO text at most. -/
theorem eq_of_blockOf_eq {t u : State} (hblock : blockOf t = blockOf u) (hcut : t.cut = u.cut) (hpos : t.pos = u.pos)
    (hhost : t.host = u.host) (hreads : t.reads = u.reads) (e : EchoText) :
    ({ t with echo := e, log := [] } : State) = { u with echo := e, log := [] } :=
  calc ({ t with echo := e, log := [] } : State)
    _ = { blockOf t with cut := t.cut, pos := t.pos, host := t.host, reads := t.reads, echo := e } := rfl
    _ = { blockOf u with cut := u.cut, pos := u.pos, host := u.host, reads := u.reads, echo := e } := by
      rw [hblock, hcut, hpos, hhost, hreads]

/-- Settles O36: a command's effect and its own events are those of the block it is accepted in, which holds no text
to come. -/
theorem echoTextChangesNothingElse : Obligations.EchoTextChangesNothingElse := by
  intro s a f text hq
  obtain ⟨t, hexec, hfin, hhost, hreads⟩ := exec_quiet (.program a f) hq
  obtain ⟨u, hexec', hfin', hhost', hreads'⟩ := exec_quiet (.program a f) (s := { s with echo := text }) hq
  refine ⟨t, u, hexec, hexec', (nonTextTrace_of_finished hfin').trans (nonTextTrace_of_finished hfin).symm, ?_⟩
  exact eq_of_blockOf_eq (hfin'.block.trans hfin.block.symm) (hfin'.cut.trans hfin.cut.symm)
    (hfin'.pos.trans hfin.pos.symm) (hhost'.trans hhost.symm) (hreads'.trans hreads.symm) s.echo

/-! ### Bytes read from the device -/

/-- The state with another device, and other answers of the pin bank. -/
def withOtherDevice (d : RefDevice) (ref : Bool) (answers : List Bool) (s : State) : State :=
  { s with dev := d, refDevice := ref, samples := answers }

/-- A command's events but for text and answers do not depend on the device. -/
theorem eventsOf_withOtherDevice (i : Instr) (s : State) (d : RefDevice) (ref : Bool) (answers : List Bool) :
    ((eventsOf i (blockOf (startOf i (withOtherDevice d ref answers s)))).filter fun e => !isText e).map unanswered =
      ((eventsOf i (blockOf (startOf i s))).filter fun e => !isText e).map unanswered := by
  cases i with
  | setAddress a => rfl
  | enterWrite => rfl
  | enterRead => rfl
  | writeByte v a => rfl
  | readByte a =>
    cases hsink : s.sinkAvail with
    | false => rw [eventsOf, eventsOf, if_neg (by simp [withOtherDevice, hsink]), if_neg (by simp [hsink])]
    | true =>
      rw [eventsOf, eventsOf, if_pos (by simp [withOtherDevice, hsink]), if_pos (by simp [hsink])]
      simp only [readTrace_eq, List.filter_append, filter_not_isText_of_text (readByteTrace_pins _ _ _ _).text,
        List.map_append, readByteTrace_unanswered]
      rfl
  | program a f =>
    rw [eventsOf_program a f (b := blockOf (startOf (.program a f) (withOtherDevice d ref answers s))) rfl rfl,
      eventsOf_program a f (b := blockOf (startOf (.program a f) s)) rfl rfl]
    rfl
  | dump a n =>
    cases hsink : s.sinkAvail with
    | false => rw [eventsOf, eventsOf, if_neg (by simp [withOtherDevice, hsink]), if_neg (by simp [hsink])]
    | true =>
      obtain ⟨vs, hlen, htrace, -⟩ :=
        doDump_spec a n (b := blockOf (startOf (.dump a n) (withOtherDevice d ref answers s))) rfl
      obtain ⟨us, hlen', htrace', -⟩ := doDump_spec a n (b := blockOf (startOf (.dump a n) s)) rfl
      unfold dumpLoopStart at htrace htrace'
      rw [eventsOf, eventsOf, if_pos (by simp [withOtherDevice, hsink]), if_pos (by simp [hsink]), htrace, htrace']
      have hpin : ∀ e, isPin e = true → (!isText e) = true := fun e he => by simp [isText, outChar_of_isPin he]
      simp only [List.filter_append, List.map_append, dumpTrace_unanswered hpin fun _ => rfl, hlen, hlen']
      rfl

/-- Settles O55: `linesAfter`, `modeAfter`, `statusOf` and `sourceAfter` read neither the device nor the answers. -/
theorem controlFlowIgnoresDeviceData : Obligations.ControlFlowIgnoresDeviceData := by
  intro s i d ref answers hq
  obtain ⟨t, hexec, hfin, -⟩ := exec_quiet i hq
  obtain ⟨u, hexec', hfin', -⟩ := exec_quiet i (s := withOtherDevice d ref answers s) hq
  refine ⟨t, u, hexec, hexec', ?_, ?_, ?_, ?_, ?_⟩
  · rw [nonTextTrace_of_finished hfin, nonTextTrace_of_finished hfin', List.map_append, List.map_append, eventsOf_withOtherDevice]
    rfl
  · rw [lines_of_finished hfin, lines_of_finished hfin']
    rfl
  · rw [mode_of_finished hfin, mode_of_finished hfin']
    cases i <;> rfl
  · rw [(FinishedRun.with hfin).last, (FinishedRun.with hfin').last]
    cases i <;> rfl
  · rw [source_of_finished hfin, source_of_finished hfin']
    cases i <;> rfl

end Sys2Proof.Proofs

/-! ## Commands that the sink does not gate (92_eei_decisions.md D14) -/

namespace Sys2Proof.Proofs

open Sys2Proof Sys2Proof.Machine Sys2Proof.Safety Sys2Proof.Laws

/-- The state with another level of SINK_AVAIL, and with that level sampled at acceptance. -/
def withSink (b : Bool) (s : State) : State :=
  { s with sinkAvail := b, work := s.work.map fun w => { w with sink := b } }

/-- No input and no ECHO text falls around the next event. -/
def Calm (s : State) : Prop := quiet s = true ∧ (workOf s).echoing = false

/-- Undisturbed, the procedure does the same whatever the sink level, and leaves the state undisturbed. -/
def SinkBlind (P : State → State) : Prop := ∀ b s, Calm s → P (withSink b s) = withSink b (P s) ∧ Calm (P s)

theorem SinkBlind.comp {P Q : State → State} (hP : SinkBlind P) (hQ : SinkBlind Q) : SinkBlind fun s => Q (P s) :=
  fun b s h => by
    obtain ⟨hp, hcalm⟩ := hP b s h
    obtain ⟨hq, hcalm'⟩ := hQ b (P s) hcalm
    exact ⟨(congrArg Q hp).trans hq, hcalm'⟩

/-- A procedure chosen by a test that does not see the sink level. -/
theorem SinkBlind.ite {P Q : State → State} (c : State → Prop) [DecidablePred c] (hc : ∀ b s, c (withSink b s) ↔ c s)
    (hP : SinkBlind P) (hQ : SinkBlind Q) : SinkBlind fun s => if c s then P s else Q s := fun b s h => by
  simp only [hc]
  split
  · exact hP b s h
  · exact hQ b s h

/-- A procedure that takes an argument that does not depend on the sink level. -/
theorem SinkBlind.arg {α : Type} {P : α → State → State} (x : State → α) (hx : ∀ b s, x (withSink b s) = x s)
    (hP : ∀ a, SinkBlind (P a)) : SinkBlind fun s => P (x s) s := fun b s h => by
  simp only [hx]
  exact hP (x s) b s h

theorem withSink_echoing (b : Bool) (s : State) : (workOf (withSink b s)).echoing = (workOf s).echoing := by
  unfold workOf withSink
  cases s.work <;> rfl

theorem Calm.withSink {s : State} (h : Calm s) (b : Bool) : Calm (withSink b s) :=
  ⟨h.1, (withSink_echoing b s).trans h.2⟩

/-- An event whose action does not depend on the sink level. -/
theorem sinkBlind_issue {f : State → State} (hf : ∀ b s, f (withSink b s) = withSink b (f s))
    (hcalm : ∀ s, Calm s → Calm (f s)) : SinkBlind (issue f) := fun b s h => by
  have h' := h.withSink b
  cases hl : live s
  · have hl' : live (withSink b s) = false := hl
    rw [issue_dead hl, issue_dead hl']
    exact ⟨rfl, h⟩
  · have hl' : live (withSink b s) = true := hl
    rw [issue_quiet h.1 hl h.2, issue_quiet h'.1 hl' h'.2]
    exact ⟨hf b s, hcalm s h⟩

theorem setWork_withSink (l : LineId) (b : Bool) (s : State) :
    setWork (indexWork l) (withSink b s) = withSink b (setWork (indexWork l) s) := by
  unfold setWork withSink
  cases hw : s.work with
  | none => rfl
  | some w => cases l <;> rfl

theorem deviceOnDrive_withSink (l : LineId) (d b : Bool) (s : State) :
    deviceOnDrive l d (withSink b s) = withSink b (deviceOnDrive l d s) := by
  cases l with
  | we =>
    have hlines : (withSink b s).lines = s.lines := rfl
    simp only [deviceOnDrive, deviceOnWe, hlines]
    split <;> rfl
  | addr | data | oe => rfl

theorem opEffect_withSink (op : PinOp) (b : Bool) (s : State) :
    opEffect op (withSink b s) = withSink b (opEffect op s) := by
  cases op with
  | dir l d => exact setWork_withSink l b { s with lines := putDir l d s.lines }
  | drv l d =>
    simp only [opEffect, deviceOnDrive_withSink]
    exact setWork_withSink l b { deviceOnDrive l d s with lines := putOut l d s.lines }
  | dly us => rfl

theorem sinkBlind_pinOp (op : PinOp) : SinkBlind (pinOp op) := by
  rw [pinOp_eq]
  refine sinkBlind_issue (fun b s => ?_) (fun s h => ⟨?_, ?_⟩)
  · rw [opEffect_withSink]
    rfl
  · exact quiet_of_host ((opEffect_effect op).host s) h.1
  · exact ((opEffect_effect op).echoing s).trans h.2

theorem sinkBlind_runOps (ops : List PinOp) : SinkBlind (runOps ops) := by
  induction ops with
  | nil => exact fun b s h => ⟨rfl, h⟩
  | cons op ops ih => exact (sinkBlind_pinOp op).comp ih

theorem sinkBlind_setMode (m : BusMode) : SinkBlind (setMode m) := fun b s h => by
  have hl : live (withSink b s) = live s := rfl
  unfold setMode
  rw [hl]
  split
  · exact ⟨rfl, h⟩
  · exact ⟨rfl, h⟩

theorem sinkBlind_enterWrite : SinkBlind enterWrite := by
  have h := (sinkBlind_runOps enterWriteOps).comp (sinkBlind_setMode .write)
  exact h

theorem sinkBlind_enterRead : SinkBlind enterRead := by
  have h := SinkBlind.arg (fun s => s.params.oeSettleUs) (fun _ _ => rfl) fun us =>
    (sinkBlind_runOps (enterReadOps us)).comp (sinkBlind_setMode .read)
  exact h

theorem sinkBlind_needWrite : SinkBlind needWrite :=
  SinkBlind.ite (fun s => s.mode = .write) (fun _ _ => Iff.rfl) (fun _ _ h => ⟨rfl, h⟩) sinkBlind_enterWrite

theorem sinkBlind_writeByteProc (v : Byte) (a : Addr) : SinkBlind (writeByteProc v a) := by
  have h := SinkBlind.arg (fun s => s.cfg.tBit.toNat) (fun _ _ => rfl) fun t =>
    sinkBlind_needWrite.comp (sinkBlind_runOps (writeByteOps t v a))
  exact h

theorem sinkBlind_finish (st : StatusCode) (res : BitVec 9) : SinkBlind (finish st res) :=
  sinkBlind_issue (fun _ _ => rfl) fun _ h => ⟨h.1, rfl⟩

/-- A command whose procedure does not see the sink runs the same with and without one. -/
theorem exec_withSink {i : Instr} (hbody : SinkBlind (bodyOf i)) {s : State} (b : Bool) (hq : quiet s = true)
    (hstart : ∀ x, startOf i x = accept x) (hstatus : ∀ x, statusOf i x = .ok)
    (hresult : ∀ x y, resultOf i x y = 0) :
    ∃ t, exec i s = .next t ∧ exec i { s with sinkAvail := b } = .next { t with sinkAvail := b } := by
  obtain ⟨t, hexec, hfin, -⟩ := exec_quiet i hq
  have hrun := exec_eq i s
  have hrun' := exec_eq i { s with sinkAvail := b }
  simp only [hstart, hstatus, hresult] at hrun hrun'
  have haccept : accept { s with sinkAvail := b } = withSink b (accept s) := rfl
  obtain ⟨hsame, hcalm⟩ := hbody b (accept s) ⟨hq, rfl⟩
  obtain ⟨hfinish, -⟩ := sinkBlind_finish .ok 0 b _ hcalm
  obtain ⟨-, hquiet, -⟩ := finish_run (proc_body i) .ok (fun _ => 0) (fun _ => rfl) (accept s) rfl
  obtain ⟨hcut, -⟩ := hquiet hq
  rw [conclude_of_live hcut, hexec] at hrun
  rw [haccept, hsame, hfinish, ← Host.Outcome.next.inj hrun, conclude_of_live (s := withSink b t) hfin.cut] at hrun'
  have hwork : t.work = none := (FinishedRun.with hfin).work
  refine ⟨t, hexec, hrun'.trans ?_⟩
  rw [withSink, hwork]
  rfl

/-- Settles O54: the procedures of the four commands are pin-bank operations and mode changes, which do not see the
sink. -/
theorem sinkDoesNotGateTheOtherCommands : Obligations.SinkDoesNotGateTheOtherCommands := by
  intro s b i hq hi
  rcases hi with ⟨a, rfl⟩ | rfl | rfl | ⟨v, a, rfl⟩
  · exact exec_withSink (i := .setAddress a) (sinkBlind_runOps (setAddrOps a)) b hq (fun _ => rfl) (fun _ => rfl)
      fun _ _ => rfl
  · exact exec_withSink (i := .enterWrite) sinkBlind_enterWrite b hq (fun _ => rfl) (fun _ => rfl) fun _ _ => rfl
  · exact exec_withSink (i := .enterRead) sinkBlind_enterRead b hq (fun _ => rfl) (fun _ => rfl) fun _ _ => rfl
  · exact exec_withSink (i := .writeByte v a) (sinkBlind_writeByteProc v a) b hq (fun _ => rfl) (fun _ => rfl)
      fun _ _ => rfl

end Sys2Proof.Proofs

/-! ## The Bus Driver's commands (40_bus_driver.md R100 to R135) -/

namespace Sys2Proof.Proofs

open Sys2Proof Sys2Proof.Machine Sys2Proof.Safety Sys2Proof.Laws

/-! ### SET_ADDRESS, ENTER_WRITE, ENTER_READ -/

/-- Settles O19: the lines are those of SetAddr's 15 drives, and its events are all the command has. -/
theorem setAddressDrivesTheAddressLines : Obligations.SetAddressDrivesTheAddressLines := by
  intro s a hq
  obtain ⟨t, hexec, hfin, hkept⟩ := exec_quiet_kept (.setAddress a) hq
  have hline : ∀ l, getLine t.lines l = _ := fun l =>
    (congrArg (getLine · l) (lines_of_finished hfin)).trans (opsLines_setAddr_getLine a s.lines l)
  exact ⟨t, hexec, FinishedRun.with hfin, hkept, trace_of_finished hfin nofun,
    fun k => (hline (.addr k)).trans (driven_eq _ _).symm, data_eq_of_getLine fun p => hline (.data p), hline .we,
    hline .oe, mode_of_finished hfin, source_of_finished hfin, samples_of_finished hfin rfl, dev_of_finished hfin rfl⟩

/-- Settles O21: by what ENTER_WRITE leaves (`EnteredWrite`), read line by line. -/
theorem enterWriteConfiguresTheBus : Obligations.EnterWriteConfiguresTheBus := by
  intro s hq
  obtain ⟨t, hexec, ht⟩ := exec_enterWrite_quiet hq
  have hline : ∀ l, getLine t.lines l = _ := fun l =>
    (congrArg (getLine · l) ht.lines).trans (opsLines_enterWrite_getLine s.lines l)
  exact ⟨t, hexec, ht.finish, ht.kept, ht.trace, ht.mode, ht.data_low, hline .oe, hline .we,
    addr_eq_of_getLine fun k => hline (.addr k), ht.source, ht.samples, ht.dev⟩

/-- Settles O23: the lines are those of EnterRead's operations; its drives spare the data latches and WE. -/
theorem enterReadConfiguresTheBus : Obligations.EnterReadConfiguresTheBus := by
  intro s hq
  obtain ⟨t, hexec, hfin, hkept⟩ := exec_quiet_kept .enterRead hq
  have hline : ∀ l, getLine t.lines l = _ := fun l =>
    (congrArg (getLine · l) (lines_of_finished hfin)).trans (opsLines_enterRead_getLine _ s.lines l)
  exact ⟨t, hexec, FinishedRun.with hfin, hkept, trace_of_finished hfin nofun, mode_of_finished hfin,
    fun p => hline (.data p), hline .oe, hline .we, addr_eq_of_getLine fun k => hline (.addr k),
    source_of_finished hfin, samples_of_finished hfin rfl, dev_of_finished hfin rfl⟩

/-! ### WRITE_BYTE -/

/-- The lines after WRITE_BYTE (R125). -/
theorem linesAfter_writeByte_getLine (v : Byte) (a : Addr) (s : State) (l : LineId) :
    getLine (linesAfter (.writeByte v a) s) l =
      match l with
      | .addr k => driven s.lines.addr[k] (a.getLsbD k)
      | .data p => ⟨if s.mode = .write then s.lines.data[p].dir else .output,
          if v.getLsbD (7 - p) then .high else .low⟩
      | .we => driven s.lines.we true
      | .oe => if s.mode = .write then s.lines.oe else driven s.lines.oe true := by
  rw [linesAfter, writeByte_getLine]
  cases l with
  | addr k => simp only [linesForWrite_getLine, ite_self, driven_eq]; rfl
  | data p =>
    simp only [linesForWrite_getLine, outOf_eq_ite]
    split <;> rfl
  | we => simp only [linesForWrite_getLine, ite_self, driven_eq]; rfl
  | oe => exact linesForWrite_getLine s .oe

/-- Settles O24: `linesAfter`, read line by line; the invariant gives OE and WE their directions and OE its level. -/
theorem writeByteDrivesByteAndAddress : Obligations.WriteByteDrivesByteAndAddress := by
  intro s v a hq
  obtain ⟨t, hexec, hfin, hkept⟩ := exec_quiet_kept (.writeByte v a) hq
  have hline : ∀ l, getLine t.lines l = _ := fun l =>
    (congrArg (getLine · l) (lines_of_finished hfin)).trans (linesAfter_writeByte_getLine v a s l)
  have hmode : t.mode = .write := mode_of_finished hfin
  refine ⟨t, hexec, FinishedRun.with hfin, hkept, trace_of_finished hfin nofun, hmode, fun k => hline (.addr k),
    fun p => ⟨congrArg Line.out (hline (.data p)), congrArg Line.dir (hline (.data p))⟩, hline .we, hline .oe,
    source_of_finished hfin, samples_of_finished hfin rfl, fun hinv => ?_⟩
  have horder : InOrder .write t.lines := by
    rw [lines_of_finished hfin]
    exact linesAfter_inOrder (.writeByte v a) (inOrder_of_busInv hinv)
  obtain ⟨hdir, hout⟩ := horder .oe
  have hoe : t.lines.oe = ⟨t.lines.oe.dir, t.lines.oe.out⟩ := rfl
  refine ⟨?_, horder .we, fun p => (horder (.data p)).1⟩
  rw [hoe, show t.lines.oe.dir = .output from hdir, show t.lines.oe.out = .high from hout]

/-- WRITE_BYTE on a bus in order, whatever inputs fell inside it, has latched and committed its byte (R72). -/
theorem dev_of_writeByte {v : Byte} {a : Addr} {s t : State} (hready : Ready s) (h : Finished (.writeByte v a) s t) :
    t.dev = { mem := Memory.write s.dev.mem (location a) v, latchA := a.setWidth 15, latchD := v } := by
  have hstart : Ready (blockOf (accept s)) := hready
  have hdev : t.dev = (doWriteByte v a (blockOf (accept s))).dev := h.field State.dev fun _ => rfl
  rw [hdev, doWriteByte_dev v a hstart]
  rfl

/-- WE stays at 1 where the mode is made WRITE. -/
theorem doNeedWrite_we_high {b : State} (h : b.lines.we.out = .high) : (doNeedWrite b).lines.we.out = .high := by
  rw [we_eq_getLine, doNeedWrite_getLine]
  split <;> exact h

/-- Settles O25: one falling and one rising edge, at the address driven inside the pulse; with the data lines out the
byte latched is the operand. -/
theorem writeByteStoresAtItsLocation : Obligations.WriteByteStoresAtItsLocation := by
  intro s v a hq hwe
  obtain ⟨t, hexec, hfin, -⟩ := exec_quiet (.writeByte v a) hq
  have hdev : t.dev = (doWriteByte v a (blockOf (accept s))).dev := hfin.field State.dev fun _ => rfl
  obtain ⟨d, hpulse, -⟩ := writeByteOps_dev s.cfg.tBit.toNat v a _ (doNeedWrite_we_high (b := blockOf (accept s)) hwe)
  have hlatched : t.dev = { mem := Memory.write s.dev.mem (location a) d, latchA := a.setWidth 15, latchD := d } := by
    rw [hdev, doWriteByte, blockOf_cfg, accept_cfg, hpulse, (doNeedWrite_dev _).1]
    rfl
  refine ⟨t, hexec, by rw [hlatched], fun x hx => by rw [hlatched, memory_read_write_other _ _ _ _ hx],
    fun hout => ?_⟩
  rw [dev_of_writeByte ⟨hwe, hout⟩ hfin]
  exact ⟨rfl, memory_read_write_same _ _ _⟩

/-! ### READ_BYTE -/

/-- The lines after READ_BYTE with a sink (R131). -/
theorem linesAfter_readByte_getLine (a : Addr) {s : State} (hsink : s.sinkAvail = true) (l : LineId) :
    getLine (linesAfter (.readByte a) s) l =
      match l with
      | .addr k => driven s.lines.addr[k] (a.getLsbD k)
      | .data p => if s.mode = .read then s.lines.data[p] else ⟨.input, s.lines.data[p].out⟩
      | .we => s.lines.we
      | .oe => if s.mode = .read then s.lines.oe else driven s.lines.oe false := by
  rw [linesAfter, if_pos hsink, opsLines_setAddr_getLine]
  cases l with
  | addr k => simp only [linesForRead_getLine, ite_self, driven_eq]; rfl
  | data p => exact linesForRead_getLine s (.data p)
  | we => exact (linesForRead_getLine s .we).trans (ite_self _)
  | oe => exact linesForRead_getLine s .oe

/-- The byte READ_BYTE(a) reads where it is accepted in s. -/
def byteRead (a : Addr) (s : State) : Byte := readValue a (blockOf (accept s))

theorem effectOf_readByte (a : Addr) {s : State} (hsink : s.sinkAvail = true) :
    effectOf (.readByte a) (blockOf (accept s)) = doReadByte a (blockOf (accept s)) := if_pos hsink

/-- READ_BYTE with a sink finishes OK with the byte read in RESULT, and its events show that byte (R104, R130). -/
theorem readByte_finished {a : Addr} {s t : State} (hsink : s.sinkAvail = true) (h : Finished (.readByte a) s t) :
    FinishedWith .ok (0x100#9 ||| BitVec.setWidth 9 (byteRead a s)) t ∧
      traceOf t = traceOf s ++
        (needReadTrace s ++ readByteTrace s.params.readSettleUs s.cfg a (byteRead a s)) := by
  have hacc : (workOf (effectOf (.readByte a) (blockOf (accept s)))).acc = byteRead a s := by
    rw [effectOf_readByte a hsink, doReadByte_acc a _ rfl, byteRead]
  obtain ⟨hlast, hresult, hbusy, hwork, hcut⟩ := FinishedRun.with h
  refine ⟨⟨hlast.trans (if_pos hsink), hresult.trans ?_, hbusy, hwork, hcut⟩, (trace_of_finished h nofun).trans ?_⟩
  · rw [resultOf, if_pos hsink, ← validResult_eq_or, ← hacc]
    rfl
  · refine congrArg (traceOf s ++ ·) ((if_pos hsink).trans ?_)
    exact readTrace_eq a (blockOf (accept s))

/-- Settles O27: the byte is `byteRead`; the eight passes change the address lines only. -/
theorem readByteReturnsItsSamples : Obligations.ReadByteReturnsItsSamples := by
  intro s a hq hsink
  obtain ⟨t, hexec, hfin, hkept⟩ := exec_quiet_kept (.readByte a) hq
  obtain ⟨hwith, htrace⟩ := readByte_finished hsink hfin
  have hline : ∀ l, getLine t.lines l = _ := fun l =>
    (congrArg (getLine · l) (lines_of_finished hfin)).trans (linesAfter_readByte_getLine a hsink l)
  exact ⟨t, byteRead a s, hexec, hwith, hkept, htrace, (mode_of_finished hfin).trans (if_pos hsink),
    fun k => hline (.addr k), fun p => hline (.data p), hline .we, hline .oe, source_of_finished hfin,
    dev_of_finished hfin rfl⟩

/-- Settles O28: each pass takes the next listed answer, and eight levels accumulate to the byte they spell. -/
theorem readByteSamplesAreTheBanksAnswers : Obligations.ReadByteSamplesAreTheBanksAnswers := by
  intro s a v later hq hsink hdevice hsamples
  obtain ⟨t, hexec, hfin, -⟩ := exec_quiet (.readByte a) hq
  have hspelt : [v.getLsbD 7, v.getLsbD 6, v.getLsbD 5, v.getLsbD 4, v.getLsbD 3, v.getLsbD 2, v.getLsbD 1,
      v.getLsbD 0] = (List.finRange 8).map fun p : Fin 8 => v.getLsbD (7 - p) := by
    rw [finRange_eight]
    rfl
  have hstart : (clearAcc (doNeedRead (blockOf (accept s)))).samples = s.samples := doNeedRead_samples _
  rw [hspelt] at hsamples
  obtain ⟨hlevels, hrest⟩ := drawing_levels (a := a) (List.finRange 8)
    (s := clearAcc (doNeedRead (blockOf (accept s)))) ((doNeedRead_core _).refDevice.trans hdevice)
    (by rw [hstart, hsamples]; simp)
  have hbyte : byteRead a s = v := by
    rw [byteRead, readValue, hlevels, hstart, hsamples, List.take_left' (by simp), accumulate_bits]
  refine ⟨t, hexec, hbyte ▸ (readByte_finished hsink hfin).1.result, ?_⟩
  have heffect : t.samples = (effectOf (.readByte a) (blockOf (accept s))).samples :=
    hfin.field State.samples fun _ => rfl
  rw [heffect, effectOf_readByte a hsink]
  refine hrest.trans ?_
  rw [hstart, hsamples, List.drop_left' (by simp)]

theorem readable_of_busInv {s : State} (h : BusInv s) (hdevice : s.refDevice = true) : Readable s :=
  ⟨hdevice, congrArg Line.out h.we, fun hm => h.read hm⟩

/-- Settles O29: in the invariant the device drives the data lines once the mode is READ. -/
theorem readByteReadsTheDevice : Obligations.ReadByteReadsTheDevice := fun _ a hinv hq hsink hdevice =>
  exec_readByte_quiet a hq hsink (readable_of_busInv hinv hdevice)

/-! ### Counts -/

theorem log_length_of_trace {s t : State} {es : List Event} (h : traceOf t = traceOf s ++ es) :
    t.log.length = s.log.length + es.length := by
  simpa only [traceOf, List.length_append, List.length_reverse] using congrArg List.length h

/-- A command other than PROGRAM, where no input disturbs it, issues its own events. -/
theorem exec_quiet_log {i : Instr} {s : State} {n : Nat} (hq : quiet s = true) (hi : ∀ a f, i ≠ .program a f)
    (hn : (eventsOf i (blockOf (startOf i s))).length = n) :
    ∃ t, exec i s = .next t ∧ t.log.length = s.log.length + n := by
  obtain ⟨t, hexec, hfin, -⟩ := exec_quiet i hq
  exact ⟨t, hexec, hn ▸ log_length_of_trace (trace_of_finished hfin hi)⟩

theorem eventsOf_writeByte_length (v : Byte) (a : Addr) (s : State) :
    (eventsOf (.writeByte v a) (blockOf (accept s))).length = if s.mode = .write then 35 else 52 := by
  rw [eventsOf, List.length_append, needWriteTrace_length, writeByteTrace_length]
  exact (apply_ite (· + 35) _ _ _).trans rfl

theorem eventsOf_readByte_length (a : Addr) (s : State) :
    (eventsOf (.readByte a) (blockOf (accept s))).length =
      if s.sinkAvail = true then (if s.mode = .read then 136 else 146) else 0 := by
  rw [eventsOf, apply_ite List.length, readTrace_eq, List.length_append, needReadTrace_length, readByteTrace_length]
  exact if_congr Iff.rfl ((apply_ite (· + 136) _ _ _).trans rfl) rfl

/-- Settles O46: the lengths of the commands' event lists. -/
theorem busDriverEventCounts : Obligations.BusDriverEventCounts := by
  intro s a v hq
  obtain ⟨t₁, h₁, hlog₁⟩ := exec_quiet_log (i := .setAddress a) hq nofun (setAddrTrace_length s.cfg a)
  obtain ⟨t₂, h₂, hlog₂⟩ := exec_quiet_log (i := .enterWrite) hq nofun (enterWriteTrace_length s.cfg)
  obtain ⟨t₃, h₃, hlog₃⟩ := exec_quiet_log (i := .enterRead) hq nofun (enterReadTrace_length _ s.cfg)
  obtain ⟨t₄, h₄, hlog₄⟩ := exec_quiet_log (i := .writeByte v a) hq nofun (eventsOf_writeByte_length v a s)
  obtain ⟨t₅, h₅, hlog₅⟩ := exec_quiet_log (i := .readByte a) hq nofun (eventsOf_readByte_length a s)
  exact ⟨t₁, t₂, t₃, t₄, t₅, h₁, hlog₁, h₂, hlog₂, h₃, hlog₃, h₄, hlog₄, h₅, hlog₅⟩

end Sys2Proof.Proofs

/-! ## PROGRAM (41_programmer.md R140 to R143; 30_encoding.md R89 (a)) -/

namespace Sys2Proof.Proofs

open Sys2Proof Sys2Proof.Machine Sys2Proof.Safety Sys2Proof.Laws

/-! ### Its events and its source -/

/-- PROGRAM's events besides ECHO text, where it is accepted in s (R140, R142). -/
def programEvents (a f : Addr) (s : State) : List Event :=
  needWriteTrace s ++ (programTrace s.cfg a.toNat (programBytes a f s.source) ++
    if (programBytes a f s.source).length < programSpan a f then [.srcQ false] else [])

theorem eventsOf_program_start (a f : Addr) (s : State) :
    eventsOf (.program a f) (blockOf (startOf (.program a f) s)) = programEvents a f s :=
  eventsOf_program a f (b := blockOf (startOf (.program a f) s)) rfl rfl

theorem programEvents_text (a f : Addr) (s : State) : (programEvents a f s).filterMap outChar = [] := by
  rw [programEvents, List.filterMap_append, List.filterMap_append, (needWriteTrace_pins s).text, programTrace_text]
  split <;> rfl

/-- PROGRAM's trace besides its ECHO text. -/
theorem nonTextTrace_of_program {a f : Addr} {s t : State} (h : Finished (.program a f) s t) :
    nonTextTrace t = nonTextTrace s ++ programEvents a f s := by
  rw [nonTextTrace_of_finished h, eventsOf_program_start, filter_not_isText_of_text (programEvents_text a f s)]

/-- Settles O31: PROGRAM's loop in closed form, for the bytes its source yields in its span. -/
theorem programWritesTheSourceInOrder : Obligations.ProgramWritesTheSourceInOrder := by
  rintro s a f span vs hq rfl rfl
  obtain ⟨t, hexec, hfin, hkept⟩ := exec_quiet_kept (.program a f) hq
  have hsource := source_of_finished hfin
  exact ⟨t, hexec, FinishedRun.with hfin, hkept, mode_of_finished hfin, nonTextTrace_of_program hfin,
    congrArg ByteSource.bytes hsource, congrArg ByteSource.answers hsource, samples_of_finished hfin rfl⟩

/-- Settles O35: without a sink every event of the trace is PROGRAM's own, and none of these is text. -/
theorem programWithoutSinkEmitsNoText : Obligations.ProgramWithoutSinkEmitsNoText := by
  intro s a f hq hsink
  obtain ⟨t, hexec, hfin, -⟩ := exec_quiet (.program a f) hq
  refine ⟨t, hexec, ?_⟩
  rw [textOf, traceOf_of_finished hfin (.inl hsink), eventsOf_program_start, List.filterMap_append, programEvents_text,
    List.append_nil, textOf]

/-! ### The lines and the device -/

/-- Settles O32: the last write sets WE, the address lines and the data levels; none changes OE or a direction. -/
theorem programLeavesTheLinesOfItsLastWrite : Obligations.ProgramLeavesTheLinesOfItsLastWrite := by
  rintro s a f span vs hq rfl hvs
  obtain ⟨t, hexec, hfin, -⟩ := exec_quiet (.program a f) hq
  have hlines : t.lines = writesLines s.cfg.tBit.toNat a.toNat vs (linesForWrite s) := by
    rw [lines_of_finished hfin, hvs]
    rfl
  obtain ⟨hdirs, hoe⟩ := writesLines_dirs s.cfg.tBit.toNat a.toNat vs (linesForWrite s)
  have hstart := linesForWrite_getLine s
  refine ⟨t, hexec, ?_, fun p => ?_, fun hnil => ?_, fun us v hlast => ?_⟩
  · rw [hlines, hoe]
    exact hstart .oe
  · rw [hlines]
    refine (hdirs (.data p)).trans ?_
    rw [hstart]
    exact apply_ite Line.dir _ _ _
  · rw [hlines, hnil]
    refine ⟨addr_eq_of_getLine fun k => (hstart (.addr k)).trans (ite_self _), (hstart .we).trans (ite_self _),
      fun p => ?_⟩
    exact (congrArg Line.out (hstart (.data p))).trans (apply_ite Line.out _ _ _)
  · have hline := writesLines_last s.cfg.tBit.toNat a.toNat us v (linesForWrite s)
    rw [hlines, hlast]
    refine ⟨(hline .we).trans ?_, fun k => (hline (.addr k)).trans ?_, fun p => ?_⟩
    · simp only [hstart, ite_self, driven_eq]
      rfl
    · simp only [hstart, ite_self, driven_eq, ofNat_getLsbD]
      rfl
    · exact (congrArg Line.out (hline (.data p))).trans (outOf_eq_ite _)

/-- The device a PROGRAM that finished leaves, whatever inputs fell inside it. -/
theorem dev_of_program {a f : Addr} {s t : State} (hready : Ready s) (h : Finished (.program a f) s t) :
    t.dev = writesDev a.toNat (programBytes a f s.source) s.dev :=
  (h.field State.dev fun _ => rfl).trans (doProgram_spec a f (b := blockOf (allowEcho (accept s))) rfl hready).2

/-- PROGRAM writes at most as many bytes as its range has addresses. -/
theorem programBytes_length_le (a f : Addr) (src : ByteSource) :
    (programBytes a f src).length ≤ programSpan a f := by
  rw [programBytes, List.length_take]
  exact Nat.min_le_left _ _

/-- The memory after writes from address a up, of at most as many bytes as PROGRAM's range has addresses. -/
theorem read_writesDev {a f : Addr} {ws : List Byte} (hlen : ws.length ≤ programSpan a f) (d : RefDevice) (x : Nat) :
    Memory.read (writesDev a.toNat ws d).mem x =
      if a.toNat ≤ x then
        match ws[x - a.toNat]? with
        | some v => some v
        | none => Memory.read d.mem x
      else Memory.read d.mem x := by
  rw [programSpan] at hlen
  cases ws with
  | nil => simp [writesDev]
  | cons w ws => exact writesDev_read _ _ _ (by rw [List.length_cons] at hlen ⊢; omega) x

/-- The device's memory after a PROGRAM that finished: the i-th byte at startAddr + i, no other location changed. -/
theorem memory_of_program {a f : Addr} {s t : State} (hready : Ready s) (h : Finished (.program a f) s t) (x : Nat) :
    Memory.read t.dev.mem x =
      if a.toNat ≤ x then
        match (programBytes a f s.source)[x - a.toNat]? with
        | some v => some v
        | none => Memory.read s.dev.mem x
      else Memory.read s.dev.mem x := by
  have hread := read_writesDev (programBytes_length_le a f s.source) s.dev x
  rw [← dev_of_program hready h] at hread
  exact hread

/-- Settles O33: the loop's writes, from a bus in order, are those of `writesDev`. -/
theorem programStoresItsBytes : Obligations.ProgramStoresItsBytes := by
  rintro s a f vs hinv hq rfl
  obtain ⟨t, hexec, hfin, -⟩ := exec_quiet (.program a f) hq
  exact ⟨t, hexec, memory_of_program (ready_of_busInv hinv) hfin⟩

/-- Settles O34: where no reset is used up PROGRAM finishes, and every address it writes is in its range. -/
theorem programStaysInsideItsBounds : Obligations.ProgramStaysInsideItsBounds := by
  intro s t a f hinv hexec hno x hx
  rcases exec_next _ hexec with hfin | hreset
  · have hlen := programBytes_length_le a f s.source
    rw [programSpan] at hlen
    rw [memory_of_program (ready_of_busInv hinv) hfin]
    split
    · rw [List.getElem?_eq_none (by omega)]
    · rfl
  · exact absurd hreset.input (noResetUsed_not hno)

/-! ### PROGRAM as its WRITE_BYTEs -/

theorem execAll_cons {i : Instr} {is : List Instr} {s t : State} (h : exec i s = .next t) :
    execAll (i :: is) s = execAll is t := by
  rw [execAll, h]

theorem execAll_append {is js : List Instr} {s t : State} (h : execAll is s = .next t) :
    execAll (is ++ js) s = execAll js t := by
  induction is generalizing s with
  | nil =>
    cases h
    rfl
  | cons i is ih =>
    rw [execAll] at h
    cases hi : exec i s with
    | next u =>
      rw [hi] at h
      rw [List.cons_append, execAll_cons hi, ih h]
    | fault f => rw [hi] at h; cases h
    | refused r => rw [hi] at h; cases h

theorem pinTrace_of_trace {s t : State} {es : List Event} (h : traceOf t = traceOf s ++ es) (hpins : AllPins es) :
    pinTrace t = pinTrace s ++ es := by
  rw [pinTrace, h, List.filter_append, hpins.filter_isPin, pinTrace]

/-- WRITE_BYTE on a bus in mode WRITE, undisturbed. -/
theorem exec_writeByte_writing (v : Byte) (a : Addr) {s : State} (hq : quiet s = true) (hmode : s.mode = .write)
    (hwriting : Writing s.lines) :
    ∃ t, exec (.writeByte v a) s = .next t ∧ Kept s t ∧ t.mode = .write ∧
      t.lines = opsLines (writeByteOps s.cfg.tBit.toNat v a) s.lines ∧
      t.dev = { mem := Memory.write s.dev.mem (location a) v, latchA := a.setWidth 15, latchD := v } ∧
      pinTrace t = pinTrace s ++ writeByteTrace s.cfg v a := by
  obtain ⟨t, hexec, hfin, hkept⟩ := exec_quiet_kept (.writeByte v a) hq
  have hevents : eventsOf (.writeByte v a) (blockOf (accept s)) = writeByteTrace s.cfg v a :=
    congrArg (· ++ writeByteTrace s.cfg v a) (if_pos hmode)
  have hlines : linesForWrite s = s.lines := if_pos hmode
  refine ⟨t, hexec, hkept, mode_of_finished hfin, ?_, ?_, ?_⟩
  · rw [lines_of_finished hfin, linesAfter, hlines]
  · exact dev_of_writeByte (ready_of_writing hwriting) hfin
  · exact pinTrace_of_trace ((trace_of_finished hfin nofun).trans (congrArg _ hevents)) (writeByteTrace_pins _ _ _)

/-- WRITE_BYTEs of the bytes vs from address a up, on a bus in mode WRITE. -/
theorem execAll_writeBytes (vs : List Byte) (a : Nat) {s : State} (hq : quiet s = true) (hmode : s.mode = .write)
    (hwriting : Writing s.lines) :
    ∃ u, execAll (vs.mapIdx fun i v => .writeByte v (BitVec.ofNat 16 (a + i))) s = .next u ∧ u.mode = .write ∧
      u.lines = writesLines s.cfg.tBit.toNat a vs s.lines ∧ u.dev = writesDev a vs s.dev ∧
      pinTrace u = pinTrace s ++ writesTrace s.cfg a vs := by
  induction vs generalizing a s with
  | nil => exact ⟨s, rfl, hmode, rfl, rfl, (List.append_nil _).symm⟩
  | cons v vs ih =>
    obtain ⟨t, hexec, hkept, htmode, htlines, htdev, httrace⟩ :=
      exec_writeByte_writing v (BitVec.ofNat 16 a) hq hmode hwriting
    obtain ⟨u, hrest, humode, hulines, hudev, hutrace⟩ :=
      ih (a + 1) (quiet_of_host hkept.host hq) htmode (htlines ▸ writeByteOps_writing hwriting)
    refine ⟨u, ?_, humode, ?_, ?_, ?_⟩
    · rw [List.mapIdx_cons, Nat.add_zero, execAll_cons hexec, ← hrest]
      simp only [Nat.add_assoc, Nat.add_comm 1]
    · rw [hulines, htlines, hkept.cfg, writesLines]
    · rw [hudev, htdev, writesDev]
    · rw [hutrace, httrace, hkept.cfg, writesTrace, List.append_assoc]

/-- ENTER_WRITE where the mode is not WRITE yet. -/
theorem execAll_needWrite {s : State} (hq : quiet s = true) :
    ∃ t, execAll (if s.mode = .write then [] else [.enterWrite]) s = .next t ∧ Kept s t ∧ t.mode = .write ∧
      t.lines = linesForWrite s ∧ t.dev = s.dev ∧ pinTrace t = pinTrace s ++ needWriteTrace s := by
  unfold linesForWrite needWriteTrace
  split
  · rename_i hmode
    exact ⟨s, rfl, ⟨rfl, rfl, rfl, rfl, rfl, rfl⟩, hmode, rfl, rfl, (List.append_nil _).symm⟩
  · obtain ⟨t, hexec, ht⟩ := exec_enterWrite_quiet hq
    exact ⟨t, execAll_cons hexec, ht.kept, ht.mode, ht.lines, ht.dev,
      pinTrace_of_trace ht.trace (enterWriteTrace_pins s.cfg)⟩

theorem linesForWrite_writing {s : State} (h : Ready s) : Writing (linesForWrite s) :=
  doNeedWrite_lines s ▸ doNeedWrite_writing h

/-- PROGRAM's pin events are those of its writes: queries and reads of the source are none. -/
theorem pinTrace_of_program {a f : Addr} {s t : State} (h : Finished (.program a f) s t) :
    pinTrace t = pinTrace s ++ needWriteTrace s ++ writesTrace s.cfg a.toNat (programBytes a f s.source) := by
  have htrace := h.trace isPin (.inr fun _ => rfl)
  have hquery : (if (programBytes a f s.source).length < programSpan a f then [Event.srcQ false] else []).filter isPin =
      [] := by split <;> rfl
  rw [eventsOf_program_start, programEvents, List.filter_append, List.filter_append, programTrace_filter_isPin,
    (needWriteTrace_pins s).filter_isPin, hquery, List.append_nil, ← List.append_assoc] at htrace
  exact htrace

/-- Settles O44: both sides are EnterWrite where needed and then the same byte writes. -/
theorem programIsItsWriteBytes : Obligations.ProgramIsItsWriteBytes := by
  rintro s a f vs hinv hq rfl
  have hready := ready_of_busInv hinv
  obtain ⟨t, hexec, hfin, -⟩ := exec_quiet (.program a f) hq
  obtain ⟨x, henter, hkept, hmode, hlines, hdev, htrace⟩ := execAll_needWrite hq
  obtain ⟨u, hwrites, humode, hulines, hudev, hutrace⟩ := execAll_writeBytes (programBytes a f s.source) a.toNat
    (quiet_of_host hkept.host hq) hmode (hlines ▸ linesForWrite_writing hready)
  refine ⟨t, u, hexec, (execAll_append henter).trans hwrites, ?_, ?_, ?_, ?_⟩
  · rw [hutrace, htrace, hkept.cfg, pinTrace_of_program hfin]
  · rw [hulines, hlines, hkept.cfg, lines_of_finished hfin, linesAfter]
  · rw [humode, mode_of_finished hfin, modeAfter]
  · rw [hudev, hdev, dev_of_program hready hfin]

end Sys2Proof.Proofs

/-! ## DUMP, and the bounds of every command (41_programmer.md R145, R151; 30_encoding.md R89 (b); R212) -/

namespace Sys2Proof.Proofs

open Sys2Proof Sys2Proof.Machine Sys2Proof.Safety Sys2Proof.Laws

/-- Settles O39: in the invariant the device drives the data lines at every read, so that the bytes are its own. -/
theorem dumpPrintsTheDevice : Obligations.DumpPrintsTheDevice := by
  intro s a n norm hinv hq hsink hdevice hnorm
  obtain rfl : norm = (dumpBase a).toNat := hnorm.trans (dumpBase_toNat a).symm
  obtain ⟨t, vs, hexec, hlen, h⟩ := exec_dump_quiet a n hq hsink
  have hbytes := h.bytes (readable_of_busInv hinv hdevice)
  rw [hlen, dumpCount] at hbytes
  exact ⟨t, hexec, hbytes ▸ h.trace⟩

/-! ### The cut row -/

/-- From a column other than 0, short of the end of its half row, DUMP prints the cells alone. -/
theorem dumpTrace_text_cells (q : Params) (c : PinConfig) (a : Nat) (vs : List Byte) (hlabel : a % 16 ≠ 0)
    (hlen : a % 8 + vs.length ≤ 7) : (dumpTrace q c a vs).filterMap outChar = cells q.hexUpper vs := by
  induction vs generalizing a with
  | nil => rfl
  | cons v vs ih =>
    rw [List.length_cons] at hlen
    rw [dumpTrace_text_cons, textBefore_ofNat, if_neg hlabel, textAfter_ofNat, if_neg (by omega), if_neg (by omega),
      ih (a + 1) (by omega) (by omega)]
    simp [cells]

/-- Settles O42: a label, a half row of eight cells and one space, and seven cells; 4 + 24 + 1 + 21 characters. -/
theorem cutRowText : Obligations.CutRowText := by
  intro q c bs ds hbs hds
  have htext : (dumpTrace q c 0x7FF0 (bs ++ ds)).filterMap outChar =
      hex4 q.hexUpper 0x7FF0 ++ cells q.hexUpper bs ++ [0x20] ++ cells q.hexUpper ds := by
    rw [dumpTrace_append, List.filterMap_append, dumpTrace_text_firstHalf q c 0x7FF0 bs (by decide) hbs, hbs,
      dumpTrace_text_cells q c (0x7FF0 + 8) ds (by decide) (by omega)]
    rfl
  refine ⟨htext, ?_⟩
  have hlabel : (hex4 q.hexUpper 0x7FF0).length = 4 := rfl
  rw [htext]
  simp only [List.length_append, cells_length, hlabel, hbs, hds, List.length_singleton]

/-! ### DUMP as its READ_BYTEs -/

/-- READ_BYTE with a sink on a bus in mode READ, undisturbed. -/
theorem exec_readByte_reading (a : Addr) {s : State} (hq : quiet s = true) (hsink : s.sinkAvail = true)
    (hmode : s.mode = .read) :
    ∃ t, exec (.readByte a) s = .next t ∧ Kept s t ∧ t.mode = .read ∧
      t.lines = opsLines (setAddrOps a) s.lines ∧
      (pinTrace t).map unanswered = (pinTrace s).map unanswered ++ readByteTrace s.params.readSettleUs s.cfg a 0 := by
  obtain ⟨t, hexec, hfin, hkept⟩ := exec_quiet_kept (.readByte a) hq
  have hlines : linesForRead s = s.lines := if_pos hmode
  have hneed : needReadTrace s = [] := if_pos hmode
  have htrace := (readByte_finished hsink hfin).2
  rw [hneed, List.nil_append] at htrace
  refine ⟨t, hexec, hkept, (mode_of_finished hfin).trans (if_pos hsink), ?_, ?_⟩
  · rw [lines_of_finished hfin, linesAfter, if_pos hsink, hlines]
  · rw [pinTrace_of_trace htrace (readByteTrace_pins _ _ _ _), List.map_append, readByteTrace_unanswered]

/-- READ_BYTEs of n addresses from a up, on a bus in mode READ. -/
theorem execAll_readBytes (n a : Nat) {s : State} (hq : quiet s = true) (hsink : s.sinkAvail = true)
    (hmode : s.mode = .read) :
    ∃ u, execAll ((List.range' a n).map fun x => .readByte (BitVec.ofNat 16 x)) s = .next u ∧ u.mode = .read ∧
      u.lines = readsLines a n s.lines ∧
      (pinTrace u).map unanswered = (pinTrace s).map unanswered ++ readsTrace s.params.readSettleUs s.cfg a n := by
  induction n generalizing a s with
  | zero => exact ⟨s, rfl, hmode, rfl, (List.append_nil _).symm⟩
  | succ n ih =>
    obtain ⟨t, hexec, hkept, htmode, htlines, httrace⟩ := exec_readByte_reading (BitVec.ofNat 16 a) hq hsink hmode
    obtain ⟨u, hrest, humode, hulines, hutrace⟩ :=
      ih (a + 1) (quiet_of_host hkept.host hq) (hkept.sinkAvail.trans hsink) htmode
    refine ⟨u, ?_, humode, ?_, ?_⟩
    · rw [List.range'_succ, List.map_cons, execAll_cons hexec, hrest]
    · rw [hulines, htlines, readsLines]
    · rw [hutrace, httrace, hkept.params, hkept.cfg, readsTrace, List.append_assoc]

/-- ENTER_READ where the mode is not READ yet. -/
theorem execAll_needRead {s : State} (hq : quiet s = true) :
    ∃ t, execAll (if s.mode = .read then [] else [.enterRead]) s = .next t ∧ Kept s t ∧ t.mode = .read ∧
      t.lines = linesForRead s ∧ pinTrace t = pinTrace s ++ needReadTrace s := by
  unfold linesForRead needReadTrace
  split
  · rename_i hmode
    exact ⟨s, rfl, ⟨rfl, rfl, rfl, rfl, rfl, rfl⟩, hmode, rfl, (List.append_nil _).symm⟩
  · obtain ⟨t, hexec, hfin, hkept⟩ := exec_quiet_kept .enterRead hq
    exact ⟨t, execAll_cons hexec, hkept, mode_of_finished hfin, lines_of_finished hfin,
      pinTrace_of_trace (trace_of_finished hfin nofun) (enterReadTrace_pins _ s.cfg)⟩

/-- DUMP's pin events but for the answers are those of its reads. -/
theorem pinTrace_of_dumped {norm : Nat} {vs : List Byte} {s t : State} (h : Dumped norm vs s t) :
    (pinTrace t).map unanswered = (pinTrace s ++ needReadTrace s).map unanswered ++
      readsTrace s.params.readSettleUs s.cfg norm vs.length := by
  rw [pinTrace, h.trace, List.filter_append, List.filter_append, (needReadTrace_pins s).filter_isPin,
    ← List.append_assoc, List.map_append, dumpTrace_unanswered (fun _ he => he) fun _ => rfl, pinTrace]

/-- Settles O45: both sides are EnterRead where needed and then the same reads, whose answers are left out. -/
theorem dumpIsItsReadBytes : Obligations.DumpIsItsReadBytes := by
  intro s a n norm hq hsink hnorm
  obtain rfl : norm = (dumpBase a).toNat := hnorm.trans (dumpBase_toNat a).symm
  obtain ⟨t, hexec, hfin, -⟩ := exec_quiet (.dump a n) hq
  obtain ⟨t', vs, hexec', hlen, hdumped⟩ := exec_dump_quiet a n hq hsink
  obtain rfl : t' = t := Host.Outcome.next.inj (hexec'.symm.trans hexec)
  obtain ⟨x, henter, hkept, hmode, hlines, htrace⟩ := execAll_needRead hq
  obtain ⟨u, hreads, humode, hulines, hutrace⟩ := execAll_readBytes (dumpCount a n) (dumpBase a).toNat
    (quiet_of_host hkept.host hq) (hkept.sinkAvail.trans hsink) hmode
  refine ⟨t', u, hexec, (execAll_append henter).trans hreads, ?_, ?_, ?_⟩
  · rw [hutrace, htrace, hkept.params, hkept.cfg, pinTrace_of_dumped hdumped, hlen]
  · rw [hulines, hlines, lines_of_finished hfin, linesAfter, if_pos hsink]
  · rw [humode, hdumped.mode]

/-! ### Bounds -/

/-- How many characters DUMP prints for the addresses below m with a line break of e characters: three a byte, four a
label, one after the 8th byte of a row and e after the 16th. -/
def textUpTo (e m : Nat) : Nat := 3 * m + 4 * ((m + 15) / 16) + (m + 8) / 16 + e * (m / 16)

theorem textUpTo_succ (e a : Nat) :
    textUpTo e (a + 1) = textUpTo e a + (if a % 16 = 0 then 4 else 0) + 3 + (if a % 16 = 7 then 1 else 0) +
      (if a % 16 = 15 then e else 0) := by
  have hrow : (a + 1) / 16 = a / 16 + if a % 16 = 15 then 1 else 0 := by split <;> omega
  have hmul : e * ((a + 1) / 16) = e * (a / 16) + if a % 16 = 15 then e else 0 := by
    rw [hrow, Nat.mul_add]
    split <;> simp
  rw [textUpTo, textUpTo, hmul]
  split_ifs <;> omega

theorem textUpTo_le (e : Nat) {m : Nat} (hm : m ≤ 0x7FFF) : textUpTo e m ≤ 2047 * (53 + e) + 50 := by
  have hmul : e * (m / 16) ≤ e * 2047 := Nat.mul_le_mul_left e (by omega)
  rw [textUpTo, Nat.mul_add, Nat.mul_comm 2047 e]
  omega

/-- A dump from address a up prints what is printed below its end and not below a. -/
theorem dumpTrace_text_length (q : Params) (c : PinConfig) (a : Nat) (vs : List Byte) :
    textUpTo q.eolSeq.length a + ((dumpTrace q c a vs).filterMap outChar).length =
      textUpTo q.eolSeq.length (a + vs.length) := by
  induction vs generalizing a with
  | nil => rfl
  | cons v vs ih =>
    have hbefore : (textBefore q.hexUpper (BitVec.ofNat 16 a)).length = if a % 16 = 0 then 4 else 0 := by
      rw [textBefore_ofNat]
      split <;> rfl
    have hafter : (textAfter q.hexUpper q.eolSeq (BitVec.ofNat 16 a) v).length =
        3 + ((if a % 16 = 7 then 1 else 0) + if a % 16 = 15 then q.eolSeq.length else 0) := by
      rw [textAfter_ofNat, List.length_append, List.length_append, apply_ite List.length, apply_ite List.length]
      rfl
    have hrest := ih (a + 1)
    rw [textUpTo_succ] at hrest
    rw [dumpTrace_text_cons, List.length_append, List.length_append, hbefore, hafter, List.length_cons,
      show a + (vs.length + 1) = a + 1 + vs.length by omega, ← hrest]
    omega

/-- PROGRAM's own events: at most 17, 37 for each address of the longest range, and no last query after them. -/
theorem programEvents_length_le (a f : Addr) (s : State) : (programEvents a f s).length ≤ 1212396 := by
  have hlen := programBytes_length_le a f s.source
  have hspan : programSpan a f ≤ 0x7FFF := by rw [programSpan]; omega
  rw [programEvents, List.length_append, List.length_append, needWriteTrace_length, programTrace_length,
    apply_ite List.length]
  simp only [List.length_singleton, List.length_nil]
  split_ifs <;> omega

theorem dumpCount_le (a : Addr) (n : BitVec 16) : (dumpBase a).toNat + dumpCount a n ≤ 0x7FFF ∨ dumpCount a n = 0 := by
  rw [dumpCount]
  omega

/-- DUMP's bounds, where it reads bytes (R147). -/
theorem dump_bounds {norm : Nat} {vs : List Byte} {s t : State} (h : Dumped norm vs s t)
    (hrange : norm + vs.length ≤ 0x7FFF ∨ vs.length = 0) :
    (pinTrace t).length ≤ (pinTrace s).length + 4456322 ∧
      (textOf t).length ≤ (textOf s).length + (2047 * (53 + s.params.eolSeq.length) + 50) := by
  constructor
  · have hpins := congrArg List.length (pinTrace_of_dumped h)
    simp only [List.length_map, List.length_append, readsTrace_length, needReadTrace_length] at hpins
    split_ifs at hpins <;> omega
  · have htext : textOf t = textOf s ++ (dumpTrace s.params s.cfg norm vs).filterMap outChar := by
      rw [textOf, h.trace, List.filterMap_append, List.filterMap_append, (needReadTrace_pins s).text, List.nil_append,
        textOf]
    rw [htext, List.length_append]
    rcases hrange with hrange | hnone
    · have hlen := dumpTrace_text_length s.params s.cfg norm vs
      have hmax := textUpTo_le s.params.eolSeq.length hrange
      omega
    · rw [List.length_eq_zero_iff.1 hnone]
      exact Nat.le_add_right _ _

/-- Settles O47: every command's events are counted; the longest PROGRAM and DUMP have 0x7FFF addresses. -/
theorem everyCommandEndsWithinItsBound : Obligations.EveryCommandEndsWithinItsBound := by
  intro s i hq
  cases i with
  | setAddress a =>
    obtain ⟨t, hexec, hlog⟩ := exec_quiet_log (i := .setAddress a) hq nofun (setAddrTrace_length s.cfg a)
    exact ⟨t, hexec, hlog.le⟩
  | enterWrite =>
    obtain ⟨t, hexec, hlog⟩ := exec_quiet_log (i := .enterWrite) hq nofun (enterWriteTrace_length s.cfg)
    exact ⟨t, hexec, hlog.le⟩
  | enterRead =>
    obtain ⟨t, hexec, hlog⟩ := exec_quiet_log (i := .enterRead) hq nofun (enterReadTrace_length _ s.cfg)
    exact ⟨t, hexec, hlog.le⟩
  | writeByte v a =>
    obtain ⟨t, hexec, hlog⟩ := exec_quiet_log (i := .writeByte v a) hq nofun (eventsOf_writeByte_length v a s)
    refine ⟨t, hexec, hlog.le.trans (Nat.add_le_add_left ?_ _)⟩
    split <;> decide
  | readByte a =>
    obtain ⟨t, hexec, hlog⟩ := exec_quiet_log (i := .readByte a) hq nofun (eventsOf_readByte_length a s)
    refine ⟨t, hexec, hlog.le.trans (Nat.add_le_add_left ?_ _)⟩
    split_ifs <;> decide
  | program a f =>
    obtain ⟨t, hexec, hfin, -⟩ := exec_quiet (.program a f) hq
    refine ⟨t, hexec, ?_⟩
    show (nonTextTrace t).length ≤ _
    rw [nonTextTrace_of_program hfin, List.length_append]
    exact Nat.add_le_add_left (programEvents_length_le a f s) _
  | dump a n =>
    cases hsink : s.sinkAvail with
    | true =>
      obtain ⟨t, vs, hexec, hlen, hdumped⟩ := exec_dump_quiet a n hq hsink
      exact ⟨t, hexec, dump_bounds hdumped (hlen ▸ dumpCount_le a n)⟩
    | false =>
      exact ⟨_, exec_without_sink (.inr ⟨a, n, rfl⟩) hq hsink, Nat.le_add_right _ _, Nat.le_add_right _ _⟩

end Sys2Proof.Proofs

/-! ## An input that ends a command (10_state.md R33, R39; 70_reset_and_hazards.md R191, R192) -/

namespace Sys2Proof.Proofs

open Sys2Proof Sys2Proof.Machine Sys2Proof.Safety Sys2Proof.Laws

/-! ### Host faults and refused resets -/

/-- An input with index k that ends a running command: the command has fewer than k events and finishes, or the input
ends it. -/
theorem exec_ended (i : Instr) {s : State} {k : Nat} {act : Input} {rest : List TimedInput} {c : Cut}
    (hhost : s.host = ⟨some k, act⟩ :: rest) (hend : endOf act s.sinkAvail = some c) :
    (∃ y, y.cut = some c ∧ exec i s = conclude s.host.length y) ∨
      ∃ t, exec i s = .next t ∧ t.busy = false ∧ t.host = s.host ∧ t.log.length < s.log.length + k := by
  obtain ⟨st, hstaged⟩ := staged_body i
  rcases exec_timed hstaged hhost hend with ⟨t, hexec, hfin, hsame, -, hlog⟩ | ⟨y, n, hexec, hstop⟩
  · exact .inr ⟨t, hexec, (FinishedRun.with hfin).busy, hsame, hlog⟩
  · exact .inl ⟨y, hstop.cut, hexec⟩

theorem conclude_fault {n : Nat} {y : State} {f : Fault} (h : y.cut = some (.fault f)) : conclude n y = .fault f := by
  cases n <;> rw [conclude, h]

theorem conclude_refuse {n : Nat} {y : State} {r : Refusal} (h : y.cut = some (.refuse r)) :
    conclude n y = .refused r := by
  cases n <;> rw [conclude, h]

/-- An input that is a host fault while the block is busy. -/
theorem exec_hostFault (i : Instr) {s : State} {k : Nat} {act : Input} {rest : List TimedInput} {f : Fault}
    (hhost : s.host = ⟨some k, act⟩ :: rest) (hend : endOf act s.sinkAvail = some (.fault f)) :
    exec i s = .fault f ∨
      ∃ t, exec i s = .next t ∧ t.busy = false ∧ t.host = s.host ∧ t.log.length < s.log.length + k :=
  (exec_ended i hhost hend).imp_left fun ⟨_, hcut, hexec⟩ => hexec.trans (conclude_fault hcut)

/-- Settles O9: neither the busy block nor a running command has a move for a CMD write. -/
theorem cmdWriteWhileBusyIsAHostFault : Obligations.CmdWriteWhileBusyIsAHostFault := by
  refine ⟨fun s w after rest hbusy hhost => ?_, fun i s k w rest hhost => exec_hostFault i hhost rfl⟩
  rw [step_of_host hhost]
  exact if_pos hbusy

/-- Settles O10: neither the busy block nor a running command has a move for a change of the level. -/
theorem sinkChangeWhileBusyIsAHostFault : Obligations.SinkChangeWhileBusyIsAHostFault := by
  refine ⟨fun s b after rest hbusy hb hhost => ?_, fun i s k b rest hb hhost => exec_hostFault i hhost (if_neg hb)⟩
  rw [step_of_host hhost]
  exact if_pos (by simp [hbusy, hb])

theorem resetCut_of_nodup {c : PinConfig} (h : c.pins.Nodup) : resetCut c = .reset c := if_pos (decide_eq_true h)

theorem resetCut_of_not_nodup {c : PinConfig} (h : ¬ c.pins.Nodup) : resetCut c = .refuse .duplicatePinIds :=
  if_neg fun hw => h (of_decide_eq_true hw)

/-- Settles O13: a reset is refused before it abandons anything. -/
theorem duplicatePinIdsAreRefused : Obligations.DuplicatePinIdsAreRefused := by
  refine ⟨fun s c after rest hdup hhost => ?_, fun i s k c rest hdup hhost => ?_⟩
  · rw [step_reset hhost, resetMachine_refused hdup]
  · have hend : endOf (.reset c) s.sinkAvail = some (.refuse .duplicatePinIds) :=
      congrArg some (resetCut_of_not_nodup hdup)
    exact (exec_ended i hhost hend).imp_left fun ⟨_, hcut, hexec⟩ => hexec.trans (conclude_refuse hcut)

/-! ### What a command that a reset has ended leaves -/

/-- The command i, accepted in s, was ended by a reset to c after the events es, of which the first n of its own; m is
the block the reset found, and t the state after the reset sequence. -/
structure Abandoned (i : Instr) (s t : State) (c : PinConfig) (n : Nat) (es : List Event) (m : State) : Prop where
  table : AfterReset c t
  trace : traceOf t = traceOf s ++ es ++ resetTrace c
  own : n ≤ (eventsOf i (blockOf (startOf i s))).length
  seen : ∀ q, Silent q (startOf i s) → es.filter q = ((eventsOf i (blockOf (startOf i s))).take n).filter q
  dev : t.dev = settle m
  source : t.source = m.source

/-- The block a command has reached before its event n, or at its finish where that is past its last event. -/
def stageOrEnd (i : Instr) (st : State → Nat → State) (s : State) (n : Nat) : State :=
  if n < (eventsOf i (blockOf (startOf i s))).length then st (blockOf (startOf i s)) n
  else effectOf i (blockOf (startOf i s))

/-- A reset with index k: the command has fewer than k events and finishes, or the reset abandons it after k. -/
theorem exec_reset {i : Instr} {st : State → Nat → State} (p : Staged (bodyOf i) (effectOf i) (eventsOf i) st)
    {s : State} {k : Nat} {c : PinConfig} {rest : List TimedInput} (hnodup : c.pins.Nodup)
    (hhost : s.host = ⟨some k, .reset c⟩ :: rest) (hq : quiet { s with host := rest } = true) :
    (∃ t, exec i s = .next t ∧ Finished i s t ∧ t.host = s.host ∧ t.log.length < s.log.length + k) ∨
      ∃ t n es, exec i s = .next t ∧ t.host = rest ∧ es.length = k ∧
        Abandoned i s t c n es (stageOrEnd i st s n) := by
  have hend : endOf (.reset c) s.sinkAvail = some (.reset c) := congrArg some (resetCut_of_nodup hnodup)
  rcases exec_timed p hhost hend with ⟨t, hexec, hfin, hsame, -, hlog⟩ | ⟨y, n, hexec, hstop⟩
  · exact .inl ⟨t, hexec, hfin, hsame, hlog⟩
  · obtain ⟨t, hconclude, htable, hrest, -, hview, hdev, hsource⟩ := abandoned hstop (by rw [hhost]; exact nofun) hq
    obtain ⟨pre, hpre⟩ := hstop.kept
    have hlen := hstop.log
    rw [← hpre, List.length_append] at hlen
    have htrace : traceOf y = traceOf s ++ pre.reverse := by
      rw [traceOf, ← hpre, List.reverse_append, traceOf]
    obtain ⟨hsettle, hsame⟩ := doReset_dev c (stageOrEnd i st s n)
    refine .inr ⟨t, n, pre.reverse, hexec.trans hconclude, hrest, by rw [List.length_reverse]; omega, htable, ?_,
      hstop.own, fun q hsilent => ?_, hdev.trans hsettle, hsource.trans hsame⟩
    · rw [← htrace]
      simpa only [view, List.filter_true] using hview fun _ => true
    · have hseen := hstop.trace q hsilent
      rw [view, htrace, List.filter_append, view] at hseen
      exact List.append_cancel_left hseen

/-- Text apart, the events before the reset are the command's own. -/
theorem Abandoned.nonText {i : Instr} {s t m : State} {c : PinConfig} {n : Nat} {es : List Event}
    (h : Abandoned i s t c n es m) :
    (es.filter fun e => !isText e) =
      ((eventsOf i (blockOf (startOf i s))).take n).filter fun e => !isText e :=
  h.seen _ (silent_nonText _)

/-- Where no ECHO text may come, the events before the reset are the command's own. -/
theorem Abandoned.events {i : Instr} {s t m : State} {c : PinConfig} {n : Nat} {es : List Event}
    (h : Abandoned i s t c n es m) (hi : s.sinkAvail = false ∨ ∀ a f, i ≠ .program a f) :
    es = (eventsOf i (blockOf (startOf i s))).take n := by
  simpa only [List.filter_true] using h.seen (fun _ => true) (.inl (startOf_not_echoing hi))

/-- Where no ECHO text may come, all events before the reset are the command's own. -/
theorem Abandoned.length {i : Instr} {s t m : State} {c : PinConfig} {n : Nat} {es : List Event}
    (h : Abandoned i s t c n es m) (hi : s.sinkAvail = false ∨ ∀ a f, i ≠ .program a f) : es.length = n := by
  rw [h.events hi, List.length_take, Nat.min_eq_left h.own]

/-- Settles O16: what a stopped command has issued is a part of its events; the run without the reset has them all. -/
theorem resetInsideACommandAbandonsIt : Obligations.ResetInsideACommandAbandonsIt := by
  intro i s k c rest hnodup hhost hq
  obtain ⟨st, hstaged⟩ := staged_body i
  obtain ⟨u, hexec', hfin', -⟩ := exec_quiet i (s := { s with host := [] }) rfl
  have hevents : eventsOf i (blockOf (startOf i { s with host := [] })) = eventsOf i (blockOf (startOf i s)) := by
    cases i <;> rfl
  have hnonText := nonTextTrace_of_finished hfin'
  rw [hevents] at hnonText
  rcases exec_reset hstaged hnodup hhost hq with ⟨t, hexec, hfin, hsame, hlog⟩ | ⟨t, n, es, hexec, hrest, hlen, h⟩
  · exact ⟨t, u, hexec, hexec', .inr ⟨hsame, (config_of_finished hfin).2, (FinishedRun.with hfin).busy, hlog,
      (nonTextTrace_of_finished hfin).trans hnonText.symm⟩⟩
  · refine ⟨t, u, hexec, hexec', .inl ⟨hrest, h.table, es, h.trace, hlen, ?_, fun hi => ?_⟩⟩
    · rw [h.nonText, hnonText]
      exact (List.prefix_append_right_inj _).2 ((List.take_prefix n _).filter _)
    · rw [h.events hi, traceOf_of_finished hfin' hi, hevents]
      exact (List.prefix_append_right_inj _).2 (List.take_prefix n _)

/-! ### A reset inside WRITE_BYTE -/

theorem staged_bodyOf_writeByte (v : Byte) (a : Addr) :
    Staged (bodyOf (.writeByte v a)) (effectOf (.writeByte v a)) (eventsOf (.writeByte v a)) (writeStage v a) :=
  staged_writeByte v a

/-- The block WRITE_BYTE has reached, also at its finish, is the stage of its event n. -/
theorem stageOrEnd_writeByte (v : Byte) (a : Addr) (s : State) {n : Nat}
    (hn : n ≤ (eventsOf (.writeByte v a) (blockOf (accept s))).length) :
    stageOrEnd (.writeByte v a) (writeStage v a) s n = writeStage v a (blockOf (accept s)) n := by
  unfold stageOrEnd
  split
  · rfl
  · rename_i hlast
    have hend : n = (needWriteTrace (blockOf (accept s))).length + 35 := by
      have hlen : (eventsOf (.writeByte v a) (blockOf (accept s))).length = _ :=
        List.length_append.trans (congrArg _ (writeByteTrace_length s.cfg v a))
      have hge : ¬ n < (eventsOf (.writeByte v a) (blockOf (accept s))).length := hlast
      omega
    rw [hend, writeStage_end]
    rfl

/-- The events of WRITE_BYTE up to and with its falling edge. -/
def eventsToFall (s : State) : Nat := if s.mode = .write then 33 else 50

/-- Where a reset finds WRITE_BYTE at its event n, the device settles with the byte written exactly if the falling
edge, operation 33 of WriteByteProc, is behind. -/
theorem stageOrEnd_writeByte_settle (v : Byte) (a : Addr) {s : State} (hready : Ready s) {n : Nat}
    (hn : n ≤ (eventsOf (.writeByte v a) (blockOf (accept s))).length) :
    settle (stageOrEnd (.writeByte v a) (writeStage v a) s n) =
      if eventsToFall s ≤ n then
        { mem := Memory.write s.dev.mem (location a) v, latchA := a.setWidth 15, latchD := v }
      else s.dev := by
  have hstart : Ready (blockOf (accept s)) := hready
  have hfall : (needWriteTrace (blockOf (accept s))).length + 33 = eventsToFall s := by
    rw [needWriteTrace_length, eventsToFall]
    exact (apply_ite (· + 33) _ _ _).trans rfl
  rw [stageOrEnd_writeByte v a s hn, (writeStage_settle hstart n).1, hfall]
  rfl

/-- A byte written under a condition, as the memory reads. -/
theorem read_write_if (p : Prop) [Decidable p] (d : RefDevice) (l : Nat) (v : Byte) (lA : BitVec 15) (x : Nat) :
    Memory.read (if p then { mem := Memory.write d.mem l v, latchA := lA, latchD := v } else d : RefDevice).mem x =
      if p ∧ x = l then some v else Memory.read d.mem x := by
  by_cases hp : p
  · rw [if_pos hp, memory_read_write]
    exact if_congr (by simp [hp]) rfl rfl
  · rw [if_neg hp, if_neg fun h => hp h.1]

/-- Settles O17: a WRITE_BYTE with fewer than k events has its falling edge behind; the others are at their stage k. -/
theorem resetInsideWriteByteCommitsAfterTheFallingEdge :
    Obligations.ResetInsideWriteByteCommitsAfterTheFallingEdge := by
  intro s v a k c rest hinv hnodup hhost hq
  have hready := ready_of_busInv hinv
  have hcount := eventsOf_writeByte_length v a s
  rcases exec_reset (staged_bodyOf_writeByte v a) hnodup hhost hq with
    ⟨t, hexec, hfin, hsame, hlog⟩ | ⟨t, n, es, hexec, hrest, hlen, h⟩
  · have hlate : (if s.mode = .write then 35 else 52) < k := by
      have hall : t.log.length = s.log.length + (eventsOf (.writeByte v a) (blockOf (accept s))).length :=
        log_length_of_trace (trace_of_finished hfin nofun)
      omega
    have hfall : eventsToFall s ≤ k := by
      unfold eventsToFall
      split_ifs at hlate ⊢ <;> omega
    refine ⟨t, hexec, ?_, fun x => ?_⟩
    · rw [if_neg (by omega)]
      exact ⟨hsame, (config_of_finished hfin).2⟩
    · rw [dev_of_writeByte hready hfin, ← if_pos (c := eventsToFall s ≤ k) (t := RefDevice.mk _ _ _) (e := s.dev) hfall]
      exact read_write_if _ _ _ _ _ _
  · obtain rfl : k = n := hlen.symm.trans (h.length (.inr nofun))
    have hearly : k ≤ if s.mode = .write then 35 else 52 := hcount ▸ h.own
    refine ⟨t, hexec, ?_, fun x => ?_⟩
    · rw [if_pos hearly]
      exact ⟨hrest, h.table⟩
    · rw [h.dev, stageOrEnd_writeByte_settle v a hready h.own]
      exact read_write_if _ _ _ _ _ _

/-! ### A reset inside PROGRAM -/

theorem staged_bodyOf_program (a f : Addr) :
    Staged (bodyOf (.program a f)) (effectOf (.program a f)) (eventsOf (.program a f)) (programStage a f) :=
  staged_program a f

theorem resetTrace_pins (c : PinConfig) : AllPins (resetTrace c) := by
  simp only [resetTrace, allPins_append]
  exact ⟨⟨by simp [AllPins, isPin], allPins_flatMap (fun _ => by simp [AllPins, isPin]) _⟩,
    allPins_map (fun _ => rfl) _⟩

/-- A PROGRAM stopped before its event n, on a bus in order: the bytes whose falling edge came are in the device once
WE is back at 1, and the source is advanced by the bytes read. -/
theorem programStage_settle {a f : Addr} {b : State} (hwork : b.work.isSome = true) (hready : Ready b) {n : Nat}
    (hn : n < (eventsOf (.program a f) b).length) :
    settle (programStage a f b n) =
        writesDev a.toNat ((programBytes a f b.source).take ((n - (needWriteTrace b).length + 2) / 37)) b.dev ∧
      (programStage a f b n).source.bytes =
        b.source.bytes.drop ((n - (needWriteTrace b).length + 35) / 37) := by
  have hevents : eventsOf (.program a f) b =
      needWriteTrace b ++ programLoopTrace (programSpan a f) (programLoopStart a f b) := rfl
  rw [hevents, List.length_append] at hn
  rw [programStage]
  split
  · have hzero : n - (needWriteTrace b).length = 0 := by omega
    rw [hzero, enterWrite_settle hready n, applyOps_source]
    exact ⟨rfl, rfl⟩
  · obtain ⟨hstart, ha, hbound⟩ := programLoopStart_work a f hwork
    have hlines : Writing (programLoopStart a f b).lines := doNeedWrite_writing hready
    have hsource : (programLoopStart a f b).source = b.source := doNeedWrite_source b
    have hdev : (programLoopStart a f b).dev = b.dev := (doNeedWrite_dev b).1
    have hstage := loopStage_settle (programSpan a f) (programLoopStart a f b) (programBytes a f b.source)
      (n - (needWriteTrace b).length) hstart (doNeedWrite_mode b) hlines
      (by rw [hbound, programBound_toNat]; exact Nat.min_le_right _ _)
      (by rw [ha, hbound, programBound_toNat, programSpan]) (by rw [hsource]; rfl) (by omega)
    rwa [ha, hsource, hdev] at hstage

/-- After all its events PROGRAM has written every byte, and a last query counts for none. -/
theorem programEvents_bytes (a f : Addr) (s : State) :
    ((programEvents a f s).length - (needWriteTrace s).length + 2) / 37 = (programBytes a f s.source).length ∧
      ((programEvents a f s).length - (needWriteTrace s).length + 35) / 37 =
        (programBytes a f s.source).length := by
  rw [programEvents, List.length_append, List.length_append, programTrace_length, Nat.add_sub_cancel_left,
    apply_ite List.length, List.length_singleton, List.length_nil]
  split <;> omega

/-- What PROGRAM has left where a reset finds it at its event n, from a bus in order. -/
theorem stageOrEnd_program_settle {a f : Addr} {s : State} (hready : Ready s) {n : Nat}
    (hn : n ≤ (programEvents a f s).length) :
    settle (stageOrEnd (.program a f) (programStage a f) s n) =
        writesDev a.toNat ((programBytes a f s.source).take ((n - (needWriteTrace s).length + 2) / 37)) s.dev ∧
      (stageOrEnd (.program a f) (programStage a f) s n).source.bytes =
        s.source.bytes.drop ((n - (needWriteTrace s).length + 35) / 37) := by
  have hstart : Ready (blockOf (startOf (.program a f) s)) := hready
  have hwork : (blockOf (startOf (.program a f) s)).work.isSome = true := rfl
  unfold stageOrEnd
  split
  · rename_i hlt
    exact programStage_settle hwork hstart hlt
  · rename_i hlast
    rw [eventsOf_program_start] at hlast
    obtain rfl : n = (programEvents a f s).length := by omega
    obtain ⟨hwritten, hread⟩ := programEvents_bytes a f s
    obtain ⟨hwriting, hstored⟩ := doProgram_spec a f hwork hstart
    obtain ⟨hadvanced, -⟩ := doProgram_fields a f hwork
    rw [hwritten, hread, List.take_length]
    exact ⟨(settle_of_high hwriting.1).trans hstored, congrArg ByteSource.bytes hadvanced⟩

/-- Settles O18: PROGRAM's stages, by the event the reset falls at; the trace besides the text counts PROGRAM's own
events. -/
theorem resetInsideProgramKeepsWhatItWrote : Obligations.ResetInsideProgramKeepsWhatItWrote := by
  rintro s a f span vs full k c rest hinv hnodup hhost hq rfl rfl hfull
  obtain rfl : full = programEvents a f s := hfull
  have hready := ready_of_busInv hinv
  have hevents := eventsOf_program_start a f s
  rcases exec_reset (staged_bodyOf_program a f) hnodup hhost hq with
    ⟨t, hexec, hfin, hsame, hlog⟩ | ⟨t, n, es, hexec, hrest, hlen, h⟩
  · exact ⟨t, hexec, .inl ⟨hsame, (config_of_finished hfin).2, (FinishedRun.with hfin).busy, hlog⟩⟩
  · have hown : n ≤ (programEvents a f s).length := hevents ▸ h.own
    have htext : ((programEvents a f s).take n).filterMap outChar = [] :=
      List.filterMap_eq_nil_iff.2 fun e he =>
        List.filterMap_eq_nil_iff.1 (programEvents_text a f s) e (List.mem_of_mem_take he)
    have hseen : (es.filter fun e => !isText e) = (programEvents a f s).take n := by
      rw [h.nonText, hevents, filter_not_isText_of_text htext]
    have hle : n ≤ k := by
      have hcount := List.length_filter_le (fun e => !isText e) es
      rwa [hseen, List.length_take, Nat.min_eq_left hown, hlen] at hcount
    obtain ⟨hsettle, hbytes⟩ := stageOrEnd_program_settle hready hown
    refine ⟨t, hexec, .inr ⟨hrest, h.table, n, hle, hown, fun hsink => ?_, ?_, ?_, fun x => ?_⟩⟩
    · exact (h.length (.inl hsink)).symm.trans hlen
    · rw [nonTextTrace, h.trace, List.filter_append, List.filter_append, hseen,
        filter_not_isText_of_text (resetTrace_pins c).text, nonTextTrace]
    · rw [h.source, hbytes]
    · rw [h.dev, hsettle]
      exact read_writesDev ((List.length_take_le' _ _).trans (programBytes_length_le a f s.source)) s.dev x

end Sys2Proof.Proofs
